-- ==== Sys2Proof/Word.lean ====
section
/-! DEFINITION. The word types of the block (00_scope.md R8): 32-bit port words, binary32 bit patterns, bytes, the 8-bit
event word. The arithmetic on them is in Sys2Proof/Machine/Float.lean. -/

namespace Sys2Proof

/-- A 32-bit word on a port (R8): a bit-field word or the bit pattern of a binary32 value. -/
abbrev Word := BitVec 32

/-- A binary32 value as its bit pattern: sign in bit 31, biased exponent in bits 30:23, fraction in bits 22:0 (R8). -/
abbrev F32 := BitVec 32

/-- One byte of a word written as bytes, least significant byte first (20_memory.md R39). -/
abbrev Byte := BitVec 8

/-- The 8-bit event word (10_state.md R26, 30_encoding.md R58). -/
abbrev EvWord := BitVec 8

end Sys2Proof
end

