-- ==== Sys2Proof/Machine/Float.lean ====
section
/-! DEFINITION. IEEE 754 binary32 (00_scope.md R5, R8, R9; log entry 15): round to nearest ties to even, subnormals kept,
each operator rounded on its own. Every finite value is a whole number of units of 2^-149: an operation computes the exact
result over integers and narrows it once, in `roundMag`. -/

namespace Sys2Proof

/-- A FREE VALUE: the sign and payload bits of the NaN that an operation on these two operands gives. IEEE 754 leaves them
open, and no rule of the spec computes a NaN (60_exceptions.md R137). Log entry 5. -/
opaque Config.freeNaN : F32 → F32 → F32

end Sys2Proof

namespace Sys2Proof.Machine

/-- Bit 31. -/
def signBit (x : F32) : Bool := x.msb

/-- The exponent field, bits 30:23. -/
def expField (x : F32) : Nat := x.toNat / 2 ^ 23 % 2 ^ 8

/-- The fraction field, bits 22:0. -/
def fracField (x : F32) : Nat := x.toNat % 2 ^ 23

/-- Bits 30:0: the pattern without its sign, which orders the magnitudes. -/
def magBits (x : F32) : Nat := x.toNat % 2 ^ 31

/-- `finite(x)`: neither an infinity nor a NaN (30_encoding.md R59). -/
def isFinite (x : F32) : Bool := expField x != 255

/-- A NaN: exponent field 0xFF, fraction not zero. -/
def isNaN (x : F32) : Bool := expField x == 255 && fracField x != 0

/-- An infinity: exponent field 0xFF, fraction zero. -/
def isInf (x : F32) : Bool := expField x == 255 && fracField x == 0

/-- +0.0 or -0.0. -/
def isZero (x : F32) : Bool := magBits x == 0

/-- The magnitude of a finite value in units of 2^-149. -/
def magnitude (x : F32) : Nat :=
  if expField x = 0 then fracField x else (2 ^ 23 + fracField x) * 2 ^ (expField x - 1)

/-- The exact value of a finite pattern in units of 2^-149. -/
def value (x : F32) : Int := if signBit x then -(magnitude x : Int) else (magnitude x : Int)

/-- The exact value of a finite pattern. -/
def exactly (x : F32) : Rat := (value x : Rat) / 2 ^ 149

/-- The whole number nearest n / d, ties to even. -/
def roundQuot (n d : Nat) : Nat :=
  let q := n / d
  let r := n % d
  if d < 2 * r ∨ (2 * r = d ∧ q % 2 = 1) then q + 1 else q

/-- The magnitude bits (30:0) of the binary32 value nearest (n / d) * 2^-149, ties to even; past the largest finite value,
infinity. A rounding that carries out of the significand moves into the exponent field by the same addition. -/
def roundMag (n d : Nat) : Nat :=
  let k := Nat.log2 (n / d) - 23
  min (k * 2 ^ 23 + roundQuot n (d * 2 ^ k)) 0x7F800000

/-- A sign and magnitude bits as a pattern. -/
def pack (neg : Bool) (m : Nat) : F32 := BitVec.ofNat 32 ((if neg then 2 ^ 31 else 0) + m)

def posZero : F32 := 0x00000000#32
def negZero : F32 := 0x80000000#32
def posInf : F32 := 0x7F800000#32

/-- 0.25, 0.5, 0.75, 1, 1.25, 1.5, 2, 4, 5, 6, 8 and 10 (exact). -/
def quarter : F32 := 0x3E800000#32
def half : F32 := 0x3F000000#32
def threeQuarters : F32 := 0x3F400000#32
def one : F32 := 0x3F800000#32
def oneAndQuarter : F32 := 0x3FA00000#32
def oneAndHalf : F32 := 0x3FC00000#32
def two : F32 := 0x40000000#32
def four : F32 := 0x40800000#32
def five : F32 := 0x40A00000#32
def six : F32 := 0x40C00000#32
def eight : F32 := 0x41000000#32
def ten : F32 := 0x41200000#32

/-- A quiet NaN whose sign and payload are free (log entry 5). -/
def nanOf (x y : F32) : F32 := Config.freeNaN x y ||| 0x7FC00000#32

/-- Unary minus flips the sign bit exactly (R9). -/
def fneg (x : F32) : F32 := x ^^^ 0x80000000#32

/-- `x + y` (R9). -/
def fadd (x y : F32) : F32 :=
  if isFinite x && isFinite y then
    let z := value x + value y
    if z = 0 then (if signBit x && signBit y then negZero else posZero)
    else pack (decide (z < 0)) (roundMag z.natAbs 1)
  else if isNaN x || isNaN y then nanOf x y
  else if isInf x then (if isInf y && signBit x != signBit y then nanOf x y else x)
  else y

/-- `x - y` (R9). -/
def fsub (x y : F32) : F32 := fadd x (fneg y)

/-- `x * y` (R9). -/
def fmul (x y : F32) : F32 :=
  let s := signBit x != signBit y
  if isFinite x && isFinite y then pack s (roundMag (magnitude x * magnitude y) (2 ^ 149))
  else if isNaN x || isNaN y || isZero x || isZero y then nanOf x y
  else pack s 0x7F800000

/-- `x / y` (R9). -/
def fdiv (x y : F32) : F32 :=
  let s := signBit x != signBit y
  if isNaN x || isNaN y then nanOf x y
  else if isInf x then (if isInf y then nanOf x y else pack s 0x7F800000)
  else if isInf y then pack s 0
  else if isZero y then (if isZero x then nanOf x y else pack s 0x7F800000)
  else pack s (roundMag (magnitude x * 2 ^ 149) (magnitude y))

/-- The key that orders the patterns that are not NaN; +0.0 and -0.0 have one key. -/
def orderKey (x : F32) : Int := if signBit x then -(magBits x : Int) else (magBits x : Int)

/-- The ordered comparisons (R9): false where an operand is a NaN; +0 == -0. -/
def flt (x y : F32) : Bool := !isNaN x && !isNaN y && decide (orderKey x < orderKey y)
def fle (x y : F32) : Bool := !isNaN x && !isNaN y && decide (orderKey x ≤ orderKey y)
def fgt (x y : F32) : Bool := flt y x
def fge (x y : F32) : Bool := fle y x
def feq (x y : F32) : Bool := !isNaN x && !isNaN y && decide (orderKey x = orderKey y)

/-- `clamp(x, lo, hi)` (R9). -/
def fclamp (x lo hi : F32) : F32 := if flt x lo then lo else if fgt x hi then hi else x

/-- `lo <= x <= hi`. -/
def within (lo x hi : F32) : Bool := fle lo x && fle x hi

/-- `lo <= x < hi`. -/
def withinBelow (lo x hi : F32) : Bool := fle lo x && flt x hi

end Sys2Proof.Machine
end

