-- ==== Sys2Proof/Config.lean ====
section
/-! DEFINITION. What an implementation fixes and the spec leaves OPEN (00_scope.md R5), and the free values. Nothing in
Lean can evaluate or prove a value of the constants without a body. (The free NaN bits are in Sys2Proof/Machine/Float.lean.) -/

namespace Sys2Proof

/-- The four tap values of a correction kernel, one per buffer slot (41_correction_injector.md R88, R91). -/
structure Taps where
  t0 : F32
  t1 : F32
  t2 : F32
  t3 : F32
  deriving DecidableEq, Repr, Inhabited

/-- The exact coefficients of a polynomial of degree at most 5. -/
structure Quintic where
  c0 : Rat
  c1 : Rat
  c2 : Rat
  c3 : Rat
  c4 : Rat
  c5 : Rat
  deriving DecidableEq, Repr

/-- The polynomial's exact value at d. -/
def Quintic.eval (q : Quintic) (d : Rat) : Rat :=
  q.c0 + q.c1 * d + q.c2 * d ^ 2 + q.c3 * d ^ 3 + q.c4 * d ^ 4 + q.c5 * d ^ 5

/-- The exact polynomials Q0..Q3 of a ramp kernel, one per tap (41_correction_injector.md R91). -/
structure RampPolynomials where
  q0 : Quintic
  q1 : Quintic
  q2 : Quintic
  q3 : Quintic
  deriving DecidableEq, Repr

/-- What R91 asks of a ramp kernel's polynomials: degree 5 per tap, and the properties of R92 in exact arithmetic. -/
structure RampPolynomials.Lawful (q : RampPolynomials) : Prop where
  degree : q.q0.c5 ≠ 0 ∧ q.q1.c5 ≠ 0 ∧ q.q2.c5 ≠ 0 ∧ q.q3.c5 ≠ 0
  sum : ∀ d : Rat, q.q0.eval d + q.q1.eval d + q.q2.eval d + q.q3.eval d = d ^ 2 / 2 - d / 2 + 1 / 4
  mirror : ∀ d : Rat, q.q0.eval d = q.q3.eval (1 - d) ∧ q.q1.eval d = q.q2.eval (1 - d)
  range : ∀ d : Rat, 0 ≤ d → d ≤ 1 →
    (0 ≤ q.q0.eval d ∧ q.q0.eval d ≤ 7 / 30) ∧ (0 ≤ q.q1.eval d ∧ q.q1.eval d ≤ 7 / 30) ∧
    (0 ≤ q.q2.eval d ∧ q.q2.eval d ≤ 7 / 30) ∧ (0 ≤ q.q3.eval d ∧ q.q3.eval d ≤ 7 / 30)
  atZero : q.q0.eval 0 = 1 / 120 ∧ q.q1.eval 0 = 7 / 30 ∧ q.q2.eval 0 = 1 / 120 ∧ q.q3.eval 0 = 0
  atOne : q.q0.eval 1 = 0 ∧ q.q1.eval 1 = 1 / 120 ∧ q.q2.eval 1 = 7 / 30 ∧ q.q3.eval 1 = 1 / 120

/-- A binary32 tap is finite and within 2^-10 of an exact value: the rounding a replacement may have (log entry 4). -/
def TapNear (t : F32) (r : Rat) : Prop :=
  Machine.isFinite t = true ∧ r - 1 / 1024 ≤ Machine.exactly t ∧ Machine.exactly t ≤ r + 1 / 1024

/-- Binary32 taps evaluate polynomials over the crossing fractions, [0, 1] (41_correction_injector.md R100). -/
def RampPolynomials.EvaluatedBy (q : RampPolynomials) (taps : F32 → Taps) : Prop :=
  ∀ d : F32, Machine.within Machine.posZero d Machine.one = true →
    TapNear (taps d).t0 (q.q0.eval (Machine.exactly d)) ∧ TapNear (taps d).t1 (q.q1.eval (Machine.exactly d)) ∧
    TapNear (taps d).t2 (q.q2.eval (Machine.exactly d)) ∧ TapNear (taps d).t3 (q.q3.eval (Machine.exactly d))

/-- A replacement of the default RAMP_KERNEL (41_correction_injector.md R91): lawful polynomials, and their binary32
evaluation, whose order of operations R91 leaves to the replacement. -/
structure RampKernel where
  polynomials : RampPolynomials
  taps : F32 → Taps
  lawful : polynomials.Lawful
  evaluated : polynomials.EvaluatedBy taps

/-- The four OPEN parameters of R5, which a model takes as an argument. Every operation that depends on one takes a
`Params`; the machine's own step takes `Config.params`. Log entries 2, 3, 4, 21. -/
structure Params where
  /-- RESET_THRESHOLD, binary32 volts (44_sample_step_and_reset.md R124). -/
  resetThreshold : F32
  /-- SINE_APPROX; read only through `Machine.sineApprox`, which holds it to R108's properties 1 to 3. -/
  sine : F32 → F32
  /-- SQUARE_OUT(v, w) (42_waveform_generator.md R106). -/
  squareOut : F32 → F32 → F32
  /-- RAMP_KERNEL: `none` is the default of R91, `some k` the replacement k (R5, R91). -/
  ramp : Option RampKernel
  deriving Inhabited

/-- The parameters of this machine: uninterpreted (R5, 93_implementation_defined.md I5 to I8; log entry 2). -/
opaque Config.params : Params

/-- A FREE VALUE: PULSE_T at inc = 0, which is any value and is never read (40_phase_accumulator.md R72, I17).
Log entry 6. -/
opaque Config.pulseTAtRest : F32

end Sys2Proof
end

