-- ==== Sys2Proof/Machine/Flags.lean ====
section
/-! DEFINITION. The flag computations (10_state.md R16 to R18; 40_phase_accumulator.md R73, R76, R80) and the EV bits
(30_encoding.md R58). -/

namespace Sys2Proof.Machine

/-- squareHigh against a pulse width: `p < pwc` (R73). -/
def squareHighAt (p pwc : F32) : Bool := flt p pwc

/-- triRising: `(p < 0.25) or (p >= 0.75)` (R76). -/
def triRisingAt (p : F32) : Bool := flt p quarter || fge p threeQuarters

/-- halfHigh: `p >= 0.5` (R80). -/
def halfHighAt (p : F32) : Bool := fge p half

/-- The EV bits (30_encoding.md R58). -/
def evAdv : EvWord := 0x01#8
def evWrapUp : EvWord := 0x02#8
def evWrapDn : EvWord := 0x04#8
def evPeUp : EvWord := 0x08#8
def evPeDn : EvWord := 0x10#8
def evTfUp : EvWord := 0x20#8
def evTfDn : EvWord := 0x40#8
def evReset : EvWord := 0x80#8

/-- Bit b of an event word is 1. -/
def evHas (ev b : EvWord) : Bool := ev &&& b != 0#8

end Sys2Proof.Machine
end

