-- ==== Sys2Proof/Syntax.lean ====
section
/-! DEFINITION. The instructions: one constructor per row of spec/opcode_table.json (30_encoding.md R60), and the frames the
host presents (30_encoding.md R51). -/

namespace Sys2Proof

/-- The connection bits of the CTRL word, bits 2 to 5 (30_encoding.md R52). -/
structure Conn where
  saw : Bool
  sq  : Bool
  tri : Bool
  sin : Bool
  deriving DecidableEq, Repr

/-- One constructor per row of the opcode table. The first four are the commands of the CTRL word; the other eight are the
transitions of the EV bits, with the operands the spec's pseudocode hands each of them (log entry 10). -/
inductive Instr where
  /-- NOP (44_sample_step_and_reset.md R121). It has no operands; its data words are ignored. -/
  | nop (conn : Conn)
  /-- TICK (R120): the CONN bits and the INC, PW and RST words. -/
  | tick (conn : Conn) (inc pw rst : F32)
  /-- RSVD_CMD2 (R122): CMD = 0b10, with the 30 bits of CTRL above it. -/
  | rsvdCmd2 (upper : BitVec 30)
  /-- RSVD_CMD3 (R122): CMD = 0b11, with the 30 bits of CTRL above it. -/
  | rsvdCmd3 (upper : BitVec 30)
  /-- ADVANCE (40_phase_accumulator.md R66). -/
  | advance (inc pwc : F32)
  /-- WRAP_UP (R67): q from R66, and inc. -/
  | wrapUp (q inc : F32)
  /-- WRAP_DN (R68): q from R66, and inc. -/
  | wrapDn (q inc : F32)
  /-- PULSE_EDGE_UP (R73, R74): p, inc >= 0 and pwc. -/
  | pulseEdgeUp (p inc pwc : F32)
  /-- PULSE_EDGE_DN (R73, R75): p, inc < 0 and pwc. -/
  | pulseEdgeDn (p inc pwc : F32)
  /-- TRI_FOLD_UP (R76, R78): p and inc >= 0. -/
  | triFoldUp (p inc : F32)
  /-- TRI_FOLD_DN (R76, R79): p and inc < 0. -/
  | triFoldDn (p inc : F32)
  /-- RESET (44_sample_step_and_reset.md R123). -/
  | reset
  deriving DecidableEq, Repr

/-- What stands at the block's input. `command` is the spec's input frame CTRL, INC, PW, RST (30_encoding.md R51).
`transition` is the model's own: one EV bit and the operand words of the transition it names, so that a row of the EV part of
the opcode table can be run alone; the hardware's host has no such frame (log entry 10). -/
inductive Frame where
  | command (ctrl inc pw rst : Word)
  | transition (ev : EvWord) (a b c : Word)
  deriving DecidableEq, Repr

/-- The frames of the spec's host interface (30_encoding.md R51). -/
def Frame.isCommand : Frame → Bool
  | .command _ _ _ _ => true
  | .transition _ _ _ _ => false

end Sys2Proof
end

