-- ==== Sys2Proof/Machine/State.lean ====
section
/-! DEFINITION. The state of the block: exactly the fields of 10_state.md R13 with the marks of R29 and the index of R33, and
the model's own `work` and `input` (log entries 7 and 11). State.reset is the power-on state of R34. -/

namespace Sys2Proof.Machine

/-- The four delay buffers (10_state.md R20, R21). -/
inductive Buf where
  | saw
  | sq
  | tri
  | pw
  deriving DecidableEq, Repr

/-- The three corrected waveforms (10_state.md R20, R22). -/
inductive Wave where
  | saw
  | sq
  | tri
  deriving DecidableEq, Repr

/-- One 4-slot delay buffer; s0 is the oldest, about-to-be-emitted sample (43_delay_line.md R112). -/
structure Line where
  s0 : F32
  s1 : F32
  s2 : F32
  s3 : F32
  deriving DecidableEq, Repr

/-- `buf[X][0..3]` for the four buffers (10_state.md R20, R21). -/
structure Lines where
  saw : Line
  sq  : Line
  tri : Line
  pw  : Line
  deriving DecidableEq, Repr

/-- A pending correction record (10_state.md R22). -/
structure Pending where
  active : Bool
  d      : F32
  u      : F32
  deriving DecidableEq, Repr

/-- One record per corrected waveform. -/
structure Records where
  saw : Pending
  sq  : Pending
  tri : Pending
  deriving DecidableEq, Repr

/-- The output registers, volts (10_state.md R25). -/
structure Outputs where
  saw : F32
  sq  : F32
  tri : F32
  sin : F32
  deriving DecidableEq, Repr

/-- The working variables of the TICK in progress: np[X] and ev (44_sample_step_and_reset.md R120 step 2). The model's own
field; idle between TICKs (log entry 11). -/
structure Work where
  np : Records
  ev : EvWord
  deriving DecidableEq, Repr

/-- The info of an InputFault (60_exceptions.md R134): cause 1; word 1 (INC), 2 (PW) or 3 (RST); the word's bits. -/
structure FaultInfo where
  cause : Nat
  word  : Nat
  bits  : Word
  deriving DecidableEq, Repr

/-- An inactive record holds d = +0.0 and u = +0.0 (10_state.md R22). -/
def Pending.inactive : Pending := { active := false, d := 0, u := 0 }

/-- All records inactive. -/
def Records.inactive : Records := { saw := .inactive, sq := .inactive, tri := .inactive }

/-- The working variables as a TICK starts them (R120 step 2). -/
def Work.idle : Work := { np := .inactive, ev := 0 }

/-- Four slots of +0.0. -/
def Line.zero : Line := { s0 := 0, s1 := 0, s2 := 0, s3 := 0 }

/-- The state of the block (10_state.md R13, R29, R33) and the model's own `work` and `input`. -/
structure State where
  /-- R14. -/
  phase      : F32
  /-- R15: written by every TICK, read by no rule. -/
  prevPhase  : F32
  /-- R16. -/
  squareHigh : Bool
  /-- R17. -/
  triRising  : Bool
  /-- R18. -/
  halfHigh   : Bool
  /-- R19. -/
  subParity  : Bool
  /-- R20, R21. -/
  buf        : Lines
  /-- R22. -/
  pend       : Records
  /-- R23. -/
  trigHigh   : Bool
  /-- R24. -/
  resetArmed : Bool
  /-- R25. -/
  out        : Outputs
  /-- R26. -/
  ev         : EvWord
  /-- The sample index of R33. -/
  n          : Nat
  /-- The fault mark of R29 with the info of R134; `none` is mark 0. -/
  fault      : Option FaultInfo
  /-- The refused mark of R29. -/
  refused    : Bool
  /-- The model's own: the working variables of the TICK in progress (log entry 11). -/
  work       : Work
  /-- The model's own: the frames the host has presented and the block has not taken, oldest first (log entry 7). -/
  input      : List Frame
  deriving DecidableEq, Repr

/-- Why the machine stops with a fault. -/
inductive Fault where
  /-- Raised by `step` in a state whose fault mark is set: no later command runs (60_exceptions.md R135). The TICK that
  raises InputFault itself answers a next state with the mark set (R134). Safe: the machine stops where the spec says it does. -/
  | inputFault (info : FaultInfo)
  deriving DecidableEq, Repr

/-- Why the machine has no meaning for what it meets. -/
inductive Refusal where
  /-- Raised by `exec` for an instruction that has no meaning yet; none is left. Safe. -/
  | notModelled (mnemonic : String)
  /-- Raised by `step` in a state whose refused mark is set: a refused model does not resume (60_exceptions.md R136, R141).
  The reserved command itself answers a next state with the mark set. Safe: the machine stops where the spec says it does. -/
  | reservedEncoding
  /-- Raised by `step` for the model's own transition frame when its EV word is not exactly one bit (log entry 13). Safe: no
  frame of the spec's host interface raises it. -/
  | notOneTransition (ev : EvWord)
  deriving DecidableEq, Repr

/-- Power-on (10_state.md R34, 70_reset_and_hazards.md R148). `out` and `ev` are unspecified there and hold 0 here by
DESIGN CHOICE, unsafe (log entry 1). -/
def State.reset : State where
  phase      := 0
  prevPhase  := 0
  squareHigh := true
  triRising  := true
  halfHigh   := false
  subParity  := false
  buf        := { saw := .zero, sq := .zero, tri := .zero, pw := .zero }
  pend       := .inactive
  trigHigh   := false
  resetArmed := false
  out        := { saw := 0, sq := 0, tri := 0, sin := 0 }
  ev         := 0
  n          := 0
  fault      := none
  refused    := false
  work       := .idle
  input      := []

end Sys2Proof.Machine
end

