-- ==== Sys2Proof/Machine/Operands.lean ====
section
/-! DEFINITION. Operand assembly and conditioning (30_encoding.md R59, 40_phase_accumulator.md R65), the width w
(43_delay_line.md R114), and the operand conditions the transitions state. -/

namespace Sys2Proof.Machine

/-- The operands of a TICK after conditioning (R59). -/
structure TickOperands where
  inc : F32
  pwc : F32
  w   : F32
  rst : F32
  deriving DecidableEq, Repr

/-- INPUT_CONDITION for the increment (R65). -/
def conditionInc (inc : F32) : F32 := fclamp inc (fneg half) half

/-- INPUT_CONDITION for the pulse width (R65). -/
def conditionPw (pw : F32) : F32 := fclamp pw posZero one

/-- `w = 2 * pwc - 1` (R114). -/
def bipolarWidth (pwc : F32) : F32 := fsub (fmul two pwc) one

/-- Step 2 of R120. -/
def tickOperands (inc pw rst : F32) : TickOperands :=
  { inc := conditionInc inc, pwc := conditionPw pw, w := bipolarWidth (conditionPw pw), rst := rst }

/-- The operand check of R120 step 1: the info of the first word of INC, PW, RST that is not finite, in that order
(60_exceptions.md R134). -/
def operandFault (inc pw rst : F32) : Option FaultInfo :=
  if !isFinite inc then some { cause := 1, word := 1, bits := inc }
  else if !isFinite pw then some { cause := 1, word := 2, bits := pw }
  else if !isFinite rst then some { cause := 1, word := 3, bits := rst }
  else none

/-- A conditioned increment: -0.5 <= inc <= 0.5 (R65). -/
def incConditioned (inc : F32) : Bool := within (fneg half) inc half

/-- A conditioned pulse width: 0 <= pwc <= 1 (R65). -/
def widthConditioned (pwc : F32) : Bool := within posZero pwc one

/-- A phase after a wrap: 0 <= p < 1 (10_state.md R31). -/
def phaseContained (p : F32) : Bool := withinBelow posZero p one

/-- The operands R66 states for ADVANCE. -/
def advanceTaken (inc pwc : F32) : Bool := incConditioned inc && widthConditioned pwc

/-- R67: taken when q >= 1, which requires inc > 0; the largest q is 1.5. -/
def wrapUpTaken (q inc : F32) : Bool := within one q oneAndHalf && incConditioned inc && fgt inc posZero

/-- R68: taken when q < 0, which requires inc < 0; the least q is -0.5 (R71). -/
def wrapDnTaken (q inc : F32) : Bool := withinBelow (fneg half) q posZero && incConditioned inc && flt inc posZero

/-- R74: the operands p, inc >= 0 and pwc. -/
def pulseEdgeUpTaken (p inc pwc : F32) : Bool :=
  phaseContained p && incConditioned inc && fge inc posZero && widthConditioned pwc

/-- R75: the operands p, inc < 0 and pwc. -/
def pulseEdgeDnTaken (p inc pwc : F32) : Bool :=
  phaseContained p && incConditioned inc && flt inc posZero && widthConditioned pwc

/-- R78: the operands p and inc >= 0. -/
def triFoldUpTaken (p inc : F32) : Bool := phaseContained p && incConditioned inc && fge inc posZero

/-- R79: the operands p and inc < 0. -/
def triFoldDnTaken (p inc : F32) : Bool := phaseContained p && incConditioned inc && flt inc posZero

end Sys2Proof.Machine
end

