-- ==== Sys2Proof/Decode.lean ====
section
/-! DEFINITION. Decoding a frame, or the bytes of one, into an instruction (30_encoding.md R52, R53, R60, R61, R62), total and
rejecting by name; and the encoder from the same tables (R63). The frames of the transitions are the model's own (log entry 10). -/

namespace Sys2Proof

/-- Why a frame is no instruction. -/
inductive DecodeError where
  /-- A CTRL word with CMD 0b00 or 0b01 and bits 31:6 not all 0 (30_encoding.md R60, R61). -/
  | reservedField (ctrl : Word)
  /-- An EV word that is not exactly one bit names no single transition (log entry 13). -/
  | notOneTransition (ev : EvWord)
  /-- Fewer bytes than a frame has (R62 knows no other length). -/
  | truncated
  deriving DecidableEq, Repr

/-- The two kinds of frame, told apart by where they arrive, not by their bits (log entry 10). -/
inductive Port where
  | command
  | transition
  deriving DecidableEq, Repr

/-- CMD, bits 1:0 (R52). -/
def ctrlCmd (ctrl : Word) : BitVec 2 := ctrl.extractLsb' 0 2

/-- The connection bits, 5:2 (R52). -/
def ctrlConn (ctrl : Word) : Conn :=
  { saw := ctrl.getLsbD 2, sq := ctrl.getLsbD 3, tri := ctrl.getLsbD 4, sin := ctrl.getLsbD 5 }

/-- The reserved field, bits 31:6 (R52). -/
def ctrlReserved (ctrl : Word) : BitVec 26 := ctrl.extractLsb' 6 26

/-- The bits above CMD, 31:2. -/
def ctrlUpper (ctrl : Word) : BitVec 30 := ctrl.extractLsb' 2 30

/-- The command of an input frame (R53, R60). -/
def decodeCommand (ctrl inc pw rst : Word) : Except DecodeError Instr :=
  if ctrlCmd ctrl = 2#2 then .ok (.rsvdCmd2 (ctrlUpper ctrl))
  else if ctrlCmd ctrl = 3#2 then .ok (.rsvdCmd3 (ctrlUpper ctrl))
  else if ctrlReserved ctrl ≠ 0#26 then .error (.reservedField ctrl)
  else if ctrlCmd ctrl = 0#2 then .ok (.nop (ctrlConn ctrl))
  else .ok (.tick (ctrlConn ctrl) inc pw rst)

/-- The transition an EV word of exactly one bit names (R58, R60), with its operand words; words it does not use are
not read. -/
def decodeTransition (ev : EvWord) (a b c : Word) : Except DecodeError Instr :=
  if ev = 0x01#8 then .ok (.advance a b)
  else if ev = 0x02#8 then .ok (.wrapUp a b)
  else if ev = 0x04#8 then .ok (.wrapDn a b)
  else if ev = 0x08#8 then .ok (.pulseEdgeUp a b c)
  else if ev = 0x10#8 then .ok (.pulseEdgeDn a b c)
  else if ev = 0x20#8 then .ok (.triFoldUp a b)
  else if ev = 0x40#8 then .ok (.triFoldDn a b)
  else if ev = 0x80#8 then .ok .reset
  else .error (.notOneTransition ev)

/-- The instruction a frame holds. -/
def decodeFrame : Frame → Except DecodeError Instr
  | .command ctrl inc pw rst => decodeCommand ctrl inc pw rst
  | .transition ev a b c => decodeTransition ev a b c

/-- The first word of a list of bytes, least significant byte first (20_memory.md R39). -/
def takeWord : List Byte → Option (Word × List Byte)
  | b0 :: b1 :: b2 :: b3 :: rest => some (b3 ++ b2 ++ b1 ++ b0, rest)
  | _ => none

/-- Three words. -/
def takeThree (bs : List Byte) : Option (Word × Word × Word × List Byte) :=
  match takeWord bs with
  | none => none
  | some (a, bs1) =>
    match takeWord bs1 with
    | none => none
    | some (b, bs2) =>
      match takeWord bs2 with
      | none => none
      | some (c, rest) => some (a, b, c, rest)

/-- The first frame of a list of bytes: four words for a command (R62), the EV byte and three words for a transition. -/
def frameOfBytes : Port → List Byte → Option (Frame × List Byte)
  | .command, bs =>
    match takeWord bs with
    | none => none
    | some (ctrl, bs1) =>
      match takeThree bs1 with
      | none => none
      | some (inc, pw, rst, rest) => some (.command ctrl inc pw rst, rest)
  | .transition, [] => none
  | .transition, ev :: bs =>
    match takeThree bs with
    | none => none
    | some (a, b, c, rest) => some (.transition ev a b c, rest)

/-- The first instruction of a list of bytes, with the bytes after it. -/
def decodeBytes (port : Port) (bs : List Byte) : Except DecodeError (Instr × List Byte) :=
  match frameOfBytes port bs with
  | none => .error .truncated
  | some (f, rest) =>
    match decodeFrame f with
    | .ok i => .ok (i, rest)
    | .error e => .error e

/-- A CTRL word from the bits above CMD and CMD. -/
def ctrlOfUpper (upper : BitVec 30) (cmd : BitVec 2) : Word := upper ++ cmd

/-- CTRL = 26 zeros, CONN[3:0], CMD (R120, R121). -/
def ctrlOfConn (conn : Conn) (cmd : BitVec 2) : Word :=
  0#26 ++ BitVec.ofBool conn.sin ++ BitVec.ofBool conn.tri ++ BitVec.ofBool conn.sq ++ BitVec.ofBool conn.saw ++ cmd

/-- The frame of an instruction (R63); words an instruction has no operand for are written as 0. -/
def encode : Instr → Frame
  | .nop conn => .command (ctrlOfConn conn 0#2) 0 0 0
  | .tick conn inc pw rst => .command (ctrlOfConn conn 1#2) inc pw rst
  | .rsvdCmd2 upper => .command (ctrlOfUpper upper 2#2) 0 0 0
  | .rsvdCmd3 upper => .command (ctrlOfUpper upper 3#2) 0 0 0
  | .advance inc pwc => .transition 0x01#8 inc pwc 0
  | .wrapUp q inc => .transition 0x02#8 q inc 0
  | .wrapDn q inc => .transition 0x04#8 q inc 0
  | .pulseEdgeUp p inc pwc => .transition 0x08#8 p inc pwc
  | .pulseEdgeDn p inc pwc => .transition 0x10#8 p inc pwc
  | .triFoldUp p inc => .transition 0x20#8 p inc 0
  | .triFoldDn p inc => .transition 0x40#8 p inc 0
  | .reset => .transition 0x80#8 0 0 0

/-- The bytes of a word, least significant first (20_memory.md R39). -/
def wordBytes (w : Word) : List Byte := [w.extractLsb' 0 8, w.extractLsb' 8 8, w.extractLsb' 16 8, w.extractLsb' 24 8]

/-- The bytes of a frame. -/
def frameBytes : Frame → List Byte
  | .command ctrl inc pw rst => wordBytes ctrl ++ wordBytes inc ++ wordBytes pw ++ wordBytes rst
  | .transition ev a b c => ev :: (wordBytes a ++ wordBytes b ++ wordBytes c)

/-- The port a frame arrives at. -/
def framePort : Frame → Port
  | .command _ _ _ _ => .command
  | .transition _ _ _ _ => .transition

/-- The bytes of an instruction, which arrive at the port of its frame. -/
def encodeBytes (i : Instr) : List Byte := frameBytes (encode i)

/-- The low bytes of a number, least significant first. -/
def natBytes : Nat → Nat → List Byte
  | 0, _ => []
  | k + 1, v => BitVec.ofNat 8 v :: natBytes k (v / 256)

/-- The part of the opcode table an nbits-wide word belongs to (log entry 14): a word of at most 8 bits that is exactly one
event bit is an EV word; any other word is a CTRL word, its missing bits 0. -/
def tablePort (nbits w : Nat) : Port :=
  if nbits ≤ 8 ∧ w % 2 ^ nbits ∈ [1, 2, 4, 8, 16, 32, 64, 128] then .transition else .command

/-- The bytes of the instruction whose bits are w in the table's numbering, every bit above nbits 0. -/
def tableBytes (nbits w : Nat) : List Byte :=
  natBytes (match tablePort nbits w with | .command => 16 | .transition => 13) (w % 2 ^ nbits)

/-- The frame of those bytes. -/
def tableFrame (nbits w : Nat) : Option Frame := (frameOfBytes (tablePort nbits w) (tableBytes nbits w)).map (·.1)

/-- What the decoder reads from an instruction whose bits are w, numbered as spec/opcode_table.json numbers them. -/
def decodeTableWord (nbits w : Nat) : Option Instr :=
  match decodeBytes (tablePort nbits w) (tableBytes nbits w) with
  | .ok (i, _) => some i
  | .error _ => none

end Sys2Proof
end

