-- ==== Sys2Proof/Machine/Ops.lean ====
section
/-! DEFINITION. The named operations over the state: the buffer primitives (00_scope.md R10), the pending records, the working
variables of a TICK, taking an exception, refusing, the output frame, and what a step does around `exec`. -/

namespace Sys2Proof.Machine

/-- Slot k of a buffer. -/
def slotRead (l : Line) (k : Fin 4) : F32 :=
  match k with
  | 0 => l.s0
  | 1 => l.s1
  | 2 => l.s2
  | 3 => l.s3

/-- A buffer with slot k replaced. -/
def slotWrite (l : Line) (k : Fin 4) (v : F32) : Line :=
  match k with
  | 0 => { l with s0 := v }
  | 1 => { l with s1 := v }
  | 2 => { l with s2 := v }
  | 3 => { l with s3 := v }

/-- `buf[X]`. -/
def lineOf (b : Buf) (s : State) : Line :=
  match b with
  | .saw => s.buf.saw
  | .sq => s.buf.sq
  | .tri => s.buf.tri
  | .pw => s.buf.pw

/-- The state with `buf[X]` replaced. -/
def setLine (b : Buf) (l : Line) (s : State) : State :=
  match b with
  | .saw => { s with buf := { s.buf with saw := l } }
  | .sq => { s with buf := { s.buf with sq := l } }
  | .tri => { s with buf := { s.buf with tri := l } }
  | .pw => { s with buf := { s.buf with pw := l } }

/-- `BufRead(X, k)` (R10). -/
def bufRead (b : Buf) (k : Fin 4) (s : State) : F32 := slotRead (lineOf b s) k

/-- `BufWrite(X, k, v)` (R10). -/
def bufWrite (b : Buf) (k : Fin 4) (v : F32) (s : State) : State := setLine b (slotWrite (lineOf b s) k v) s

/-- The buffer of a corrected waveform (10_state.md R20). -/
def waveBuf : Wave → Buf
  | .saw => .saw
  | .sq => .sq
  | .tri => .tri

/-- The record of waveform X. -/
def recordOf (w : Wave) (r : Records) : Pending :=
  match w with
  | .saw => r.saw
  | .sq => r.sq
  | .tri => r.tri

/-- `np[X] <- r` (41_correction_injector.md R87). -/
def noteRecord (w : Wave) (r : Pending) (s : State) : State :=
  match w with
  | .saw => { s with work := { s.work with np := { s.work.np with saw := r } } }
  | .sq => { s with work := { s.work with np := { s.work.np with sq := r } } }
  | .tri => { s with work := { s.work with np := { s.work.np with tri := r } } }

/-- `ev.<bit> <- 1` in the event word under construction (44_sample_step_and_reset.md R126). -/
def noteEvent (bit : EvWord) (s : State) : State := { s with work := { s.work with ev := s.work.ev ||| bit } }

/-- R120 step 2: np inactive, ev 0. -/
def beginTick (s : State) : State := { s with work := .idle }

/-- R120 step 7: `st.pend[X] <- np[X]` for the three waveforms. -/
def installPending (s : State) : State := { s with pend := s.work.np }

/-- The end of R120: `st.ev <- ev`, `n <- n + 1`; the working variables go out of scope. -/
def finishTick (s : State) : State := { s with ev := s.work.ev, n := s.n + 1, work := .idle }

/-- TAKING THE ONE EXCEPTION, `raise InputFault(info)` (60_exceptions.md R134): the fault mark is set, with its info, and
nothing else is written. No register is saved, no mode changes and no vector exists (R140); there is no return (R141). -/
def raiseInputFault (info : FaultInfo) (s : State) : State := { s with fault := some info }

/-- `refuse ReservedEncoding` (R136): the refused mark is set and nothing else is written. -/
def refuse (s : State) : State := { s with refused := true }

/-- A model whose fault or refused mark is set runs no later command (R135, R136, R141; log entries 8 and 9). -/
def halted (s : State) : Option (Host.Outcome State Fault Refusal) :=
  match s.fault with
  | some info => some (.fault (.inputFault info))
  | none => if s.refused then some (.refused .reservedEncoding) else none

/-- What a frame that is no instruction does: a CTRL word that matches no row is refused (30_encoding.md R61,
44_sample_step_and_reset.md R122); the model's own transition frame stops by name (log entry 13). -/
def rejectFrame (e : DecodeError) (s : State) : Host.Outcome State Fault Refusal :=
  match e with
  | .reservedField _ => .next (refuse s)
  | .truncated => .next (refuse s)
  | .notOneTransition ev => .refused (.notOneTransition ev)

/-- The output frame SAW, SQ, TRI, SIN, EV (30_encoding.md R51, R57): EV is `zext_32(ev)`. -/
def outputFrame (s : State) : List Word := [s.out.saw, s.out.sq, s.out.tri, s.out.sin, s.ev.zeroExtend 32]

end Sys2Proof.Machine
end

