-- ==== Sys2Proof/Machine/Accumulator.lean ====
section
/-! DEFINITION. The phase accumulator and edge detector (40_phase_accumulator.md): the crossing fraction, the thresholds, and
the transitions ADVANCE, WRAP_UP, WRAP_DN, PULSE_EDGE_UP, PULSE_EDGE_DN, TRI_FOLD_UP, TRI_FOLD_DN. A transition run alone is
taken when its operands are the ones its rule states, and else changes nothing (log entry 12). -/

namespace Sys2Proof.Machine

/-- CROSS (R81). -/
def cross (p t inc : F32) : F32 :=
  if feq inc posZero then half else fclamp (fsub one (fdiv (fsub p t) inc)) posZero one

/-- PULSE_T (R72); at inc = 0 any value, which CROSS does not read (log entry 6). -/
def pulseT (nh : Bool) (inc pwc : F32) : F32 :=
  if fgt inc posZero then (if nh then posZero else pwc)
  else if flt inc posZero then (if nh then pwc else one)
  else Config.pulseTAtRest

/-- TRI_T (R77). -/
def triT (p inc : F32) : F32 :=
  if fgt inc posZero then
    (if fge p threeQuarters then threeQuarters else if fge p quarter then quarter else fneg quarter)
  else (if flt p quarter then quarter else if flt p threeQuarters then threeQuarters else oneAndQuarter)

/-- The square magnitude: -2 for a rising edge, +2 for a falling one (R73; 41_correction_injector.md R94). -/
def squareMagnitude (nh : Bool) : F32 := if nh then fneg two else two

/-- The triangle magnitude: `(if nr then 4 else -4) * inc` (R76; 41_correction_injector.md R95). -/
def triMagnitude (nr : Bool) (inc : F32) : F32 := fmul (if nr then four else fneg four) inc

/-- The phase after WRAP_UP: `q - 1` (R67). -/
def wrapUpPhase (q : F32) : F32 := fsub q one

/-- The phase after WRAP_DN: `q + 1`, or the largest binary32 below 1 where that rounds to 1 (R68). -/
def wrapDnPhase (q : F32) : F32 :=
  let p := fadd q one
  if fge p one then 0x3F7FFFFF#32 else p

/-- WRAP_UP (R67, R70). -/
def wrapUp (q inc : F32) (s : State) : State :=
  let p := wrapUpPhase q
  let s := noteRecord .saw { active := true, d := cross p posZero inc, u := one } s
  noteEvent evWrapUp { s with phase := p, subParity := !s.subParity }

/-- WRAP_DN (R68, R70). -/
def wrapDn (q inc : F32) (s : State) : State :=
  let p := wrapDnPhase q
  let s := noteRecord .saw { active := true, d := cross p one inc, u := fneg one } s
  noteEvent evWrapDn { s with phase := p, subParity := !s.subParity }

/-- PULSE_CLASSIFY (R73): a change of the square state is a pulse edge, tagged by the direction of phase motion. -/
def pulseClassify (p inc pwc : F32) (s : State) : State :=
  let nh := squareHighAt p pwc
  let s' :=
    if nh != s.squareHigh then
      noteEvent (if flt inc posZero then evPeDn else evPeUp)
        (noteRecord .sq { active := true, d := cross p (pulseT nh inc pwc) inc, u := squareMagnitude nh } s)
    else s
  { s' with squareHigh := nh }

/-- TRI_CLASSIFY (R76): a change of the triangle direction is a fold, tagged by the direction of phase motion. -/
def triClassify (p inc : F32) (s : State) : State :=
  let nr := triRisingAt p
  let s' :=
    if nr != s.triRising then
      noteEvent (if flt inc posZero then evTfDn else evTfUp)
        (noteRecord .tri { active := true, d := cross p (triT p inc) inc, u := triMagnitude nr inc } s)
    else s
  { s' with triRising := nr }

/-- HALF (R80). -/
def halfClassify (p : F32) (s : State) : State := { s with halfHigh := halfHighAt p }

/-- The wrap decision of R66 on q. -/
def wrapPhase (q inc : F32) (s : State) : State :=
  if fge q one then wrapUp q inc s
  else if flt q posZero then wrapDn q inc s
  else { s with phase := q }

/-- ADVANCE (R66, R69). -/
def advance (inc pwc : F32) (s : State) : State :=
  let p0 := s.phase
  let s := { wrapPhase (fadd p0 inc) inc s with prevPhase := p0 }
  let p := s.phase
  noteEvent evAdv (halfClassify p (triClassify p inc (pulseClassify p inc pwc s)))

/-- ADVANCE (R66). -/
def execAdvance (inc pwc : F32) (s : State) : Host.Outcome State Fault Refusal :=
  .next (if advanceTaken inc pwc then advance inc pwc s else s)

/-- WRAP_UP (R67): taken when q >= 1. -/
def execWrapUp (q inc : F32) (s : State) : Host.Outcome State Fault Refusal :=
  .next (if wrapUpTaken q inc then wrapUp q inc s else s)

/-- WRAP_DN (R68): taken when q < 0. -/
def execWrapDn (q inc : F32) (s : State) : Host.Outcome State Fault Refusal :=
  .next (if wrapDnTaken q inc then wrapDn q inc s else s)

/-- PULSE_EDGE_UP (R74): R73 with inc >= 0. -/
def execPulseEdgeUp (p inc pwc : F32) (s : State) : Host.Outcome State Fault Refusal :=
  .next (if pulseEdgeUpTaken p inc pwc then pulseClassify p inc pwc s else s)

/-- PULSE_EDGE_DN (R75): R73 with inc < 0. -/
def execPulseEdgeDn (p inc pwc : F32) (s : State) : Host.Outcome State Fault Refusal :=
  .next (if pulseEdgeDnTaken p inc pwc then pulseClassify p inc pwc s else s)

/-- TRI_FOLD_UP (R78): R76 with inc >= 0. -/
def execTriFoldUp (p inc : F32) (s : State) : Host.Outcome State Fault Refusal :=
  .next (if triFoldUpTaken p inc then triClassify p inc s else s)

/-- TRI_FOLD_DN (R79): R76 with inc < 0. -/
def execTriFoldDn (p inc : F32) (s : State) : Host.Outcome State Fault Refusal :=
  .next (if triFoldDnTaken p inc then triClassify p inc s else s)

end Sys2Proof.Machine
end

