-- ==== Sys2Proof/Machine/DelayLine.lean ====
section
/-! DEFINITION. The polynomial anti-aliasing delay line (43_delay_line.md): SHIFT_APPEND. PW_TRACK (R114) is
`bipolarWidth` in Sys2Proof/Machine/Operands.lean; EMIT (R115) is in Sys2Proof/Machine/Waveform.lean. -/

namespace Sys2Proof.Machine

/-- SHIFT_APPEND (R113): slots 1 to 3 move down bit for bit, and the raw value is appended at slot 3. -/
def shiftAppend (b : Buf) (raw : F32) (s : State) : State :=
  let s := bufWrite b 0 (bufRead b 1 s) s
  let s := bufWrite b 1 (bufRead b 2 s) s
  let s := bufWrite b 2 (bufRead b 3 s) s
  bufWrite b 3 raw s

end Sys2Proof.Machine
end

