-- ==== Sys2Proof/Machine/Injector.lean ====
section
/-! DEFINITION. The band-limited correction injector (41_correction_injector.md): the step kernel, the ramp kernel and
INJECT. -/

namespace Sys2Proof.Machine

/-- K(1/24), K(1/3), K(2/3), 0.125 (R88); K(7/30), K(1/120) and the divisors 3, 12, 24, 40, 120 (R91). -/
def k1over24 : F32 := 0x3D2AAAAB#32
def k1over3 : F32 := 0x3EAAAAAB#32
def k2over3 : F32 := 0x3F2AAAAB#32
def eighth : F32 := 0x3E000000#32
def k7over30 : F32 := 0x3E6EEEEF#32
def k1over120 : F32 := 0x3C088889#32
def three : F32 := 0x40400000#32
def twelve : F32 := 0x41400000#32
def twentyFour : F32 := 0x41C00000#32
def forty : F32 := 0x42200000#32
def hundredTwenty : F32 := 0x42F00000#32

/-- STEP_KERNEL (R88). -/
def stepKernel (d : F32) : Taps :=
  let d2 := fmul d d
  let d3 := fmul d d2
  let d4 := fmul d d3
  let a := fadd k1over24 (fdiv d2 four)
  let b := fdiv (fadd d d3) six
  { t3 := fmul k1over24 d4
    t2 := fsub (fadd a b) (fdiv d4 eight)
    t1 := fadd (fsub (fadd (fneg half) (fmul k2over3 d)) (fmul k1over3 d3)) (fmul eighth d4)
    t0 := fsub (fadd (fneg a) b) (fmul k1over24 d4) }

/-- The default RAMP_KERNEL (R91). -/
def rampKernelDefault (d : F32) : Taps :=
  let d2 := fmul d d
  let d3 := fmul d d2
  let d4 := fmul d d3
  let d5 := fmul d d4
  let e := fsub one d
  let e2 := fmul e e
  let e4 := fmul e2 e2
  let e5 := fmul e4 e
  { t0 := fdiv e5 hundredTwenty
    t1 := fadd (fsub (fadd (fsub k7over30 (fdiv d two)) (fdiv d2 three)) (fdiv d4 twelve)) (fdiv d5 forty)
    t2 := fsub (fadd (fadd (fadd (fadd k1over120 (fdiv d twentyFour)) (fdiv d2 twelve)) (fdiv d3 twelve))
            (fdiv d4 twentyFour)) (fdiv d5 forty)
    t3 := fdiv d5 hundredTwenty }

/-- The exact polynomials of the default (R91). -/
def rampPolynomialsDefault : RampPolynomials :=
  { q0 := { c0 := 1 / 120, c1 := -1 / 24, c2 := 1 / 12, c3 := -1 / 12, c4 := 1 / 24, c5 := -1 / 120 }
    q1 := { c0 := 7 / 30, c1 := -1 / 2, c2 := 1 / 3, c3 := 0, c4 := -1 / 12, c5 := 1 / 40 }
    q2 := { c0 := 1 / 120, c1 := 1 / 24, c2 := 1 / 12, c3 := 1 / 12, c4 := 1 / 24, c5 := -1 / 40 }
    q3 := { c0 := 0, c1 := 0, c2 := 0, c3 := 0, c4 := 0, c5 := 1 / 120 } }

/-- RAMP_KERNEL (R5, R91): the default, or the lawful replacement. -/
def rampKernel (P : Params) (d : F32) : Taps :=
  match P.ramp with
  | none => rampKernelDefault d
  | some k => k.taps d

/-- Kernel selection (R96). -/
def kernelOf (P : Params) (w : Wave) (d : F32) : Taps :=
  match w with
  | .saw => stepKernel d
  | .sq => stepKernel d
  | .tri => rampKernel P d

/-- `BufWrite(X, k, BufRead(X, k) + u * E)` (R97). -/
def injectTap (b : Buf) (k : Fin 4) (u e : F32) (s : State) : State := bufWrite b k (fadd (bufRead b k s) (fmul u e)) s

/-- INJECT (R97): an inactive record writes nothing. -/
def inject (P : Params) (w : Wave) (s : State) : State :=
  let r := recordOf w s.pend
  if r.active then
    let e := kernelOf P w r.d
    let b := waveBuf w
    injectTap b 3 r.u e.t3 (injectTap b 2 r.u e.t2 (injectTap b 1 r.u e.t1 (injectTap b 0 r.u e.t0 s)))
  else s

/-- Step 6 of R120. -/
def injectAll (P : Params) (s : State) : State := inject P .tri (inject P .sq (inject P .saw s))

end Sys2Proof.Machine
end

