-- ==== Sys2Proof/Machine/Waveform.lean ====
section
/-! DEFINITION. The waveform generator and output scaling (42_waveform_generator.md): the raw values, the sine and the four
output registers. -/

namespace Sys2Proof.Machine

/-- RAW_SQ (R103). -/
def rawSquare (sq : Bool) : F32 := if sq then one else fneg one

/-- RAW_TRI (R104). -/
def rawTriangle (p : F32) (tr hh : Bool) : F32 :=
  if tr then (if hh then fsub (fmul two p) oneAndHalf else fadd (fmul two p) half)
  else fsub oneAndHalf (fmul two p)

/-- Step 5 of R120: the raw values of the state after the transition (R102 to R104) and w (R114) are appended. -/
def shiftAll (w : F32) (s : State) : State :=
  let rawSaw := s.phase
  let rawSq := rawSquare s.squareHigh
  let rawTri := rawTriangle s.phase s.triRising s.halfHigh
  shiftAppend .pw w (shiftAppend .tri rawTri (shiftAppend .sq rawSq (shiftAppend .saw rawSaw s)))

/-- OUT_SAW and OUT_TRI: `clamp(10 * (v - 0.5), -5, 5)` (R105, R107). -/
def scaleUnipolar (v : F32) : F32 := fclamp (fmul ten (fsub v half)) (fneg five) five

/-- K(0.99) (R106). -/
def silenceLimit : F32 := 0x3F7D70A4#32

/-- The silence test of R106 on the width w. -/
def silentWidth (w : F32) : Bool := fge w silenceLimit || fle w (fneg silenceLimit)

/-- OUT_SQ (R106). -/
def squareOutput (P : Params) (v w : F32) : F32 := if silentWidth w then posZero else P.squareOut v w

/-- The sine parameter on [0, 0.5), held to R108's properties 1 and 3: 0 at 0, 1 at 0.25, elsewhere in [-1, 1]
(log entry 3). -/
def sineFirstHalf (f : F32 → F32) (p : F32) : F32 :=
  if feq p posZero then (if isZero (f p) then f p else posZero)
  else if feq p quarter then one
  else if within (fneg one) (f p) one then f p
  else posZero

/-- A function held to properties 1 to 3 of R108: on [0.5, 1) it is minus its value half a cycle earlier, where only the sign
of a zero stays the function's own. A function that has the properties is left as it is on [0, 1) (log entry 3). -/
def conformSine (f : F32 → F32) (p : F32) : F32 :=
  if withinBelow posZero p half then sineFirstHalf f p
  else if withinBelow half p one then
    let v := fneg (sineFirstHalf f (fsub p half))
    if feq (f p) v then f p else v
  else f p

/-- SINE_APPROX (R108). -/
def sineApprox (P : Params) (p : F32) : F32 := conformSine P.sine p

/-- OUT_SIN (R108): of the phase after this tick's transition, not delayed. -/
def sineOutput (P : Params) (p : F32) : F32 := fmul five (sineApprox P p)

/-- Step 8 of R120 (R105 to R108, 43_delay_line.md R115): every output, whatever the CONN bits say (R109). -/
def emitOutputs (P : Params) (s : State) : State :=
  { s with
    out :=
      { saw := scaleUnipolar (bufRead .saw 0 s)
        sq := squareOutput P (bufRead .sq 0 s) (bufRead .pw 0 s)
        tri := scaleUnipolar (bufRead .tri 0 s)
        sin := sineOutput P s.phase } }

end Sys2Proof.Machine
end

