-- ==== Sys2Proof/Machine/SampleStep.lean ====
section
/-! DEFINITION. The sample step (44_sample_step_and_reset.md): TICK, NOP, the reserved commands, the RESET transition and
the reset-trigger front-end. -/

namespace Sys2Proof.Machine

/-- RESET (R123). -/
def resetTransition (s : State) : State :=
  noteEvent evReset
    { s with
      prevPhase := s.phase
      phase := posZero
      squareHigh := true
      triRising := true
      halfHigh := false
      subParity := false }

/-- Step 3 of R120: RESET if it is armed, else ADVANCE. -/
def transition (op : TickOperands) (s : State) : State :=
  if s.resetArmed then resetTransition { s with resetArmed := false } else advance op.inc op.pwc s

/-- TRIGGER (R124). -/
def trigger (P : Params) (rst : F32) (s : State) : State :=
  let hi := fge rst P.resetThreshold
  { s with resetArmed := if hi && !s.trigHigh then true else s.resetArmed, trigHigh := hi }

/-- Steps 2 to 8 of R120, in the order R130 fixes. -/
def tick (P : Params) (op : TickOperands) (s : State) : State :=
  let s := transition op (beginTick s)
  let s := trigger P op.rst s
  let s := shiftAll op.w s
  let s := injectAll P s
  let s := installPending s
  let s := emitOutputs P s
  finishTick s

/-- TICK from its operand check on (R120, R134), for any parameters. -/
def runTick (P : Params) (inc pw rst : F32) (s : State) : State :=
  match operandFault inc pw rst with
  | some info => raiseInputFault info s
  | none => tick P (tickOperands inc pw rst) s

/-- TICK (R120). The CONN bits change nothing (R132). -/
def execTick (_conn : Conn) (inc pw rst : F32) (s : State) : Host.Outcome State Fault Refusal :=
  .next (runTick Config.params inc pw rst s)

/-- NOP (R121). -/
def execNop (_conn : Conn) (s : State) : Host.Outcome State Fault Refusal := .next s

/-- RSVD_CMD2 (R122): refused; the bits above CMD do not matter. -/
def execRsvdCmd2 (_upper : BitVec 30) (s : State) : Host.Outcome State Fault Refusal := .next (refuse s)

/-- RSVD_CMD3 (R122): refused; the bits above CMD do not matter. -/
def execRsvdCmd3 (_upper : BitVec 30) (s : State) : Host.Outcome State Fault Refusal := .next (refuse s)

/-- RESET (R123), the transition alone; that it is armed is TICK's condition (R120 step 3), not its own. -/
def execReset (s : State) : Host.Outcome State Fault Refusal := .next (resetTransition s)

end Sys2Proof.Machine
end

