-- ==== Sys2Proof/Machine/Dispatch.lean ====
section
/-! DEFINITION. One arm per instruction. -/

namespace Sys2Proof.Machine

def exec (i : Instr) (s : State) : Host.Outcome State Fault Refusal :=
  match i with
  | .nop conn => Sys2Proof.Machine.execNop conn s
  | .tick conn inc pw rst => Sys2Proof.Machine.execTick conn inc pw rst s
  | .rsvdCmd2 upper => Sys2Proof.Machine.execRsvdCmd2 upper s
  | .rsvdCmd3 upper => Sys2Proof.Machine.execRsvdCmd3 upper s
  | .advance inc pwc => Sys2Proof.Machine.execAdvance inc pwc s
  | .wrapUp q inc => Sys2Proof.Machine.execWrapUp q inc s
  | .wrapDn q inc => Sys2Proof.Machine.execWrapDn q inc s
  | .pulseEdgeUp p inc pwc => Sys2Proof.Machine.execPulseEdgeUp p inc pwc s
  | .pulseEdgeDn p inc pwc => Sys2Proof.Machine.execPulseEdgeDn p inc pwc s
  | .triFoldUp p inc => Sys2Proof.Machine.execTriFoldUp p inc s
  | .triFoldDn p inc => Sys2Proof.Machine.execTriFoldDn p inc s
  | .reset => Sys2Proof.Machine.execReset s

end Sys2Proof.Machine
end

