-- ==== Sys2Proof/Machine/Step.lean ====
section
/-! DEFINITION. One step: the oldest presented frame is taken and run (70_reset_and_hazards.md R149, R160). -/

namespace Sys2Proof.Machine

/-- A marked model runs nothing (60_exceptions.md R135, R136). With no frame presented the block holds its state (R147).
Else the oldest frame is taken, decoded and run. -/
def step (s : State) : Host.Outcome State Fault Refusal :=
  match halted s with
  | some stop => stop
  | none =>
    match s.input with
    | [] => .next s
    | f :: rest =>
      match decodeFrame f with
      | .ok i => exec i { s with input := rest }
      | .error e => rejectFrame e { s with input := rest }

/-- The host presents the instruction whose bits are w, in the opcode table's numbering, as the next frame
(log entries 7 and 14). -/
def State.withFetchWord (s : State) (nbits w : Nat) : State :=
  match tableFrame nbits w with
  | some f => { s with input := f :: s.input }
  | none => s

end Sys2Proof.Machine
end

