-- ==== Sys2Proof/Machine/Defaults.lean ====
section
/-! DEFINITION. The spec's defaults of the OPEN parameters (00_scope.md R5): `defaultParams`. The machine's own step does not
take them (it takes the uninterpreted Config.params, log entry 2); they are here so that the machine can be run against the
spec's vectors, which take the defaults (95_test_vectors.md). -/

namespace Sys2Proof.Machine

/-- floor(2 * pi * 2^400). -/
def twoPiScaled : Nat :=
  0x6487ed5110b4611a62633145c06e0e68948127044533e63a0105df531d89cd9128a5043cc71a026ef7ca8cd9e69d218d98158

/-- The Taylor terms of the sine from term x^(2k+1)/(2k+1)! on, alternating, in units of 2^-400. -/
def sineTerms : Nat → Nat → Nat → Nat → Int
  | 0, _, _, _ => 0
  | fuel + 1, k, xx, term =>
    (term : Int) - sineTerms fuel (k + 1) xx (term * xx / 2 ^ 400 / ((2 * k + 2) * (2 * k + 3)))

/-- The sine of r cycles, r in [0, 1/4] given in units of 2^-149, in units of 2^-400. -/
def sineScaled (r : Nat) : Nat :=
  let x := twoPiScaled * r / 2 ^ 149
  (sineTerms 60 0 (x * x / 2 ^ 400) x).toNat

/-- The default SINE_APPROX, K(sin(2 * pi * p)) (42_waveform_generator.md R108): the phase is folded exactly into [0, 1/4],
the sine is computed to 400 bits and rounded once (log entry 19). -/
def sineDefault (p : F32) : F32 :=
  let c := magnitude p % 2 ^ 149
  let h := c % 2 ^ 148
  let r := if h > 2 ^ 147 then 2 ^ 148 - h else h
  if r = 0 then posZero
  else pack (signBit p != decide (c ≥ 2 ^ 148)) (roundMag (sineScaled r) (2 ^ 251))

/-- The default SQUARE_OUT, `5 * (v - w)` (R106). -/
def squareOutDefault (v w : F32) : F32 := fmul five (fsub v w)

/-- The defaults of R5 at a reset threshold, which has none. -/
def defaultParams (threshold : F32) : Params :=
  { resetThreshold := threshold, sine := sineDefault, squareOut := squareOutDefault, ramp := none }

end Sys2Proof.Machine
end

