-- ==== Sys2Proof/Safety.lean ====
section
/-! DEFINITION. What counts as a safe state, in the terms the claims use: the launch predicate of 70_reset_and_hazards.md R151
and the invariants of 10_state.md R30, R31 and 41_correction_injector.md R100. -/

namespace Sys2Proof.Machine

/-- `fault = 0` and `refused = 0` (R151). -/
def marksClear (s : State) : Bool := s.fault.isNone && !s.refused

/-- Only frames of the spec's host interface are presented (30_encoding.md R51); log entry 10. -/
def commandsOnly (s : State) : Bool := s.input.all Frame.isCommand

/-- R31: `0 <= phase < 1`. -/
def phaseInRange (s : State) : Bool := phaseContained s.phase

/-- The phase is not -0.0 (and not negative). -/
def phaseSignClear (s : State) : Bool := !signBit s.phase

/-- R30, R151: triRising and halfHigh agree with the phase. -/
def flagsAgree (s : State) : Bool := s.triRising == triRisingAt s.phase && s.halfHigh == halfHighAt s.phase

/-- Every slot of a buffer is finite. -/
def lineFinite (l : Line) : Bool := isFinite l.s0 && isFinite l.s1 && isFinite l.s2 && isFinite l.s3

/-- A record has d in [0, 1] and a finite u. -/
def recordSound (r : Pending) : Bool := within posZero r.d one && isFinite r.u

/-- `ConsistentLaunch(st, pwc0)` (R151). -/
def consistentLaunch (s : State) (pwc0 : F32) : Bool :=
  marksClear s && phaseInRange s && flagsAgree s && s.squareHigh == flt s.phase pwc0 &&
  lineFinite s.buf.saw && lineFinite s.buf.sq && lineFinite s.buf.tri && lineFinite s.buf.pw &&
  recordSound s.pend.saw && recordSound s.pend.sq && recordSound s.pend.tri

/-- What the slots of a buffer may hold: a bound below and above for each slot. -/
structure SlotBounds where
  lo : Line
  hi : Line
  deriving DecidableEq, Repr

/-- The raw values lie in a range, and on its way from slot 3 to slot 0 a sample gathers corrections of at most 1/2, 7/4, 3 and
then 4 in all (41_correction_injector.md R100). Saw: raw in [0, 1] (42_waveform_generator.md R102). -/
def sawBounds : SlotBounds :=
  { lo := { s0 := 0xC0800000#32, s1 := 0xC0400000#32, s2 := 0xBFE00000#32, s3 := 0xBF000000#32 }
    hi := { s0 := 0x40A00000#32, s1 := 0x40800000#32, s2 := 0x40300000#32, s3 := 0x3FC00000#32 } }

/-- Square: raw -1 or 1 (R103). -/
def squareBounds : SlotBounds :=
  { lo := { s0 := 0xC0A00000#32, s1 := 0xC0800000#32, s2 := 0xC0300000#32, s3 := 0xBFC00000#32 }
    hi := { s0 := 0x40A00000#32, s1 := 0x40800000#32, s2 := 0x40300000#32, s3 := 0x3FC00000#32 } }

/-- Triangle: raw in [-1.5, 2.5], which flags that do not agree with the phase can reach (R104). -/
def triangleBounds : SlotBounds :=
  { lo := { s0 := 0xC0B00000#32, s1 := 0xC0900000#32, s2 := 0xC0500000#32, s3 := 0xC0000000#32 }
    hi := { s0 := 0x40D00000#32, s1 := 0x40B00000#32, s2 := 0x40880000#32, s3 := 0x40400000#32 } }

/-- Every slot is within its bounds. -/
def lineBounded (b : SlotBounds) (l : Line) : Bool :=
  within b.lo.s0 l.s0 b.hi.s0 && within b.lo.s1 l.s1 b.hi.s1 &&
  within b.lo.s2 l.s2 b.hi.s2 && within b.lo.s3 l.s3 b.hi.s3

/-- A value is finite and within 4 of a raw value (R100). -/
def withinFour (raw v : F32) : Prop := isFinite v = true ∧ (exactly raw - 4 ≤ exactly v ∧ exactly v ≤ exactly raw + 4)

/-- The slots of the width buffer are in [-1, 1] (43_delay_line.md R114). -/
def widthsBounded (l : Line) : Bool :=
  within (fneg one) l.s0 one && within (fneg one) l.s1 one && within (fneg one) l.s2 one && within (fneg one) l.s3 one

/-- A record has d in [0, 1] and |u| <= 2 (41_correction_injector.md R100). -/
def recordBounded (r : Pending) : Bool := within posZero r.d one && within (fneg two) r.u two

/-- Every record has d in [0, 1] and |u| <= 2. -/
def recordsBounded (r : Records) : Bool := recordBounded r.saw && recordBounded r.sq && recordBounded r.tri

/-- The numerical invariant of R100: phase, records and buffers. -/
def numbersBounded (s : State) : Bool :=
  phaseInRange s && recordsBounded s.pend &&
  lineBounded sawBounds s.buf.saw && lineBounded squareBounds s.buf.sq && lineBounded triangleBounds s.buf.tri && widthsBounded s.buf.pw

/-- A reset is armed only while the trigger level is high (44_sample_step_and_reset.md R129). -/
def armedOnlyHigh (s : State) : Bool := !s.resetArmed || s.trigHigh

end Sys2Proof.Machine
end

