-- ==== Sys2Proof/WellFormed.lean ====
section
/-! DEFINITION. Well-formed instructions. Every command is well formed: a non-finite word of a TICK is an InputFault, not an
ill-formed frame (30_encoding.md R61). A transition is well formed when its operands are ones the spec states for it. -/

namespace Sys2Proof

/-- The operands are as the instruction's rule states them (40_phase_accumulator.md R66, R67, R68, R74, R75, R78, R79). -/
def Instr.wellFormed : Instr → Bool
  | .nop _ => true
  | .tick _ _ _ _ => true
  | .rsvdCmd2 _ => true
  | .rsvdCmd3 _ => true
  | .advance inc pwc => Machine.advanceTaken inc pwc
  | .wrapUp q inc => Machine.wrapUpTaken q inc
  | .wrapDn q inc => Machine.wrapDnTaken q inc
  | .pulseEdgeUp p inc pwc => Machine.pulseEdgeUpTaken p inc pwc
  | .pulseEdgeDn p inc pwc => Machine.pulseEdgeDnTaken p inc pwc
  | .triFoldUp p inc => Machine.triFoldUpTaken p inc
  | .triFoldDn p inc => Machine.triFoldDnTaken p inc
  | .reset => true

end Sys2Proof
end

