-- ==== Sys2Proof/Certificates/Slice0/Obligations.lean ====
section
/-! DEFINITION. The statements for the provers. -/

open Sys2Proof Sys2Proof.Machine

/-! ### Stepping, decoding, encoding -/

/-- In an unmarked state, one step takes the oldest presented frame; where it decodes to an instruction i, the step is exec of i
on the state without that frame. -/
def Obligations.StepRunsDecodedInstruction : Prop :=
  ∀ (s : State) (f : Frame) (rest : List Frame) (i : Instr),
    s.fault = none → s.refused = false → s.input = f :: rest → decodeFrame f = .ok i →
      step s = exec i { s with input := rest }

/-- 60_exceptions.md R147 (that no frame presented is an idle step is the model's choice, log entry 7): with no command presented
the block holds its state, for any number of steps. -/
def Obligations.IdleBlockHoldsItsState : Prop :=
  ∀ (s : State) (k : Nat), s.fault = none → s.refused = false → s.input = [] → core.run k s = .next s

/-- 60_exceptions.md R135, R136, R141: a faulted or refused model runs no later command, whatever is presented. -/
def Obligations.MarkedModelRunsNoCommand : Prop :=
  (∀ (s : State) (info : FaultInfo), s.fault = some info → step s = .fault (.inputFault info)) ∧
  (∀ s : State, s.fault = none → s.refused = true → step s = .refused .reservedEncoding)

/-- 44_sample_step_and_reset.md R122: a CTRL word with CMD 0b10 or 0b11, or with bits 31:6 not all 0, sets the refused mark and
writes nothing else, whatever the data words hold; the state it leaves stops. -/
def Obligations.ReservedCtrlWordIsRefused : Prop :=
  ∀ (s : State) (ctrl inc pw rst : Word) (rest : List Frame),
    s.fault = none → s.refused = false → s.input = .command ctrl inc pw rst :: rest →
    (ctrl &&& 3#32 = 2#32 ∨ ctrl &&& 3#32 = 3#32 ∨ ctrl >>> 6 ≠ 0#32) →
      step s = .next { s with input := rest, refused := true } ∧
      step { s with input := rest, refused := true } = .refused .reservedEncoding

/-- R122: the two reserved commands, as instructions: the refused mark is set and nothing else is written. -/
def Obligations.ReservedCommandsSetTheRefusedMark : Prop :=
  ∀ (upper : BitVec 30) (s : State),
    exec (.rsvdCmd2 upper) s = .next { s with refused := true } ∧
    exec (.rsvdCmd3 upper) s = .next { s with refused := true }

/-- The bytes of every instruction, followed by any bytes, decode to that instruction and those bytes: no operand bit of an
encoding is dropped. -/
def Obligations.DecodeInvertsEncode : Prop :=
  ∀ (i : Instr) (rest : List Byte), decodeBytes (framePort (encode i)) (encodeBytes i ++ rest) = .ok (i, rest)

/-- 30_encoding.md R60: the CTRL or EV word of every encoding matches its row of the opcode map. That each transition is encoded
in a transition frame with an EV byte is the model's choice (log entry 10). -/
def Obligations.EncodingsMatchTheOpcodeMap : Prop :=
  ∀ i : Instr,
    match i, encode i with
    | .nop _, .command ctrl _ _ _ => ctrl &&& 0xFFFFFFC3#32 = 0x00000000#32
    | .tick _ _ _ _, .command ctrl _ _ _ => ctrl &&& 0xFFFFFFC3#32 = 0x00000001#32
    | .rsvdCmd2 _, .command ctrl _ _ _ => ctrl &&& 0x00000003#32 = 0x00000002#32
    | .rsvdCmd3 _, .command ctrl _ _ _ => ctrl &&& 0x00000003#32 = 0x00000003#32
    | .advance _ _, .transition ev _ _ _ => ev &&& 0x01#8 = 0x01#8
    | .wrapUp _ _, .transition ev _ _ _ => ev &&& 0x02#8 = 0x02#8
    | .wrapDn _ _, .transition ev _ _ _ => ev &&& 0x04#8 = 0x04#8
    | .pulseEdgeUp _ _ _, .transition ev _ _ _ => ev &&& 0x08#8 = 0x08#8
    | .pulseEdgeDn _ _ _, .transition ev _ _ _ => ev &&& 0x10#8 = 0x10#8
    | .triFoldUp _ _, .transition ev _ _ _ => ev &&& 0x20#8 = 0x20#8
    | .triFoldDn _ _, .transition ev _ _ _ => ev &&& 0x40#8 = 0x40#8
    | .reset, .transition ev _ _ _ => ev &&& 0x80#8 = 0x80#8
    | _, _ => False

/-- A command frame is read as one instruction only: what it decodes to encodes back to the same CTRL word, and for a TICK to
the same four words. -/
def Obligations.DecodedCommandKeepsItsWords : Prop :=
  ∀ (ctrl inc pw rst : Word) (i : Instr), decodeFrame (.command ctrl inc pw rst) = .ok i →
    (∃ a b c, encode i = .command ctrl a b c) ∧
    (ctrl &&& 3#32 = 1#32 → encode i = .command ctrl inc pw rst)

/-- Six command frames written out from 30_encoding.md R52, R53, R61 and R63, and one frame of the model's own for a transition,
with the EV bit of R58 (log entry 10), decode to what they stand for. -/
def Obligations.SpecWordsDecode : Prop :=
  decodeFrame (.command 0x0000003D#32 0x3DCCCCCD#32 0x3F000000#32 0x00000000#32) =
    .ok (.tick ⟨true, true, true, true⟩ 0x3DCCCCCD#32 0x3F000000#32 0#32) ∧
  decodeFrame (.command 0x00000009#32 0#32 0#32 0x40A00000#32) =
    .ok (.tick ⟨false, true, false, false⟩ 0#32 0#32 0x40A00000#32) ∧
  decodeFrame (.command 0x00000000#32 0x7FC00000#32 0#32 0#32) = .ok (.nop ⟨false, false, false, false⟩) ∧
  decodeFrame (.command 0x00000002#32 0x7FC00000#32 0#32 0#32) = .ok (.rsvdCmd2 0#30) ∧
  decodeFrame (.command 0x00000003#32 0#32 0#32 0#32) = .ok (.rsvdCmd3 0#30) ∧
  decodeFrame (.command 0x00000041#32 0#32 0#32 0#32) = .error (.reservedField 0x00000041#32) ∧
  decodeFrame (.transition 0x04#8 0xBDCCCCCD#32 0xBDCCCCCD#32 0#32) = .ok (.wrapDn 0xBDCCCCCD#32 0xBDCCCCCD#32)

/-- exec answers a next state for every instruction in every state: 70_reset_and_hazards.md R160 says so of TICK and NOP. For a
faulting TICK (log entry 8), the reserved commands (log entry 9) and the transitions run alone (log entries 10 and 12) it is the
model's choice. -/
def Obligations.EveryInstructionCompletesInOneStep : Prop :=
  ∀ (i : Instr) (s : State), ∃ t, exec i s = .next t

/-! ### NOP, faults, power-on -/

/-- 44_sample_step_and_reset.md R121: a NOP changes nothing, whatever its CONN bits and data words are. -/
def Obligations.NopChangesNothing : Prop :=
  (∀ (conn : Conn) (s : State), exec (.nop conn) s = .next s) ∧
  (∀ (s : State) (ctrl inc pw rst : Word) (rest : List Frame),
    s.fault = none → s.refused = false → s.input = .command ctrl inc pw rst :: rest → ctrl &&& 0xFFFFFFC3#32 = 0#32 →
      step s = .next { s with input := rest })

/-- 60_exceptions.md R134: a TICK whose INC, PW or RST word has exponent field 0xFF raises InputFault with the first such word
in that order, and writes nothing but the fault mark. -/
def Obligations.NonFiniteWordRaisesInputFault : Prop :=
  ∀ (conn : Conn) (inc pw rst : F32) (s : State),
    let infinite := fun x : F32 => x.extractLsb' 23 8 = 0xFF#8
    (infinite inc →
      exec (.tick conn inc pw rst) s = .next { s with fault := some { cause := 1, word := 1, bits := inc } }) ∧
    (¬ infinite inc → infinite pw →
      exec (.tick conn inc pw rst) s = .next { s with fault := some { cause := 1, word := 2, bits := pw } }) ∧
    (¬ infinite inc → ¬ infinite pw → infinite rst →
      exec (.tick conn inc pw rst) s = .next { s with fault := some { cause := 1, word := 3, bits := rst } })

/-- 10_state.md R34: the power-on values the spec gives (out and ev it leaves unspecified; they are not stated). -/
def Obligations.PowerOnState : Prop :=
  State.reset.phase = 0x00000000#32 ∧ State.reset.prevPhase = 0x00000000#32 ∧
  State.reset.squareHigh = true ∧ State.reset.triRising = true ∧
  State.reset.halfHigh = false ∧ State.reset.subParity = false ∧
  (∀ (b : Buf) (k : Fin 4), bufRead b k State.reset = 0x00000000#32) ∧
  (∀ w : Wave, recordOf w State.reset.pend = { active := false, d := 0x00000000#32, u := 0x00000000#32 }) ∧
  State.reset.trigHigh = false ∧ State.reset.resetArmed = false ∧
  State.reset.n = 0 ∧ State.reset.fault = none ∧ State.reset.refused = false

/-- The power-on state meets every invariant stated below, and ConsistentLaunch (70_reset_and_hazards.md R151) for every pulse
width above 0. -/
def Obligations.PowerOnMeetsTheInvariants : Prop :=
  numbersBounded State.reset = true ∧ phaseSignClear State.reset = true ∧ commandsOnly State.reset = true ∧
  flagsAgree State.reset = true ∧ armedOnlyHigh State.reset = true ∧
  (∀ pwc0 : F32, fgt pwc0 posZero = true → consistentLaunch State.reset pwc0 = true)

/-! ### TICK -/

/-- 40_phase_accumulator.md R67 to R70 and 41_correction_injector.md R93 in a TICK that does not take RESET: q = phase + inc
decides the wrap; the phase, prevPhase, subParity, the saw record and the two wrap bits follow. -/
def Obligations.AdvancingTickWraps : Prop :=
  ∀ (conn : Conn) (inc pw rst : F32) (s : State),
    isFinite inc = true → isFinite pw = true → isFinite rst = true → s.resetArmed = false →
    let i := fclamp inc (fneg half) half
    let q := fadd s.phase i
    ∃ t, exec (.tick conn inc pw rst) s = .next t ∧ t.prevPhase = s.phase ∧
      (fge q one = true →
        t.phase = fsub q one ∧ t.subParity = !s.subParity ∧
        t.pend.saw = { active := true, d := cross (fsub q one) posZero i, u := one } ∧
        t.ev &&& 0x06#8 = 0x02#8) ∧
      (fge q one = false → flt q posZero = true →
        t.phase = (if fge (fadd q one) one then 0x3F7FFFFF#32 else fadd q one) ∧ t.subParity = !s.subParity ∧
        t.pend.saw = { active := true, d := cross t.phase one i, u := fneg one } ∧
        t.ev &&& 0x06#8 = 0x04#8) ∧
      (fge q one = false → flt q posZero = false →
        t.phase = q ∧ t.subParity = s.subParity ∧
        t.pend.saw = { active := false, d := posZero, u := posZero } ∧
        t.ev &&& 0x06#8 = 0x00#8)

/-- R72 to R75 and 41_correction_injector.md R94 in a TICK that does not take RESET: squareHigh becomes phase < pwc; a change
is a pulse edge with its record and its direction bit, and no change leaves no record and no bit. -/
def Obligations.AdvancingTickDetectsPulseEdges : Prop :=
  ∀ (conn : Conn) (inc pw rst : F32) (s : State),
    isFinite inc = true → isFinite pw = true → isFinite rst = true → s.resetArmed = false →
    let i := fclamp inc (fneg half) half
    let pwc := fclamp pw posZero one
    ∃ t, exec (.tick conn inc pw rst) s = .next t ∧
      t.squareHigh = flt t.phase pwc ∧
      (t.squareHigh = s.squareHigh →
        t.pend.sq = { active := false, d := posZero, u := posZero } ∧ t.ev &&& 0x18#8 = 0x00#8) ∧
      (t.squareHigh ≠ s.squareHigh →
        t.pend.sq.active = true ∧ t.pend.sq.u = (if t.squareHigh then fneg two else two) ∧
        t.ev &&& 0x18#8 = (if flt i posZero then 0x10#8 else 0x08#8) ∧
        (fgt i posZero = true → t.pend.sq.d = cross t.phase (if t.squareHigh then posZero else pwc) i) ∧
        (flt i posZero = true → t.pend.sq.d = cross t.phase (if t.squareHigh then pwc else one) i) ∧
        (feq i posZero = true → t.pend.sq.d = half))

/-- R76 to R80 and 41_correction_injector.md R95 in a TICK that does not take RESET: triRising and halfHigh follow the phase; a
change of triRising is a fold with its record and its direction bit. -/
def Obligations.AdvancingTickDetectsFolds : Prop :=
  ∀ (conn : Conn) (inc pw rst : F32) (s : State),
    isFinite inc = true → isFinite pw = true → isFinite rst = true → s.resetArmed = false →
    let i := fclamp inc (fneg half) half
    ∃ t, exec (.tick conn inc pw rst) s = .next t ∧
      t.halfHigh = fge t.phase half ∧
      t.triRising = (flt t.phase quarter || fge t.phase threeQuarters) ∧
      (t.triRising = s.triRising →
        t.pend.tri = { active := false, d := posZero, u := posZero } ∧ t.ev &&& 0x60#8 = 0x00#8) ∧
      (t.triRising ≠ s.triRising →
        t.pend.tri.active = true ∧ t.pend.tri.u = fmul (if t.triRising then four else fneg four) i ∧
        t.ev &&& 0x60#8 = (if flt i posZero then 0x40#8 else 0x20#8) ∧
        (fgt i posZero = true →
          t.pend.tri.d = cross t.phase
            (if fge t.phase threeQuarters then threeQuarters
             else if fge t.phase quarter then quarter else fneg quarter) i) ∧
        (fgt i posZero = false →
          t.pend.tri.d = cross t.phase
            (if flt t.phase quarter then quarter
             else if flt t.phase threeQuarters then threeQuarters else oneAndQuarter) i))

/-- 44_sample_step_and_reset.md R123 in TICK: with a reset armed the TICK takes RESET: the listed values, EV = RESET alone, and
no correction scheduled. -/
def Obligations.ArmedTickTakesReset : Prop :=
  ∀ (conn : Conn) (inc pw rst : F32) (s : State),
    isFinite inc = true → isFinite pw = true → isFinite rst = true → s.resetArmed = true →
    ∃ t, exec (.tick conn inc pw rst) s = .next t ∧
      t.prevPhase = s.phase ∧ t.phase = 0x00000000#32 ∧ t.squareHigh = true ∧ t.triRising = true ∧
      t.halfHigh = false ∧ t.subParity = false ∧ t.ev = 0x80#8 ∧
      ∀ w : Wave, recordOf w t.pend = { active := false, d := posZero, u := posZero }

/-- 43_delay_line.md R113, R114 and 41_correction_injector.md R96, R97 in every completed TICK: each buffer shifts left bit for
bit and takes its raw value (42_waveform_generator.md R102 to R104) at slot 3, then u times the kernel of the record of the TICK
before is added slot by slot, and the width buffer takes w and no kernel. -/
def Obligations.TickShiftsAndInjects : Prop :=
  ∀ (conn : Conn) (inc pw rst : F32) (s : State),
    isFinite inc = true → isFinite pw = true → isFinite rst = true →
    let corrected := fun (r : Pending) (e : Taps) (l : Line) (raw : F32) =>
      if r.active then
        ({ s0 := fadd l.s1 (fmul r.u e.t0), s1 := fadd l.s2 (fmul r.u e.t1), s2 := fadd l.s3 (fmul r.u e.t2),
           s3 := fadd raw (fmul r.u e.t3) } : Line)
      else { s0 := l.s1, s1 := l.s2, s2 := l.s3, s3 := raw }
    ∃ t, exec (.tick conn inc pw rst) s = .next t ∧
      t.buf.saw = corrected s.pend.saw (stepKernel s.pend.saw.d) s.buf.saw t.phase ∧
      t.buf.sq = corrected s.pend.sq (stepKernel s.pend.sq.d) s.buf.sq (if t.squareHigh then one else fneg one) ∧
      t.buf.tri = corrected s.pend.tri (rampKernel Config.params s.pend.tri.d) s.buf.tri
        (if t.triRising then (if t.halfHigh then fsub (fmul two t.phase) oneAndHalf else fadd (fmul two t.phase) half)
         else fsub oneAndHalf (fmul two t.phase)) ∧
      t.buf.pw = { s0 := s.buf.pw.s1, s1 := s.buf.pw.s2, s2 := s.buf.pw.s3,
                   s3 := fsub (fmul two (fclamp pw posZero one)) one }

/-- 42_waveform_generator.md R105 to R108, 43_delay_line.md R115 in every completed TICK: the outputs are read from slot 0 after
the injection, the square is silent at the width limits, and the sine is of the current phase. -/
def Obligations.TickEmitsSlotZero : Prop :=
  ∀ (conn : Conn) (inc pw rst : F32) (s : State),
    isFinite inc = true → isFinite pw = true → isFinite rst = true →
    ∃ t, exec (.tick conn inc pw rst) s = .next t ∧
      t.out.saw = fclamp (fmul ten (fsub t.buf.saw.s0 half)) (fneg five) five ∧
      t.out.tri = fclamp (fmul ten (fsub t.buf.tri.s0 half)) (fneg five) five ∧
      t.out.sq =
        (if fge t.buf.pw.s0 0x3F7D70A4#32 || fle t.buf.pw.s0 0xBF7D70A4#32 then 0x00000000#32
         else Config.params.squareOut t.buf.sq.s0 t.buf.pw.s0) ∧
      t.out.sin = fmul five (sineApprox Config.params t.phase)

/-- 44_sample_step_and_reset.md R124 in every completed TICK: the comparator level is kept, and a rising edge of it arms a
reset for the next TICK; nothing else does. -/
def Obligations.TickSamplesTheTrigger : Prop :=
  ∀ (conn : Conn) (inc pw rst : F32) (s : State),
    isFinite inc = true → isFinite pw = true → isFinite rst = true →
    ∃ t, exec (.tick conn inc pw rst) s = .next t ∧
      t.trigHigh = fge rst Config.params.resetThreshold ∧
      t.resetArmed = (fge rst Config.params.resetThreshold && !s.trigHigh)

/-- The frame of a completed TICK: the index grows by 1 (10_state.md R33) and the marks stay (R37); of the model's own fields, the
frames not yet taken stay (log entry 7) and the working variables are idle again (log entry 11). -/
def Obligations.TickCountsAndKeepsTheRest : Prop :=
  ∀ (conn : Conn) (inc pw rst : F32) (s : State),
    isFinite inc = true → isFinite pw = true → isFinite rst = true →
    ∃ t, exec (.tick conn inc pw rst) s = .next t ∧
      t.n = s.n + 1 ∧ t.fault = s.fault ∧ t.refused = s.refused ∧ t.input = s.input ∧
      t.work = { np := .inactive, ev := 0x00#8 }

/-- 30_encoding.md R58: after every completed TICK exactly one of ADV and RESET is 1, at most one bit of each pair is, and bits
1 to 6 are 0 when RESET is 1. -/
def Obligations.EventWordConstraints : Prop :=
  ∀ (conn : Conn) (inc pw rst : F32) (s : State),
    isFinite inc = true → isFinite pw = true → isFinite rst = true →
    ∃ t, exec (.tick conn inc pw rst) s = .next t ∧
      (t.ev.getLsbD 0 = !t.ev.getLsbD 7) ∧
      (t.ev.getLsbD 0 = !s.resetArmed) ∧
      (t.ev.getLsbD 1 && t.ev.getLsbD 2) = false ∧
      (t.ev.getLsbD 3 && t.ev.getLsbD 4) = false ∧
      (t.ev.getLsbD 5 && t.ev.getLsbD 6) = false ∧
      (t.ev.getLsbD 7 = true → t.ev = 0x80#8)

/-- 10_state.md R30: after an advancing TICK the flags agree with the phase and that TICK's pulse width; a RESET tick leaves
phase 0 with triRising 1 and halfHigh 0, which agree, and squareHigh 1, which agrees whenever pwc > 0. -/
def Obligations.FlagsAgreeAfterTick : Prop :=
  ∀ (conn : Conn) (inc pw rst : F32) (s : State),
    isFinite inc = true → isFinite pw = true → isFinite rst = true →
    let pwc := fclamp pw posZero one
    ∃ t, exec (.tick conn inc pw rst) s = .next t ∧ flagsAgree t = true ∧
      (s.resetArmed = false → t.squareHigh = flt t.phase pwc) ∧
      (s.resetArmed = true →
        t.phase = posZero ∧ t.triRising = true ∧ t.halfHigh = false ∧ t.squareHigh = true ∧
        (fgt pwc posZero = true → t.squareHigh = flt t.phase pwc))

/-- 70_reset_and_hazards.md R154: a rising edge of RST seen by one TICK makes the next TICK take RESET, and out[SIN] is then the
sine of phase 0. Said for every choice P of the OPEN parameters; the machine's own TICK is `runTick` at Config.params. -/
def Obligations.TriggerEdgeResetsNextTick : Prop :=
  (∀ (conn : Conn) (inc pw rst : F32) (s : State),
    exec (.tick conn inc pw rst) s = .next (runTick Config.params inc pw rst s)) ∧
  (∀ (P : Params) (inc1 pw1 rst1 inc2 pw2 rst2 : F32) (s : State),
    isFinite inc1 = true → isFinite pw1 = true → isFinite rst1 = true →
    isFinite inc2 = true → isFinite pw2 = true → isFinite rst2 = true →
    s.trigHigh = false → fge rst1 P.resetThreshold = true →
    let u := runTick P inc2 pw2 rst2 (runTick P inc1 pw1 rst1 s)
    u.ev = 0x80#8 ∧ u.phase = posZero ∧ u.out.sin = fmul five (sineApprox P posZero))

/-- 44_sample_step_and_reset.md R128: RESET taken on two TICKs in a row (the second one armed by hand) leaves the phase, the
flags and the records as one RESET leaves them; prevPhase is 0 after the second. -/
def Obligations.ResetIsIdempotent : Prop :=
  ∀ (c1 c2 : Conn) (inc1 pw1 rst1 inc2 pw2 rst2 : F32) (s : State),
    isFinite inc1 = true → isFinite pw1 = true → isFinite rst1 = true →
    isFinite inc2 = true → isFinite pw2 = true → isFinite rst2 = true → s.resetArmed = true →
    ∃ t u, exec (.tick c1 inc1 pw1 rst1) s = .next t ∧
      exec (.tick c2 inc2 pw2 rst2) { t with resetArmed := true } = .next u ∧
      u.phase = t.phase ∧ u.squareHigh = t.squareHigh ∧ u.triRising = t.triRising ∧ u.halfHigh = t.halfHigh ∧
      u.subParity = t.subParity ∧ u.pend = t.pend ∧ u.prevPhase = posZero

/-- 43_delay_line.md R116, R117: with no correction pending over three further TICKs, the value at slot 3 of a buffer stands at
slot 0 after them, bit for bit. Said for every choice P of the OPEN parameters. -/
def Obligations.SlotThreeIsEmittedThreeTicksLater : Prop :=
  ∀ (P : Params) (i1 p1 r1 i2 p2 r2 i3 p3 r3 : F32) (s : State) (w : Wave),
    isFinite i1 = true → isFinite p1 = true → isFinite r1 = true →
    isFinite i2 = true → isFinite p2 = true → isFinite r2 = true →
    isFinite i3 = true → isFinite p3 = true → isFinite r3 = true →
    let t := runTick P i1 p1 r1 s
    let u := runTick P i2 p2 r2 t
    (recordOf w s.pend).active = false → (recordOf w t.pend).active = false → (recordOf w u.pend).active = false →
      bufRead (waveBuf w) 0 (runTick P i3 p3 r3 u) = bufRead (waveBuf w) 3 s

/-- 70_reset_and_hazards.md R157: the first TICK after power-on emits the power-on slots: -5 V saw and triangle, and
SQUARE_OUT(0, 0). -/
def Obligations.FirstTickEmitsPowerOnSlots : Prop :=
  ∀ (conn : Conn) (inc pw rst : F32),
    isFinite inc = true → isFinite pw = true → isFinite rst = true →
    ∃ t, exec (.tick conn inc pw rst) State.reset = .next t ∧
      t.out.saw = 0xC0A00000#32 ∧ t.out.tri = 0xC0A00000#32 ∧
      t.out.sq = Config.params.squareOut posZero posZero

/-- 40_phase_accumulator.md R84: with inc = +0 or -0 the phase is bit-identical, nothing wraps, flags that agree with the phase
stay, and a pulse edge occurs only if pwc crossed the held phase, with d = 0.5. (The phase is not -0.0: PhaseNeverMinusZero.) -/
def Obligations.ZeroIncrementHoldsThePhase : Prop :=
  ∀ (conn : Conn) (inc pw rst : F32) (s : State),
    isZero inc = true → isFinite pw = true → isFinite rst = true → s.resetArmed = false →
    phaseInRange s = true → phaseSignClear s = true → flagsAgree s = true →
    ∃ t, exec (.tick conn inc pw rst) s = .next t ∧
      t.phase = s.phase ∧ t.subParity = s.subParity ∧ t.triRising = s.triRising ∧ t.halfHigh = s.halfHigh ∧
      t.pend.saw.active = false ∧ t.pend.tri.active = false ∧
      t.pend.sq.active = (flt s.phase (fclamp pw posZero one) != s.squareHigh) ∧
      (t.pend.sq.active = true → t.pend.sq.d = half) ∧
      (t.ev = 0x01#8 ∨ (t.pend.sq.active = true ∧ t.ev = 0x09#8))

/-! ### The transitions run alone: that a transition can be run alone, and what it does then with the working variables, is the
model's choice (log entries 10, 11 and 12); the values are those of the rules. -/

/-- Log entry 10, with the values of 40_phase_accumulator.md R67 and R70: WRAP_UP, taken when q >= 1 (inc > 0, q at most 1.5),
and its frame. -/
def Obligations.WrapUpResult : Prop :=
  ∀ (q inc : F32) (s : State), within one q oneAndHalf = true → fgt inc posZero = true → fle inc half = true →
    exec (.wrapUp q inc) s = .next
      { s with
        phase := fsub q one
        subParity := !s.subParity
        work := { np := { s.work.np with saw := { active := true, d := cross (fsub q one) posZero inc, u := one } },
                  ev := s.work.ev ||| 0x02#8 } }

/-- Log entry 10, with the values of R68 and R70: WRAP_DN, taken when q < 0 (inc < 0, q at least -0.5), and its frame. -/
def Obligations.WrapDnResult : Prop :=
  ∀ (q inc : F32) (s : State), fle (fneg half) q = true → flt q posZero = true →
    flt inc posZero = true → fle (fneg half) inc = true →
    let p := if fge (fadd q one) one then 0x3F7FFFFF#32 else fadd q one
    exec (.wrapDn q inc) s = .next
      { s with
        phase := p
        subParity := !s.subParity
        work := { np := { s.work.np with saw := { active := true, d := cross p one inc, u := fneg one } },
                  ev := s.work.ev ||| 0x04#8 } }

/-- Log entry 10, with the values of R73 to R75: PULSE_EDGE_UP (inc >= 0) and PULSE_EDGE_DN (inc < 0) on the operands their
rules state, and their frame:
squareHigh is recomputed; a change writes the square record and the direction bit, and no change writes neither. -/
def Obligations.PulseEdgeResults : Prop :=
  ∀ (p inc pwc : F32) (s : State),
    fle posZero p = true → flt p one = true → within posZero pwc one = true →
    let nh := flt p pwc
    let edge := fun (bit : EvWord) (t : F32) =>
      if nh = s.squareHigh then s
      else
        { s with
          squareHigh := nh
          work := { np := { s.work.np with sq := { active := true, d := cross p t inc, u := if nh then fneg two else two } },
                    ev := s.work.ev ||| bit } }
    (fgt inc posZero = true → fle inc half = true →
      exec (.pulseEdgeUp p inc pwc) s = .next (edge 0x08#8 (if nh then posZero else pwc))) ∧
    (isZero inc = true → ∀ t : F32, exec (.pulseEdgeUp p inc pwc) s = .next (edge 0x08#8 t)) ∧
    (flt inc posZero = true → fle (fneg half) inc = true →
      exec (.pulseEdgeDn p inc pwc) s = .next (edge 0x10#8 (if nh then pwc else one)))

/-- Log entry 10, with the values of R76 to R79: TRI_FOLD_UP (inc >= 0) and TRI_FOLD_DN (inc < 0) on the operands their rules
state, and their frame. -/
def Obligations.TriFoldResults : Prop :=
  ∀ (p inc : F32) (s : State),
    fle posZero p = true → flt p one = true →
    let nr := flt p quarter || fge p threeQuarters
    let fold := fun (bit : EvWord) (t : F32) =>
      if nr = s.triRising then s
      else
        { s with
          triRising := nr
          work := { np := { s.work.np with tri := { active := true, d := cross p t inc,
                                                    u := fmul (if nr then four else fneg four) inc } },
                    ev := s.work.ev ||| bit } }
    (fgt inc posZero = true → fle inc half = true →
      exec (.triFoldUp p inc) s = .next (fold 0x20#8
        (if fge p threeQuarters then threeQuarters else if fge p quarter then quarter else fneg quarter))) ∧
    (isZero inc = true → ∀ t : F32, exec (.triFoldUp p inc) s = .next (fold 0x20#8 t)) ∧
    (flt inc posZero = true → fle (fneg half) inc = true →
      exec (.triFoldDn p inc) s = .next (fold 0x40#8
        (if flt p quarter then quarter else if flt p threeQuarters then threeQuarters else oneAndQuarter)))

/-- Log entries 10 and 11, with the values of R66 to R80: ADVANCE run alone on conditioned operands: the phase by the wrap
rules, prevPhase, subParity, the three flags, the three working records and the working event bits; nothing else changes. -/
def Obligations.AdvanceResult : Prop :=
  ∀ (inc pwc : F32) (s : State),
    within (fneg half) inc half = true → within posZero pwc one = true →
    let q := fadd s.phase inc
    let up := fge q one
    let down := !up && flt q posZero
    let p := if up then fsub q one
             else if down then (if fge (fadd q one) one then 0x3F7FFFFF#32 else fadd q one)
             else q
    let nh := flt p pwc
    let nr := flt p quarter || fge p threeQuarters
    let pulseThreshold := if flt inc posZero then (if nh then pwc else one) else (if nh then posZero else pwc)
    let foldPoint :=
      if fgt inc posZero then (if fge p threeQuarters then threeQuarters else if fge p quarter then quarter else fneg quarter)
      else (if flt p quarter then quarter else if flt p threeQuarters then threeQuarters else oneAndQuarter)
    exec (.advance inc pwc) s = .next
      { s with
        phase := p
        prevPhase := s.phase
        squareHigh := nh
        triRising := nr
        halfHigh := fge p half
        subParity := if up || down then !s.subParity else s.subParity
        work :=
          { np :=
              { saw := if up then { active := true, d := cross p posZero inc, u := one }
                       else if down then { active := true, d := cross p one inc, u := fneg one }
                       else s.work.np.saw
                sq := if nh = s.squareHigh then s.work.np.sq
                      else { active := true, d := cross p pulseThreshold inc, u := if nh then fneg two else two }
                tri := if nr = s.triRising then s.work.np.tri
                       else { active := true, d := cross p foldPoint inc, u := fmul (if nr then four else fneg four) inc } }
            ev := s.work.ev ||| 0x01#8 |||
              (if up then 0x02#8 else if down then 0x04#8 else 0x00#8) |||
              (if nh = s.squareHigh then 0x00#8 else if flt inc posZero then 0x10#8 else 0x08#8) |||
              (if nr = s.triRising then 0x00#8 else if flt inc posZero then 0x40#8 else 0x20#8) } }

/-- Log entry 10, with the values of 44_sample_step_and_reset.md R123: RESET run alone, and its frame. -/
def Obligations.ResetResult : Prop :=
  ∀ s : State,
    exec .reset s = .next
      { s with
        prevPhase := s.phase
        phase := 0x00000000#32
        squareHigh := true
        triRising := true
        halfHigh := false
        subParity := false
        work := { s.work with ev := s.work.ev ||| 0x80#8 } }

/-- The model's choice (log entry 12): a transition whose operands are not the ones its rule states is not taken. -/
def Obligations.IllFormedTransitionIsNotTaken : Prop :=
  ∀ (i : Instr) (s : State), i.wellFormed = false → exec i s = .next s

/-- 40_phase_accumulator.md R83: the pulse, triangle and half-cycle classifications give the same state in any order. -/
def Obligations.ClassificationsCommute : Prop :=
  ∀ (p inc pwc : F32) (s : State),
    triClassify p inc (pulseClassify p inc pwc s) = pulseClassify p inc pwc (triClassify p inc s) ∧
    halfClassify p (pulseClassify p inc pwc s) = pulseClassify p inc pwc (halfClassify p s) ∧
    halfClassify p (triClassify p inc s) = triClassify p inc (halfClassify p s)

/-! ### Invariants and whole-machine rules -/

/-- 10_state.md R31: phase containment, over every step from every state that meets it. -/
def Obligations.PhaseContainment : Prop :=
  ∀ s t : State, phaseInRange s = true → step s = .next t → phaseInRange t = true

/-- A contained phase is never -0.0: every step keeps it so. -/
def Obligations.PhaseNeverMinusZero : Prop :=
  ∀ s t : State, phaseInRange s = true → phaseSignClear s = true → step s = .next t →
    phaseInRange t = true ∧ phaseSignClear t = true

/-- 10_state.md R30 over steps of the spec's host interface: triRising and halfHigh agree with the phase. -/
def Obligations.FlagConsistencyKept : Prop :=
  ∀ s t : State, commandsOnly s = true → flagsAgree s = true → step s = .next t →
    commandsOnly t = true ∧ flagsAgree t = true

/-- 41_correction_injector.md R100: every buffer value stays finite and within 4 of the range of its raw values, every d stays in
[0, 1] and every |u| within 2, over every step from every state that meets it. For a replacement ramp kernel it rests on log entry 4. -/
def Obligations.BufferValuesStayBounded : Prop :=
  ∀ s t : State, numbersBounded s = true → step s = .next t → numbersBounded t = true

/-- 44_sample_step_and_reset.md R129: a reset is armed only while the kept trigger level is high; every step keeps it so. -/
def Obligations.ArmedOnlyWhileHighKept : Prop :=
  ∀ s t : State, armedOnlyHigh s = true → step s = .next t → armedOnlyHigh t = true

/-- R129: the trigger cannot produce RESET on two consecutive TICKs. -/
def Obligations.NoConsecutiveResets : Prop :=
  ∀ (c1 c2 : Conn) (inc1 pw1 rst1 inc2 pw2 rst2 : F32) (s t u : State),
    isFinite inc1 = true → isFinite pw1 = true → isFinite rst1 = true →
    isFinite inc2 = true → isFinite pw2 = true → isFinite rst2 = true →
    armedOnlyHigh s = true →
    exec (.tick c1 inc1 pw1 rst1) s = .next t → exec (.tick c2 inc2 pw2 rst2) t = .next u →
      t.ev.getLsbD 7 = true → u.ev.getLsbD 7 = false

/-- 10_state.md R37, R33: whatever is run, a step that completes no TICK (the index stays) writes no buffer, no installed record,
no trigger state, no output and no event register. -/
def Obligations.OnlyCompletedTicksWriteTheOutputs : Prop :=
  ∀ s t : State, step s = .next t →
    (t.n = s.n ∧ t.buf = s.buf ∧ t.pend = s.pend ∧ t.trigHigh = s.trigHigh ∧ t.resetArmed = s.resetArmed ∧
      t.out = s.out ∧ t.ev = s.ev) ∨
    (t.n = s.n + 1 ∧ ∃ (ctrl inc pw rst : Word) (rest : List Frame),
      s.input = .command ctrl inc pw rst :: rest ∧ ctrl &&& 0xFFFFFFC3#32 = 1#32 ∧
      isFinite inc = true ∧ isFinite pw = true ∧ isFinite rst = true)

/-- 44_sample_step_and_reset.md R132: two command sequences that differ only in CONN bits run to the same outcome, whole state
and all. -/
def Obligations.ConnBitsChangeNothing : Prop :=
  ∀ (s : State) (frames : List Frame),
    let clearConn := fun f : Frame =>
      match f with
      | .command ctrl inc pw rst => .command (ctrl &&& 0xFFFFFFC3#32) inc pw rst
      | .transition ev a b c => .transition ev a b c
    core.run frames.length { s with input := frames } = core.run frames.length { s with input := frames.map clearConn }

/-! ### Arithmetic of the rules -/

/-- 40_phase_accumulator.md R71: for a contained phase and a conditioned increment, q is in [-0.5, 1.5], and exactly one of no
wrap, WRAP_UP and WRAP_DN holds, each giving a contained phase. -/
def Obligations.AtMostOneWrap : Prop :=
  ∀ p inc : F32, phaseContained p = true → incConditioned inc = true →
    let q := fadd p inc
    within (fneg half) q oneAndHalf = true ∧ (fge q one && flt q posZero) = false ∧
    (fge q one = true → phaseContained (wrapUpPhase q) = true) ∧
    (flt q posZero = true → phaseContained (wrapDnPhase q) = true) ∧
    (fge q one = false → flt q posZero = false → phaseContained q = true)

/-- R67: the subtraction of WRAP_UP is exact. -/
def Obligations.WrapUpSubtractionIsExact : Prop :=
  ∀ q : F32, within one q oneAndHalf = true → value (wrapUpPhase q) = value q - value one

/-- R68: for q in [-2^-25, 0) the sum q + 1 rounds to exactly 1, and the phase becomes the largest binary32 below 1. -/
def Obligations.TinyNegativeWrapsJustBelowOne : Prop :=
  ∀ q : F32, fle 0xB3000000#32 q = true → flt q posZero = true →
    fadd q one = one ∧ wrapDnPhase q = 0x3F7FFFFF#32

/-- R81: CROSS is 0.5 at inc = 0 of either sign, else the clamped formula, and it is always finite and in [0, 1]. -/
def Obligations.CrossingFractionInUnitInterval : Prop :=
  ∀ p t inc : F32, isFinite p = true → isFinite t = true → isFinite inc = true →
    (isZero inc = true → cross p t inc = 0x3F000000#32) ∧
    (isZero inc = false → cross p t inc = fclamp (fsub one (fdiv (fsub p t) inc)) posZero one) ∧
    isFinite (cross p t inc) = true ∧ within posZero (cross p t inc) one = true

/-- 41_correction_injector.md R95, R100: the triangle magnitude is exact, and within 2. -/
def Obligations.TriangleMagnitudeIsExact : Prop :=
  ∀ (nr : Bool) (inc : F32), incConditioned inc = true →
    value (triMagnitude nr inc) = (if nr then 4 else -4) * value inc ∧ within (fneg two) (triMagnitude nr inc) two = true

/-- 43_delay_line.md R114: w lies in [-1, 1]; 42_waveform_generator.md R106: the output is silent exactly when the TICK that
produced the sample had pwc >= 0x3F7EB852 or pwc <= 0x3BA3D720. -/
def Obligations.SilentExactlyAtTheWidthLimits : Prop :=
  ∀ pwc : F32, widthConditioned pwc = true →
    within (fneg one) (bipolarWidth pwc) one = true ∧
    silentWidth (bipolarWidth pwc) = (fge pwc 0x3F7EB852#32 || fle pwc 0x3BA3D720#32)

/-- 42_waveform_generator.md R110: at phases that are multiples of 2^-20 in [0, 0.5), raw[TRI](p) + raw[TRI](p + 0.5) = 1
exactly, with flags consistent. -/
def Obligations.TriangleHalfCycleSymmetry : Prop :=
  ∀ (p p' : F32) (k : Nat), k < 2 ^ 19 → isFinite p = true → isFinite p' = true →
    value p = k * 2 ^ 129 → value p' = value p + 2 ^ 148 →
    value (rawTriangle p (triRisingAt p) (halfHighAt p)) + value (rawTriangle p' (triRisingAt p') (halfHighAt p')) = 2 ^ 149

/-- 42_waveform_generator.md R108, properties 1 to 3 of SINE_APPROX, for every parameter (that every parameter is held to
them is the model's choice, log entry 3). -/
def Obligations.SineHasItsThreeProperties : Prop :=
  ∀ P : Params,
    (∀ p : F32, phaseContained p = true → within (fneg one) (sineApprox P p) one = true) ∧
    (∀ p p' : F32, withinBelow posZero p half = true → isFinite p' = true → value p' = value p + value half →
      value (sineApprox P p') = -value (sineApprox P p)) ∧
    (∀ p : F32, isZero p = true → value (sineApprox P p) = 0) ∧
    sineApprox P quarter = one ∧ sineApprox P threeQuarters = fneg one

/-- Log entry 3: a function that already has R108's three properties is left as it is on [0, 1): nothing the spec allows is
shut out. -/
def Obligations.LawfulSineIsUnchanged : Prop :=
  ∀ f : F32 → F32,
    (∀ p : F32, phaseContained p = true → within (fneg one) (f p) one = true) →
    (∀ p p' : F32, withinBelow posZero p half = true → isFinite p' = true → value p' = value p + value half →
      value (f p') = -value (f p)) →
    (∀ p : F32, isZero p = true → value (f p) = 0) → value (f quarter) = value one →
    ∀ p : F32, phaseContained p = true → conformSine f p = f p

/-- 42_waveform_generator.md R105, R107, R108: from a state within the numerical invariant, a completed TICK leaves the saw, the
triangle and the sine output within 5 volts of 0. -/
def Obligations.OutputsStayWithinFiveVolts : Prop :=
  ∀ (conn : Conn) (inc pw rst : F32) (s : State),
    isFinite inc = true → isFinite pw = true → isFinite rst = true → numbersBounded s = true →
    ∃ t, exec (.tick conn inc pw rst) s = .next t ∧
      within (fneg five) t.out.saw five = true ∧ within (fneg five) t.out.tri five = true ∧
      within (fneg five) t.out.sin five = true

/-- 41_correction_injector.md R90: the step kernel's binary32 values at the five test points. -/
def Obligations.StepKernelTable : Prop :=
  stepKernel 0x00000000#32 = ⟨0xBD2AAAAB#32, 0xBF000000#32, 0x3D2AAAAB#32, 0x00000000#32⟩ ∧
  stepKernel 0x3E800000#32 = ⟨0xBC580003#32, 0xBEAD1555#32, 0x3DCF0000#32, 0x392AAAAB#32⟩ ∧
  stepKernel 0x3F000000#32 = ⟨0xBB2AAACB#32, 0xBE4D5555#32, 0x3E4D5556#32, 0x3B2AAAAB#32⟩ ∧
  stepKernel 0x3F400000#32 = ⟨0xB92AAC00#32, 0xBDCF0000#32, 0x3EAD1556#32, 0x3C580000#32⟩ ∧
  stepKernel 0x3F800000#32 = ⟨0x32A00000#32, 0xBD2AAAA8#32, 0x3F000000#32, 0x3D2AAAAB#32⟩

/-- 41_correction_injector.md R91, R92: the ramp kernel is the replacement where the parameter gives one, with a replacement's
polynomials lawful by R91 and the taps their binary32 evaluation (log entry 4), and else the default, with the table's binary32
values at the five test points. -/
def Obligations.RampKernelTable : Prop :=
  (∀ (P : Params) (k : RampKernel), P.ramp = some k →
    (∀ d : F32, rampKernel P d = k.taps d) ∧ k.polynomials.Lawful ∧ k.polynomials.EvaluatedBy (rampKernel P)) ∧
  (∀ P : Params, P.ramp = none →
    (∀ d : F32, rampKernel P d = rampKernelDefault d) ∧
    rampKernel P 0x00000000#32 = ⟨0x3C088889#32, 0x3E6EEEEF#32, 0x3C088889#32, 0x00000000#32⟩ ∧
    rampKernel P 0x3E800000#32 = ⟨0x3B01999A#32, 0x3E03F555#32, 0x3CD01112#32, 0x37088889#32⟩ ∧
    rampKernel P 0x3F000000#32 = ⟨0x39888889#32, 0x3D7EEEF0#32, 0x3D7EEEF1#32, 0x39888889#32⟩ ∧
    rampKernel P 0x3F400000#32 = ⟨0x37088889#32, 0x3CD01112#32, 0x3E03F555#32, 0x3B01999A#32⟩ ∧
    rampKernel P 0x3F800000#32 = ⟨0x00000000#32, 0x3C0888A2#32, 0x3E6EEEEE#32, 0x3C088889#32⟩)

/-- R100: at every crossing fraction every tap is finite and bounded as R90 and R92 give, up to 2^-10 of rounding: the step
kernel's in [-1/2, 1/2], and the ramp kernel's in [0, 7/30] whatever the parameter is (log entry 4). -/
def Obligations.KernelTapsAreBounded : Prop :=
  ∀ (P : Params) (d : F32), within posZero d one = true →
    let bounded := fun (lo hi : Rat) (t : F32) =>
      isFinite t = true ∧ lo - 1 / 1024 ≤ exactly t ∧ exactly t ≤ hi + 1 / 1024
    let e := stepKernel d
    let q := rampKernel P d
    (bounded (-1 / 2) (1 / 2) e.t0 ∧ bounded (-1 / 2) (1 / 2) e.t1 ∧ bounded (-1 / 2) (1 / 2) e.t2 ∧
      bounded (-1 / 2) (1 / 2) e.t3) ∧
    (bounded 0 (7 / 30) q.t0 ∧ bounded 0 (7 / 30) q.t1 ∧ bounded 0 (7 / 30) q.t2 ∧ bounded 0 (7 / 30) q.t3)

/-- R100: the sample a TICK appends stays finite and within 4 of its raw value (42_waveform_generator.md R102 to R104) in every
slot it passes, up to the TICK that emits it. Said for every choice P of the OPEN parameters (for a replacement ramp kernel it
rests on log entry 4), from records with d in [0, 1] and |u| <= 2. -/
def Obligations.CorrectedValueStaysWithinFourOfRaw : Prop :=
  ∀ (P : Params) (i1 p1 r1 i2 p2 r2 i3 p3 r3 i4 p4 r4 : F32) (s : State),
    isFinite i1 = true → isFinite p1 = true → isFinite r1 = true →
    isFinite i2 = true → isFinite p2 = true → isFinite r2 = true →
    isFinite i3 = true → isFinite p3 = true → isFinite r3 = true →
    isFinite i4 = true → isFinite p4 = true → isFinite r4 = true →
    phaseInRange s = true → recordsBounded s.pend = true →
    let t := runTick P i1 p1 r1 s
    let u := runTick P i2 p2 r2 t
    let v := runTick P i3 p3 r3 u
    let x := runTick P i4 p4 r4 v
    let rawSq := if t.squareHigh then one else fneg one
    let rawTri :=
      if t.triRising then (if t.halfHigh then fsub (fmul two t.phase) oneAndHalf else fadd (fmul two t.phase) half)
      else fsub oneAndHalf (fmul two t.phase)
    (withinFour t.phase t.buf.saw.s3 ∧ withinFour t.phase u.buf.saw.s2 ∧ withinFour t.phase v.buf.saw.s1 ∧
      withinFour t.phase x.buf.saw.s0) ∧
    (withinFour rawSq t.buf.sq.s3 ∧ withinFour rawSq u.buf.sq.s2 ∧ withinFour rawSq v.buf.sq.s1 ∧
      withinFour rawSq x.buf.sq.s0) ∧
    (withinFour rawTri t.buf.tri.s3 ∧ withinFour rawTri u.buf.tri.s2 ∧ withinFour rawTri v.buf.tri.s1 ∧
      withinFour rawTri x.buf.tri.s0)

/-- 30_encoding.md R57: the output frame is the four output words and the event word, whose bits 31:8 read as 0. -/
def Obligations.OutputFrameLayout : Prop :=
  ∀ s : State, ∃ ev : Word,
    outputFrame s = [s.out.saw, s.out.sq, s.out.tri, s.out.sin, ev] ∧ ev.extractLsb' 0 8 = s.ev ∧ ev >>> 8 = 0#32
end

