-- ==== Sys2Proof/Laws/Decode.lean ====
section
/-! SUPPORT. The bit fields of the CTRL word and the bytes of a word, once: what a field of a built word is, and that the bytes
of a word are read back as the word. -/

namespace Sys2Proof

theorem toNat_append_eq {m n : Nat} (x : BitVec m) (y : BitVec n) : (x ++ y).toNat = x.toNat * 2 ^ n + y.toNat := by
  rw [BitVec.toNat_append, ← Nat.shiftLeft_add_eq_or_of_lt y.isLt, Nat.shiftLeft_eq]

theorem toNat_field {n : Nat} (x : BitVec n) (lo len : Nat) : (x.extractLsb' lo len).toNat = x.toNat / 2 ^ lo % 2 ^ len := by
  rw [BitVec.extractLsb'_toNat, Nat.shiftRight_eq_div_pow]

/-- The bytes of a word, followed by any bytes, are read back as the word and those bytes. -/
theorem takeWord_wordBytes (w : Word) (rest : List Byte) : takeWord (wordBytes w ++ rest) = some (w, rest) := by
  have h : w.extractLsb' 24 8 ++ w.extractLsb' 16 8 ++ w.extractLsb' 8 8 ++ w.extractLsb' 0 8 = w := by
    apply BitVec.eq_of_toNat_eq
    have := w.isLt
    simp only [toNat_append_eq, toNat_field]
    omega
  simp [takeWord, wordBytes, h]

/-- The bytes of a frame, followed by any bytes, are read back at the frame's port as the frame and those bytes. -/
theorem frameOfBytes_frameBytes (f : Frame) (rest : List Byte) :
    frameOfBytes (framePort f) (frameBytes f ++ rest) = some (f, rest) := by
  cases f <;> simp [frameBytes, framePort, frameOfBytes, takeThree, takeWord_wordBytes]

theorem ctrlCmd_ofUpper (upper : BitVec 30) (cmd : BitVec 2) : ctrlCmd (ctrlOfUpper upper cmd) = cmd := by
  apply BitVec.eq_of_toNat_eq
  have := cmd.isLt
  simp only [ctrlCmd, ctrlOfUpper, toNat_field, toNat_append_eq]
  omega

theorem ctrlUpper_ofUpper (upper : BitVec 30) (cmd : BitVec 2) : ctrlUpper (ctrlOfUpper upper cmd) = upper := by
  apply BitVec.eq_of_toNat_eq
  have := cmd.isLt
  have := upper.isLt
  simp only [ctrlUpper, ctrlOfUpper, toNat_field, toNat_append_eq]
  omega

/-- A CTRL word is the bits above CMD, and CMD. -/
theorem ctrlOfUpper_fields (ctrl : Word) : ctrlOfUpper (ctrlUpper ctrl) (ctrlCmd ctrl) = ctrl := by
  apply BitVec.eq_of_toNat_eq
  have := ctrl.isLt
  simp only [ctrlUpper, ctrlCmd, ctrlOfUpper, toNat_field, toNat_append_eq]
  omega

theorem ctrlOfConn_fields (conn : Conn) (cmd : BitVec 2) :
    ctrlCmd (ctrlOfConn conn cmd) = cmd ∧ ctrlConn (ctrlOfConn conn cmd) = conn ∧ ctrlReserved (ctrlOfConn conn cmd) = 0#26 := by
  obtain ⟨a, b, c, d⟩ := conn
  revert a b c d cmd
  decide

/-- CMD by the mask of 30_encoding.md R60. -/
theorem ctrlCmd_eq_iff (ctrl : Word) (cmd : BitVec 2) : ctrlCmd ctrl = cmd ↔ ctrl &&& 3#32 = cmd.zeroExtend 32 := by
  have h3 : (ctrl &&& 3#32).toNat = ctrl.toNat % 4 := by
    rw [BitVec.toNat_and]
    exact Nat.and_two_pow_sub_one_eq_mod ctrl.toNat 2
  have hc := cmd.isLt
  have hz : (cmd.zeroExtend 32).toNat = cmd.toNat := by
    simp only [BitVec.truncate_eq_setWidth, BitVec.toNat_setWidth]
    exact Nat.mod_eq_of_lt (by omega)
  constructor <;> intro h <;> apply BitVec.eq_of_toNat_eq
  · rw [h3, hz, ← h, ctrlCmd, toNat_field]; omega
  · have := congrArg BitVec.toNat h
    rw [h3, hz] at this
    rw [ctrlCmd, toNat_field]; omega

/-- The reserved field by a shift. -/
theorem ctrlReserved_eq_zero_iff (ctrl : Word) : ctrlReserved ctrl = 0#26 ↔ ctrl >>> 6 = 0#32 := by
  have := ctrl.isLt
  constructor <;> intro h <;> apply BitVec.eq_of_toNat_eq <;> have h' := congrArg BitVec.toNat h <;>
    simp only [ctrlReserved, toNat_field, BitVec.toNat_ushiftRight, Nat.shiftRight_eq_div_pow, BitVec.toNat_ofNat] at h' ⊢ <;>
    omega

end Sys2Proof
end

