-- ==== Sys2Proof/Laws/Float.lean ====
section
/-! SUPPORT. What each binary32 operation can answer, said once: the rounding is squeezed between any two representable
bounds of the exact result, and the comparisons are the comparisons of the exact values. -/

namespace Sys2Proof.Machine

/-- The magnitude, in units of 2^-149, that magnitude bits stand for. -/
def magOfBits (m : Nat) : Nat := if m / 2 ^ 23 = 0 then m % 2 ^ 23 else (2 ^ 23 + m % 2 ^ 23) * 2 ^ (m / 2 ^ 23 - 1)

theorem magBits_lt (x : F32) : magBits x < 2 ^ 31 := Nat.mod_lt _ (by norm_num)

theorem expField_eq (x : F32) : expField x = magBits x / 2 ^ 23 := by
  simp only [expField, magBits]; omega

theorem fracField_eq (x : F32) : fracField x = magBits x % 2 ^ 23 := by
  simp only [fracField, magBits]; omega

theorem magnitude_eq (x : F32) : magnitude x = magOfBits (magBits x) := by
  simp only [magnitude, magOfBits, expField_eq, fracField_eq]

theorem isFinite_iff (x : F32) : isFinite x = true ↔ magBits x < 0x7F800000 := by
  have := magBits_lt x
  simp only [isFinite, expField_eq, bne_iff_ne, ne_eq]; omega

theorem isNaN_iff (x : F32) : isNaN x = true ↔ 0x7F800000 < magBits x := by
  have := magBits_lt x
  simp only [isNaN, expField_eq, fracField_eq, Bool.and_eq_true, beq_iff_eq, bne_iff_ne, ne_eq]; omega

theorem isZero_iff (x : F32) : isZero x = true ↔ magBits x = 0 := by simp [isZero]

theorem isNaN_of_isFinite {x : F32} (h : isFinite x = true) : isNaN x = false := by
  rw [isFinite_iff] at h
  rw [Bool.eq_false_iff, ne_eq, isNaN_iff]; omega

theorem toNat_eq (x : F32) : x.toNat = (if signBit x then 2 ^ 31 else 0) + magBits x := by
  have hx := x.isLt
  simp only [signBit, magBits, BitVec.msb_eq_decide]
  split <;> rename_i h <;> simp only [decide_eq_true_eq] at h <;> omega

/-- Small magnitudes stand for themselves. -/
theorem magOfBits_small {m : Nat} (h : m ≤ 2 ^ 24) : magOfBits m = m := by
  unfold magOfBits
  rcases Nat.lt_or_ge m (2 ^ 23) with h1 | h1
  · rw [if_pos (by omega)]; omega
  · rcases Nat.lt_or_ge m (2 ^ 24) with h2 | h2
    · rw [if_neg (by omega)]
      have : m / 2 ^ 23 = 1 := by omega
      rw [this]; omega
    · have : m = 2 ^ 24 := by omega
      subst this; norm_num

/-- In binade k + 1 the bits above k * 2^23 are the significand. -/
theorem magOfBits_binade (k f : Nat) (h1 : 2 ^ 23 ≤ f) (h2 : f < 2 ^ 24) : magOfBits (k * 2 ^ 23 + f) = f * 2 ^ k := by
  unfold magOfBits
  have hd : (k * 2 ^ 23 + f) / 2 ^ 23 = k + 1 := by omega
  have hm : (k * 2 ^ 23 + f) % 2 ^ 23 = f - 2 ^ 23 := by omega
  rw [hd, hm, if_neg (by omega), Nat.add_sub_cancel' h1, Nat.add_sub_cancel]

theorem magOfBits_lt_succ (m : Nat) : magOfBits m < magOfBits (m + 1) := by
  rcases Nat.lt_or_ge m (2 ^ 23) with h | h
  · rw [magOfBits_small (by omega), magOfBits_small (by omega)]; omega
  · obtain ⟨k, f, rfl, h1, h2⟩ : ∃ k f, m = k * 2 ^ 23 + f ∧ 2 ^ 23 ≤ f ∧ f < 2 ^ 24 :=
      ⟨m / 2 ^ 23 - 1, m % 2 ^ 23 + 2 ^ 23, by omega, by omega, by omega⟩
    rw [magOfBits_binade k f h1 h2]
    rcases Nat.lt_or_ge (f + 1) (2 ^ 24) with h3 | h3
    · rw [show k * 2 ^ 23 + f + 1 = k * 2 ^ 23 + (f + 1) by omega, magOfBits_binade k (f + 1) (by omega) h3]
      exact Nat.mul_lt_mul_of_pos_right (by omega) (by positivity)
    · have hf : f = 2 ^ 24 - 1 := by omega
      rw [show k * 2 ^ 23 + f + 1 = (k + 1) * 2 ^ 23 + 2 ^ 23 by omega, magOfBits_binade (k + 1) (2 ^ 23) (by omega) (by omega),
        pow_succ 2 k, hf]
      have : 0 < 2 ^ k := by positivity
      omega

theorem magOfBits_strictMono : StrictMono magOfBits := strictMono_nat_of_lt_succ magOfBits_lt_succ

theorem roundQuot_eq_or (n d : Nat) : roundQuot n d = n / d ∨ roundQuot n d = n / d + 1 := by
  simp only [roundQuot]; split <;> simp

theorem roundQuot_le {n d f : Nat} (hd : 0 < d) (h : n ≤ f * d) : roundQuot n d ≤ f := by
  have hq : n / d ≤ f := Nat.div_le_of_le_mul (by rwa [Nat.mul_comm])
  rcases Nat.lt_or_ge (n / d) f with h1 | h1
  · rcases roundQuot_eq_or n d with h2 | h2 <;> omega
  · have hqe : n / d = f := by omega
    have hr : n % d = 0 := by
      have := Nat.div_add_mod n d
      rw [hqe, Nat.mul_comm] at this
      omega
    simp only [roundQuot, hr]
    rw [if_neg (by omega)]; omega

theorem le_roundQuot {n d f : Nat} (hd : 0 < d) (h : f * d ≤ n) : f ≤ roundQuot n d := by
  have : f ≤ n / d := (Nat.le_div_iff_mul_le hd).2 h
  rcases roundQuot_eq_or n d with h2 | h2 <;> omega

/-- The shape of the quotient that roundMag rounds: small, or with its top bit at place 23 + k. -/
theorem round_shape (q : Nat) :
    (Nat.log2 q - 23 = 0 ∧ q < 2 ^ 24) ∨
    (1 ≤ Nat.log2 q - 23 ∧ 2 ^ (23 + (Nat.log2 q - 23)) ≤ q ∧ q < 2 ^ (24 + (Nat.log2 q - 23))) := by
  rcases Nat.eq_zero_or_pos q with h0 | h0
  · subst h0; left; simp
  · have h1 : q < 2 ^ (Nat.log2 q + 1) := (Nat.log2_lt (by omega)).1 (by omega)
    have h2 : 2 ^ Nat.log2 q ≤ q := (Nat.le_log2 (by omega)).1 (Nat.le_refl _)
    rcases Nat.lt_or_ge (Nat.log2 q) 24 with h3 | h3
    · left
      refine ⟨by omega, lt_of_lt_of_le h1 (Nat.pow_le_pow_right (by norm_num) (by omega))⟩
    · right
      refine ⟨by omega, ?_, ?_⟩
      · rwa [show 23 + (Nat.log2 q - 23) = Nat.log2 q by omega]
      · rwa [show 24 + (Nat.log2 q - 23) = Nat.log2 q + 1 by omega]

/-- The rounding without its ceiling. -/
def roundFree (n d : Nat) : Nat :=
  Nat.log2 (n / d) - 23 |> fun k => k * 2 ^ 23 + roundQuot n (d * 2 ^ k)

theorem roundMag_eq (n d : Nat) : roundMag n d = min (roundFree n d) 0x7F800000 := rfl

theorem roundFree_bounds {n d : Nat} (hd : 0 < d) (m : Nat) :
    (magOfBits m * d ≤ n → m ≤ roundFree n d) ∧ (n ≤ magOfBits m * d → roundFree n d ≤ m) := by
  have hmono := magOfBits_strictMono.monotone
  rcases round_shape (n / d) with ⟨hk, hq⟩ | ⟨hk, hlo, hhi⟩
  · have hR : roundFree n d = roundQuot n d := by simp [roundFree, hk]
    rw [hR]
    constructor
    · intro h
      have h1 : magOfBits m ≤ n / d := (Nat.le_div_iff_mul_le hd).2 h
      rcases Nat.lt_or_ge m (2 ^ 24) with h2 | h2
      · rw [magOfBits_small (by omega)] at h
        exact le_roundQuot hd h
      · have := hmono h2
        rw [magOfBits_small (le_refl _)] at this
        omega
    · intro h
      rcases Nat.lt_or_ge m (2 ^ 24) with h2 | h2
      · rw [magOfBits_small (by omega)] at h
        exact roundQuot_le hd h
      · rcases roundQuot_eq_or n d with h3 | h3 <;> omega
  · generalize hkk : Nat.log2 (n / d) - 23 = k at hk hlo hhi
    have hR : roundFree n d = k * 2 ^ 23 + roundQuot n (d * 2 ^ k) := by simp [roundFree, hkk]
    rw [hR]
    have hp : 0 < 2 ^ k := by positivity
    have hD : 0 < d * 2 ^ k := Nat.mul_pos hd hp
    have hQ : n / (d * 2 ^ k) = n / d / 2 ^ k := (Nat.div_div_eq_div_mul n d (2 ^ k)).symm
    have hQlo : 2 ^ 23 ≤ n / (d * 2 ^ k) := by
      rw [hQ, Nat.le_div_iff_mul_le hp, ← pow_add]; exact hlo
    have hQhi : n / (d * 2 ^ k) < 2 ^ 24 := by
      rw [hQ, Nat.div_lt_iff_lt_mul hp, ← pow_add]; exact hhi
    have hrq := roundQuot_eq_or n (d * 2 ^ k)
    rcases Nat.lt_or_ge m ((k + 1) * 2 ^ 23) with h1 | h1
    · refine ⟨fun _ => by omega, fun h => ?_⟩
      exfalso
      have h2 : magOfBits m < magOfBits (k * 2 ^ 23 + 2 ^ 23) := magOfBits_strictMono (by omega)
      rw [magOfBits_binade k (2 ^ 23) (by omega) (by omega), ← pow_add] at h2
      have h3 : magOfBits m + 1 ≤ n / d := by omega
      have h4 := (Nat.le_div_iff_mul_le hd).1 h3
      nlinarith
    · rcases Nat.lt_or_ge m ((k + 2) * 2 ^ 23) with h2 | h2
      · obtain ⟨f, rfl, hf1, hf2⟩ : ∃ f, m = k * 2 ^ 23 + f ∧ 2 ^ 23 ≤ f ∧ f < 2 ^ 24 :=
          ⟨m - k * 2 ^ 23, by omega, by omega, by omega⟩
        rw [magOfBits_binade k f hf1 hf2, show f * 2 ^ k * d = f * (d * 2 ^ k) by ring]
        exact ⟨fun h => by have := le_roundQuot hD h; omega, fun h => by have := roundQuot_le hD h; omega⟩
      · refine ⟨fun h => ?_, fun _ => by omega⟩
        exfalso
        have h3 := hmono h2
        rw [show (k + 2) * 2 ^ 23 = (k + 1) * 2 ^ 23 + 2 ^ 23 by ring, magOfBits_binade (k + 1) (2 ^ 23) (by omega) (by omega),
          ← pow_add, show 23 + (k + 1) = 24 + k by omega] at h3
        have h4 : magOfBits m ≤ n / d := (Nat.le_div_iff_mul_le hd).2 h
        omega

/-- A representable magnitude at or below the exact one is at or below its rounding. -/
theorem le_roundMag {n d m : Nat} (hd : 0 < d) (hm : m ≤ 0x7F800000) (h : magOfBits m * d ≤ n) : m ≤ roundMag n d := by
  have := (roundFree_bounds hd m).1 h
  rw [roundMag_eq]; omega

/-- A representable magnitude at or above the exact one is at or above its rounding. -/
theorem roundMag_le {n d m : Nat} (hd : 0 < d) (h : n ≤ magOfBits m * d) : roundMag n d ≤ m := by
  have := (roundFree_bounds hd m).2 h
  rw [roundMag_eq]; omega

/-- A representable exact result is not rounded. -/
theorem roundMag_exact {d m : Nat} (hd : 0 < d) (hm : m ≤ 0x7F800000) : roundMag (magOfBits m * d) d = m :=
  le_antisymm (roundMag_le hd (le_refl _)) (le_roundMag hd hm (le_refl _))

theorem roundMag_le_inf (n d : Nat) : roundMag n d ≤ 0x7F800000 := by rw [roundMag_eq]; omega

@[simp] theorem signBit_pack {s : Bool} {m : Nat} (h : m ≤ 0x7F800000) : signBit (pack s m) = s := by
  have : (pack s m).toNat = (if s then 2 ^ 31 else 0) + m := by
    rw [pack, BitVec.toNat_ofNat]; exact Nat.mod_eq_of_lt (by split <;> omega)
  rw [signBit, BitVec.msb_eq_decide, this]
  cases s
  · simp; omega
  · simp

@[simp] theorem magBits_pack {s : Bool} {m : Nat} (h : m ≤ 0x7F800000) : magBits (pack s m) = m := by
  have : (pack s m).toNat = (if s then 2 ^ 31 else 0) + m := by
    rw [pack, BitVec.toNat_ofNat]; exact Nat.mod_eq_of_lt (by split <;> omega)
  rw [magBits, this]
  cases s <;> simp <;> omega

theorem isNaN_pack {s : Bool} {m : Nat} (h : m ≤ 0x7F800000) : isNaN (pack s m) = false := by
  rw [Bool.eq_false_iff, ne_eq, isNaN_iff, magBits_pack h]; omega

/-- The order key is the exact value's place among the representable values. -/
theorem value_eq (x : F32) : value x = if signBit x then -(magOfBits (magBits x) : Int) else magOfBits (magBits x) := by
  rw [value, magnitude_eq]

theorem magOfBits_zero : magOfBits 0 = 0 := by decide

theorem value_le_iff (x y : F32) : value x ≤ value y ↔ orderKey x ≤ orderKey y := by
  have h1 : magOfBits (magBits x) ≤ magOfBits (magBits y) ↔ magBits x ≤ magBits y := magOfBits_strictMono.le_iff_le
  have h2 : magOfBits (magBits y) ≤ magOfBits (magBits x) ↔ magBits y ≤ magBits x := magOfBits_strictMono.le_iff_le
  have h3 : magOfBits (magBits x) = 0 ↔ magBits x = 0 := by
    rw [← magOfBits_zero]; exact magOfBits_strictMono.injective.eq_iff
  have h4 : magOfBits (magBits y) = 0 ↔ magBits y = 0 := by
    rw [← magOfBits_zero]; exact magOfBits_strictMono.injective.eq_iff
  rw [value_eq, value_eq, orderKey, orderKey]
  split <;> split <;> omega

theorem value_lt_iff (x y : F32) : value x < value y ↔ orderKey x < orderKey y := by
  have := value_le_iff y x
  omega

theorem value_inj_iff (x y : F32) : value x = value y ↔ orderKey x = orderKey y := by
  have := value_le_iff y x
  have := value_le_iff x y
  omega

theorem flt_iff {x y : F32} (hx : isFinite x = true) (hy : isFinite y = true) : flt x y = true ↔ value x < value y := by
  simp [flt, isNaN_of_isFinite hx, isNaN_of_isFinite hy, value_lt_iff]

theorem fle_iff {x y : F32} (hx : isFinite x = true) (hy : isFinite y = true) : fle x y = true ↔ value x ≤ value y := by
  simp [fle, isNaN_of_isFinite hx, isNaN_of_isFinite hy, value_le_iff]

theorem feq_iff {x y : F32} (hx : isFinite x = true) (hy : isFinite y = true) : feq x y = true ↔ value x = value y := by
  simp [feq, isNaN_of_isFinite hx, isNaN_of_isFinite hy, value_inj_iff]

@[simp] theorem signBit_fneg (x : F32) : signBit (fneg x) = !signBit x := by
  have h : (0x80000000#32).msb = true := by decide
  simp [signBit, fneg, BitVec.msb_xor, h]

@[simp] theorem magBits_fneg (x : F32) : magBits (fneg x) = magBits x := by
  have h : ∀ y : F32, magBits y = (y.setWidth 31).toNat := fun y => by simp [magBits, BitVec.toNat_setWidth]
  rw [h, h, fneg, BitVec.setWidth_xor]
  simp

@[simp] theorem isFinite_fneg (x : F32) : isFinite (fneg x) = isFinite x := by simp [isFinite, expField_eq]

@[simp] theorem isNaN_fneg (x : F32) : isNaN (fneg x) = isNaN x := by simp [isNaN, expField_eq, fracField_eq]

@[simp] theorem value_fneg (x : F32) : value (fneg x) = -value x := by
  rw [value_eq, value_eq, signBit_fneg, magBits_fneg]
  cases signBit x <;> simp

/-- The signed exact result that `pack s (roundMag n d)` rounds, times d. -/
def signedNat (s : Bool) (n : Nat) : Int := if s then -(n : Int) else n

theorem orderKey_pack {s : Bool} {m : Nat} (h : m ≤ 0x7F800000) : orderKey (pack s m) = signedNat s m := by
  rw [orderKey, signBit_pack h, magBits_pack h, signedNat]

/-- Every rounded result stays at or above each representable value that is at or below the exact result. -/
theorem le_round {s : Bool} {n d : Nat} {l : F32} (hd : 0 < d) (hl : isNaN l = false)
    (h : value l * d ≤ signedNat s n) : orderKey l ≤ orderKey (pack s (roundMag n d)) := by
  have hlm : magBits l ≤ 0x7F800000 := by
    by_contra hc
    have := (isNaN_iff l).2 (by omega)
    simp [this] at hl
  rw [orderKey_pack (roundMag_le_inf n d), orderKey]
  rw [value_eq] at h
  cases s <;> cases hs : signBit l <;> simp only [hs, signedNat, if_true, if_false, Bool.false_eq_true] at h ⊢
  · have := le_roundMag (n := n) hd hlm (by exact_mod_cast h)
    omega
  · omega
  · have h0 : magOfBits (magBits l) * d = 0 ∧ n = 0 := by
      have : (0 : Int) ≤ (magOfBits (magBits l) * d : Nat) := by positivity
      push_cast at this
      refine ⟨?_, by omega⟩
      have h2 : ((magOfBits (magBits l) * d : Nat) : Int) = 0 := by push_cast; omega
      exact_mod_cast h2
    have h1 := le_roundMag (n := n) hd hlm (by omega)
    have h2 := roundMag_le (n := n) (m := 0) hd (by omega)
    omega
  · have := roundMag_le (n := n) (m := magBits l) hd (by
      have : (n : Int) ≤ ((magOfBits (magBits l) * d : Nat) : Int) := by push_cast; linarith
      exact_mod_cast this)
    omega

theorem signedNat_neg (s : Bool) (n : Nat) : signedNat (!s) n = -signedNat s n := by cases s <;> simp [signedNat]

/-- Every rounded result stays at or below each representable value that is at or above the exact result. -/
theorem round_le {s : Bool} {n d : Nat} {u : F32} (hd : 0 < d) (hu : isNaN u = false)
    (h : signedNat s n ≤ value u * d) : orderKey (pack s (roundMag n d)) ≤ orderKey u := by
  have h1 := le_round (s := !s) (n := n) (l := fneg u) hd (by simpa using hu) (by
    rw [signedNat_neg, value_fneg]; linarith)
  rw [orderKey_pack (roundMag_le_inf n d)] at h1 ⊢
  rw [signedNat_neg] at h1
  have : orderKey (fneg u) = -orderKey u := by
    rw [orderKey, orderKey, signBit_fneg, magBits_fneg]; cases signBit u <;> simp
  omega

theorem orderKey_fneg (x : F32) : orderKey (fneg x) = -orderKey x := by
  rw [orderKey, orderKey, signBit_fneg, magBits_fneg]; cases signBit x <;> simp

/-- A sum of finite values is a rounding of the exact sum (an exact zero is a zero). -/
theorem fadd_round {x y : F32} (hx : isFinite x = true) (hy : isFinite y = true) :
    ∃ s n, fadd x y = pack s (roundMag n 1) ∧ signedNat s n = value x + value y := by
  unfold fadd
  simp only [hx, hy, Bool.and_self, if_true]
  split
  · rename_i hz
    have h0 : roundMag 0 1 = 0 := by decide
    cases hs : (signBit x && signBit y)
    · exact ⟨false, 0, by rw [h0]; decide, by simp [signedNat, hz]⟩
    · exact ⟨true, 0, by rw [h0]; decide, by simp [signedNat, hz]⟩
  · refine ⟨_, _, rfl, ?_⟩
    unfold signedNat
    split <;> rename_i h <;> simp only [decide_eq_true_eq] at h <;> omega

theorem fmul_round {x y : F32} (hx : isFinite x = true) (hy : isFinite y = true) :
    ∃ s n, fmul x y = pack s (roundMag n (2 ^ 149)) ∧ signedNat s n = value x * value y := by
  unfold fmul
  simp only [hx, hy, Bool.and_self, if_true]
  refine ⟨_, _, rfl, ?_⟩
  unfold signedNat value
  cases signBit x <;> cases signBit y <;> simp

theorem fdiv_round {x y : F32} (hx : isFinite x = true) (hy : isFinite y = true) (h0 : value y ≠ 0) :
    ∃ s n, fdiv x y = pack s (roundMag n (magnitude y)) ∧ 0 < magnitude y ∧
      signedNat s n = value x * 2 ^ 149 * (if signBit y then -1 else 1) := by
  have hm : magnitude y ≠ 0 := fun hm => h0 (by unfold value; simp [hm])
  have hz : isZero y = false := by
    rw [Bool.eq_false_iff, ne_eq, isZero_iff]
    intro h; apply hm; rw [magnitude_eq, h]; decide
  have hix : isInf x = false := by
    have := (isFinite_iff x).1 hx; simp [isInf, expField_eq]; omega
  have hiy : isInf y = false := by
    have := (isFinite_iff y).1 hy; simp [isInf, expField_eq]; omega
  unfold fdiv
  simp only [isNaN_of_isFinite hx, isNaN_of_isFinite hy, hix, hiy, hz, Bool.or_self, Bool.false_eq_true, if_false]
  refine ⟨_, _, rfl, Nat.pos_of_ne_zero hm, ?_⟩
  unfold signedNat value
  cases signBit x <;> cases signBit y <;> simp

theorem isNaN_fadd {x y : F32} (hx : isFinite x = true) (hy : isFinite y = true) : isNaN (fadd x y) = false := by
  obtain ⟨s, n, h, _⟩ := fadd_round hx hy
  rw [h]; exact isNaN_pack (roundMag_le_inf _ _)

theorem isNaN_fmul {x y : F32} (hx : isFinite x = true) (hy : isFinite y = true) : isNaN (fmul x y) = false := by
  obtain ⟨s, n, h, _⟩ := fmul_round hx hy
  rw [h]; exact isNaN_pack (roundMag_le_inf _ _)

/-- Between finite bounds a value is finite, and the bounds are bounds of its exact value. -/
theorem within_iff {lo r hi : F32} (hl : isFinite lo = true) (hh : isFinite hi = true) :
    within lo r hi = true ↔ isFinite r = true ∧ value lo ≤ value r ∧ value r ≤ value hi := by
  constructor
  · intro h
    have hlm := (isFinite_iff lo).1 hl
    have hhm := (isFinite_iff hi).1 hh
    have hf : isFinite r = true := by
      rw [isFinite_iff]
      simp only [within, fle, Bool.and_eq_true, Bool.not_eq_true', decide_eq_true_eq] at h
      have h2 : ¬ 0x7F800000 < magBits r := fun hc => by
        have := (isNaN_iff r).2 hc
        rw [this] at h; simp at h
      obtain ⟨⟨_, h3⟩, ⟨_, h4⟩⟩ := h
      unfold orderKey at h3 h4
      split at h3 <;> split at h3 <;> split at h4 <;> simp_all <;> omega
    rw [within, Bool.and_eq_true, fle_iff hl hf, fle_iff hf hh] at h
    exact ⟨hf, h⟩
  · rintro ⟨hf, h⟩
    rw [within, Bool.and_eq_true, fle_iff hl hf, fle_iff hf hh]; exact h

theorem within_of_key {lo r hi : F32} (hl : isFinite lo = true) (hh : isFinite hi = true) (hr : isNaN r = false)
    (h1 : orderKey lo ≤ orderKey r) (h2 : orderKey r ≤ orderKey hi) : within lo r hi = true := by
  simp [within, fle, isNaN_of_isFinite hl, isNaN_of_isFinite hh, hr, h1, h2]

/-- Finite bounds of the exact sum are bounds of the rounded sum. -/
theorem within_fadd {lo hi x y : F32} (hx : isFinite x = true) (hy : isFinite y = true) (hl : isFinite lo = true)
    (hh : isFinite hi = true) (h1 : value lo ≤ value x + value y) (h2 : value x + value y ≤ value hi) :
    within lo (fadd x y) hi = true := by
  have hn := isNaN_fadd hx hy
  obtain ⟨s, n, h, hv⟩ := fadd_round hx hy
  refine within_of_key hl hh hn ?_ ?_ <;> rw [h]
  · exact le_round Nat.one_pos (isNaN_of_isFinite hl) (by rw [hv]; simpa using h1)
  · exact round_le Nat.one_pos (isNaN_of_isFinite hh) (by rw [hv]; simpa using h2)

/-- Finite bounds of the exact product are bounds of the rounded product. -/
theorem within_fmul {lo hi x y : F32} (hx : isFinite x = true) (hy : isFinite y = true) (hl : isFinite lo = true)
    (hh : isFinite hi = true) (h1 : value lo * 2 ^ 149 ≤ value x * value y) (h2 : value x * value y ≤ value hi * 2 ^ 149) :
    within lo (fmul x y) hi = true := by
  have hn := isNaN_fmul hx hy
  obtain ⟨s, n, h, hv⟩ := fmul_round hx hy
  refine within_of_key hl hh hn ?_ ?_ <;> rw [h]
  · exact le_round (by positivity) (isNaN_of_isFinite hl) (by rw [hv]; push_cast; exact h1)
  · exact round_le (by positivity) (isNaN_of_isFinite hh) (by rw [hv]; push_cast; exact h2)

/-- Finite bounds of the exact quotient by a positive value are bounds of the rounded quotient. -/
theorem within_fdiv {lo hi x y : F32} (hx : isFinite x = true) (hy : isFinite y = true) (hl : isFinite lo = true)
    (hh : isFinite hi = true) (h0 : 0 < value y) (h1 : value lo * value y ≤ value x * 2 ^ 149)
    (h2 : value x * 2 ^ 149 ≤ value hi * value y) : within lo (fdiv x y) hi = true := by
  obtain ⟨s, n, h, hp, hv⟩ := fdiv_round hx hy (by omega)
  have hs : signBit y = false := by
    by_contra hc
    have : value y = -(magnitude y : Int) := by unfold value; simp [hc]
    omega
  have hm : value y = (magnitude y : Int) := by unfold value; simp [hs]
  simp only [hs, Bool.false_eq_true, if_false, mul_one] at hv
  have hn : isNaN (fdiv x y) = false := by rw [h]; exact isNaN_pack (roundMag_le_inf _ _)
  refine within_of_key hl hh hn ?_ ?_ <;> rw [h]
  · exact le_round hp (isNaN_of_isFinite hl) (by rw [hv, ← hm]; exact h1)
  · exact round_le hp (isNaN_of_isFinite hh) (by rw [hv, ← hm]; exact h2)

/-- A significand of at most 24 bits, at any place up to the top binade, is representable. -/
theorem representable (k : Nat) : ∀ f : Nat, f < 2 ^ 24 → k ≤ 252 → ∃ m, m < 0x7F800000 ∧ magOfBits m = f * 2 ^ k := by
  induction k with
  | zero => intro f hf _; exact ⟨f, by omega, by rw [magOfBits_small (by omega)]; simp⟩
  | succ k ih =>
    intro f hf hk
    rcases Nat.lt_or_ge f (2 ^ 23) with h | h
    · obtain ⟨m, hm, he⟩ := ih (2 * f) (by omega) (by omega)
      exact ⟨m, hm, by rw [he, pow_succ]; ring⟩
    · exact ⟨(k + 1) * 2 ^ 23 + f, by omega, magOfBits_binade (k + 1) f h hf⟩

/-- A signed significand of at most 24 bits is the exact value of some finite pattern. -/
theorem representable_value (z : Int) (k : Nat) (hz : z.natAbs < 2 ^ 24) (hk : k ≤ 252) :
    ∃ r : F32, isFinite r = true ∧ value r = z * 2 ^ k := by
  obtain ⟨m, hm, he⟩ := representable k z.natAbs hz hk
  refine ⟨pack (decide (z < 0)) m, ?_, ?_⟩
  · rw [isFinite_iff, magBits_pack (by omega)]; exact hm
  · rw [value_eq, signBit_pack (by omega), magBits_pack (by omega), he]
    by_cases h : z < 0
    · simp only [h, decide_true, if_true]
      push_cast
      rw [abs_of_neg h]; ring
    · simp only [h, decide_false, Bool.false_eq_true, if_false]
      push_cast
      rw [abs_of_nonneg (by omega)]

/-- A representable exact sum is not rounded. -/
theorem fadd_exact {x y r : F32} (hx : isFinite x = true) (hy : isFinite y = true) (hr : isFinite r = true)
    (h : value r = value x + value y) : isFinite (fadd x y) = true ∧ value (fadd x y) = value x + value y := by
  have hw := within_fadd (lo := r) (hi := r) hx hy hr hr (by omega) (by omega)
  rw [within_iff hr hr] at hw
  exact ⟨hw.1, by omega⟩

/-- A representable exact product is not rounded. -/
theorem fmul_exact {x y r : F32} (hx : isFinite x = true) (hy : isFinite y = true) (hr : isFinite r = true)
    (h : value r * 2 ^ 149 = value x * value y) : isFinite (fmul x y) = true ∧ value (fmul x y) = value r := by
  have hw := within_fmul (lo := r) (hi := r) hx hy hr hr (by omega) (by omega)
  rw [within_iff hr hr] at hw
  exact ⟨hw.1, by omega⟩

end Sys2Proof.Machine
end

