-- ==== Sys2Proof/Laws/Kernel.lean ====
section
/-! SUPPORT. The kernels against their exact polynomials: what one rounding may add to an error, the taps of both kernels near
the polynomials of 41_correction_injector.md R88 and R91, and the default as one lawful ramp kernel. -/

namespace Sys2Proof.Machine

/-- x is finite and within e of r. -/
def Near (x : F32) (r e : ℚ) : Prop := isFinite x = true ∧ |exactly x - r| ≤ e

/-- The error one rounding of a result of magnitude at most 3 may add. -/
def ulp3 : ℚ := 1 / 2 ^ 22

theorem Near.mono {x : F32} {r e f : ℚ} (h : Near x r e) (hef : e ≤ f) : Near x r f := ⟨h.1, h.2.trans hef⟩

theorem near_self {x : F32} (h : isFinite x = true) : Near x (exactly x) 0 := ⟨h, by simp⟩

/-- A constant is near every number it is within e of. -/
theorem near_const (x : F32) (r : ℚ) (e : ℚ) (h : isFinite x = true) (hl : r - e ≤ exactly x) (hu : exactly x ≤ r + e) :
    Near x r e := ⟨h, by rw [abs_le]; constructor <;> linarith⟩

theorem exactly_le_iff (x y : F32) : exactly x ≤ exactly y ↔ value x ≤ value y := by
  unfold exactly
  rw [div_le_div_iff_of_pos_right (by positivity)]
  exact_mod_cast Iff.rfl

theorem value_eq_exactly (x : F32) : (value x : ℚ) = exactly x * 2 ^ 149 := by
  unfold exactly; field_simp

@[simp] theorem exactly_fneg (x : F32) : exactly (fneg x) = -exactly x := by
  unfold exactly; rw [value_fneg]; push_cast; ring

/-- Every number of magnitude at most 3 lies between two representable ones 2^-22 apart. -/
theorem exists_grid (z : ℚ) (hz : |z| ≤ 3) :
    ∃ lo hi : F32, isFinite lo = true ∧ isFinite hi = true ∧ exactly lo ≤ z ∧ z ≤ exactly hi ∧
      exactly hi - exactly lo ≤ ulp3 := by
  have hk := Int.floor_le (z * 2 ^ 22)
  have hk' := Int.lt_floor_add_one (z * 2 ^ 22)
  rw [abs_le] at hz
  have h1 : ⌊z * 2 ^ 22⌋ ≤ 3 * 2 ^ 22 := by
    have : (⌊z * 2 ^ 22⌋ : ℚ) ≤ ((3 * 2 ^ 22 : ℤ) : ℚ) := by push_cast; linarith
    exact_mod_cast this
  have h2 : -(3 * 2 ^ 22) - 1 < ⌊z * 2 ^ 22⌋ := by
    have : ((-(3 * 2 ^ 22) - 1 : ℤ) : ℚ) < ⌊z * 2 ^ 22⌋ := by push_cast; linarith
    exact_mod_cast this
  generalize ⌊z * 2 ^ 22⌋ = k at *
  obtain ⟨lo, hlf, hlv⟩ := representable_value k 127 (by omega) (by norm_num)
  obtain ⟨hi, hhf, hhv⟩ := representable_value (k + 1) 127 (by omega) (by norm_num)
  have el : exactly lo = k / 2 ^ 22 := by unfold exactly; rw [hlv]; push_cast; ring
  have eh : exactly hi = (k + 1) / 2 ^ 22 := by unfold exactly; rw [hhv]; push_cast; ring
  refine ⟨lo, hi, hlf, hhf, ?_, ?_, ?_⟩
  · rw [el, div_le_iff₀ (by positivity)]; exact hk
  · rw [eh, le_div_iff₀ (by positivity)]; exact hk'.le
  · rw [el, eh, ulp3]; exact le_of_eq (by ring)

/-- A result that stays between every two finite bounds of an exact number is near it. -/
theorem near_of_between {r : F32} {z : ℚ} (hz : |z| ≤ 3)
    (h : ∀ lo hi : F32, isFinite lo = true → isFinite hi = true → exactly lo ≤ z → z ≤ exactly hi → within lo r hi = true) :
    Near r z ulp3 := by
  obtain ⟨lo, hi, hl, hh, h1, h2, h3⟩ := exists_grid z hz
  have hw := (within_iff hl hh).1 (h lo hi hl hh h1 h2)
  rw [← exactly_le_iff, ← exactly_le_iff] at hw
  exact ⟨hw.1, by rw [abs_le]; constructor <;> linarith [hw.2.1, hw.2.2]⟩

theorem fadd_rounds {x y : F32} (hx : isFinite x = true) (hy : isFinite y = true) (hz : |exactly x + exactly y| ≤ 3) :
    Near (fadd x y) (exactly x + exactly y) ulp3 := by
  refine near_of_between hz fun lo hi hl hh h1 h2 => within_fadd hx hy hl hh ?_ ?_
  · have : (value lo : ℚ) ≤ value x + value y := by simp only [value_eq_exactly]; nlinarith
    exact_mod_cast this
  · have : (value x : ℚ) + value y ≤ value hi := by simp only [value_eq_exactly]; nlinarith
    exact_mod_cast this

theorem fmul_rounds {x y : F32} (hx : isFinite x = true) (hy : isFinite y = true) (hz : |exactly x * exactly y| ≤ 3) :
    Near (fmul x y) (exactly x * exactly y) ulp3 := by
  refine near_of_between hz fun lo hi hl hh h1 h2 => within_fmul hx hy hl hh ?_ ?_
  · have : (value lo : ℚ) * 2 ^ 149 ≤ value x * value y := by
      simp only [value_eq_exactly]
      nlinarith [mul_le_mul_of_nonneg_right h1 (by positivity : (0 : ℚ) ≤ 2 ^ 298)]
    exact_mod_cast this
  · have : (value x : ℚ) * value y ≤ value hi * 2 ^ 149 := by
      simp only [value_eq_exactly]
      nlinarith [mul_le_mul_of_nonneg_right h2 (by positivity : (0 : ℚ) ≤ 2 ^ 298)]
    exact_mod_cast this

theorem fdiv_rounds {x y : F32} (hx : isFinite x = true) (hy : isFinite y = true) (h0 : 0 < exactly y)
    (hz : |exactly x / exactly y| ≤ 3) : Near (fdiv x y) (exactly x / exactly y) ulp3 := by
  have hv : 0 < value y := by
    have : (0 : ℚ) < value y := by rw [value_eq_exactly]; positivity
    exact_mod_cast this
  refine near_of_between hz fun lo hi hl hh h1 h2 => within_fdiv hx hy hl hh hv ?_ ?_
  · rw [le_div_iff₀ h0] at h1
    have : (value lo : ℚ) * value y ≤ value x * 2 ^ 149 := by
      simp only [value_eq_exactly]
      nlinarith [mul_le_mul_of_nonneg_right h1 (by positivity : (0 : ℚ) ≤ 2 ^ 298)]
    exact_mod_cast this
  · rw [div_le_iff₀ h0] at h2
    have : (value x : ℚ) * 2 ^ 149 ≤ value hi * value y := by
      simp only [value_eq_exactly]
      nlinarith [mul_le_mul_of_nonneg_right h2 (by positivity : (0 : ℚ) ≤ 2 ^ 298)]
    exact_mod_cast this

/-- The errors of a sum's operands add up, and its rounding adds one more. -/
theorem Near.fadd {x y : F32} {r s e f : ℚ} (hx : Near x r e) (hy : Near y s f) (hb : |r + s| + (e + f) ≤ 3) :
    Near (fadd x y) (r + s) (e + f + ulp3) := by
  have h : |exactly x + exactly y - (r + s)| ≤ e + f := by
    rw [show exactly x + exactly y - (r + s) = (exactly x - r) + (exactly y - s) by ring]
    exact (abs_add_le _ _).trans (add_le_add hx.2 hy.2)
  have h3 : |exactly x + exactly y| ≤ 3 := by
    have := abs_add_le (exactly x + exactly y - (r + s)) (r + s)
    rw [sub_add_cancel] at this
    linarith
  obtain ⟨h1, h2⟩ := fadd_rounds hx.1 hy.1 h3
  refine ⟨h1, ?_⟩
  have := abs_add_le (exactly (Machine.fadd x y) - (exactly x + exactly y)) (exactly x + exactly y - (r + s))
  rw [sub_add_sub_cancel] at this
  linarith

theorem Near.fneg {x : F32} {r e : ℚ} (hx : Near x r e) : Near (fneg x) (-r) e :=
  ⟨by simpa using hx.1, by rw [exactly_fneg, neg_sub_neg, abs_sub_comm]; exact hx.2⟩

theorem Near.fsub {x y : F32} {r s e f : ℚ} (hx : Near x r e) (hy : Near y s f) (hb : |r - s| + (e + f) ≤ 3) :
    Near (fsub x y) (r - s) (e + f + ulp3) := by
  have := hx.fadd hy.fneg (by rwa [← sub_eq_add_neg])
  rwa [← sub_eq_add_neg] at this

/-- A product of operands near numbers in [-1, 1]. -/
theorem Near.fmul {x y : F32} {r s e f : ℚ} (hx : Near x r e) (hy : Near y s f) (hr : |r| ≤ 1) (hs : |s| ≤ 1) (he : e ≤ 1 / 2)
    (hf : f ≤ 1 / 2) : Near (fmul x y) (r * s) (e + 2 * f + ulp3) := by
  have e0 : 0 ≤ e := (abs_nonneg _).trans hx.2
  have f0 : 0 ≤ f := (abs_nonneg _).trans hy.2
  have h : |exactly x * exactly y - r * s| ≤ e + 2 * f := by
    rw [show exactly x * exactly y - r * s =
      (exactly x - r) * s + (r * (exactly y - s) + (exactly x - r) * (exactly y - s)) by ring]
    have h1 : |(exactly x - r) * s| ≤ e := by rw [abs_mul]; nlinarith [hx.2, abs_nonneg s, abs_nonneg (exactly x - r)]
    have h2 : |r * (exactly y - s)| ≤ f := by rw [abs_mul]; nlinarith [hy.2, abs_nonneg r, abs_nonneg (exactly y - s)]
    have h3 : |(exactly x - r) * (exactly y - s)| ≤ f := by
      rw [abs_mul]; nlinarith [hx.2, hy.2, abs_nonneg (exactly x - r), abs_nonneg (exactly y - s)]
    linarith [abs_add_le ((exactly x - r) * s) (r * (exactly y - s) + (exactly x - r) * (exactly y - s)),
      abs_add_le (r * (exactly y - s)) ((exactly x - r) * (exactly y - s))]
  have hrs : |r * s| ≤ 1 := by rw [abs_mul]; nlinarith [abs_nonneg r, abs_nonneg s]
  have h3 : |exactly x * exactly y| ≤ 3 := by
    have := abs_add_le (exactly x * exactly y - r * s) (r * s)
    rw [sub_add_cancel] at this
    linarith
  obtain ⟨h1, h2⟩ := fmul_rounds hx.1 hy.1 h3
  refine ⟨h1, ?_⟩
  have := abs_add_le (exactly (Machine.fmul x y) - exactly x * exactly y) (exactly x * exactly y - r * s)
  rw [sub_add_sub_cancel] at this
  linarith

/-- A quotient by a constant of at least 1. -/
theorem Near.fdiv {x y : F32} {r e : ℚ} (c : ℚ) (hx : Near x r e) (hy : isFinite y = true) (hc : exactly y = c) (h1 : 1 ≤ c)
    (hr : |r| ≤ 2) (he : e ≤ 1) : Near (fdiv x y) (r / c) (e + ulp3) := by
  have c0 : 0 < c := by linarith
  have e0 : 0 ≤ e := (abs_nonneg _).trans hx.2
  have h : |exactly x / c - r / c| ≤ e := by
    rw [← sub_div, abs_div, abs_of_pos c0, div_le_iff₀ c0]; nlinarith [hx.2]
  have hr' : |r / c| ≤ 2 := by rw [abs_div, abs_of_pos c0, div_le_iff₀ c0]; nlinarith
  have h3 : |exactly x / c| ≤ 3 := by
    have := abs_add_le (exactly x / c - r / c) (r / c)
    rw [sub_add_cancel] at this
    linarith
  obtain ⟨h4, h5⟩ := fdiv_rounds hx.1 hy (by rw [hc]; exact c0) (by rw [hc]; exact h3)
  rw [hc] at h5
  refine ⟨h4, ?_⟩
  have := abs_add_le (exactly (Machine.fdiv x y) - exactly x / c) (exactly x / c - r / c)
  rw [sub_add_sub_cancel] at this
  linarith

/-! ### The constants -/

theorem exactly_one : exactly one = 1 := by unfold exactly; rw [show value one = 2 ^ 149 by decide]; norm_num

theorem exactly_posZero : exactly posZero = 0 := by unfold exactly; rw [show value posZero = 0 by decide]; norm_num

/-- A crossing fraction is a number in [0, 1]. -/
theorem fraction_bounds {d : F32} (h : within posZero d one = true) :
    isFinite d = true ∧ 0 ≤ exactly d ∧ exactly d ≤ 1 := by
  have := (within_iff (by decide) (by decide)).1 h
  rw [← exactly_le_iff, ← exactly_le_iff, exactly_posZero, exactly_one] at this
  exact this

/-- What a constant's bits stand for. -/
theorem exactly_const (x : F32) (z : Int) (k : Nat) (h : value x * 2 ^ k = z * 2 ^ 149) : exactly x = z / 2 ^ k := by
  unfold exactly
  rw [div_eq_div_iff (by positivity) (by positivity)]
  exact_mod_cast h

theorem exactly_half : exactly half = 1 / 2 := exactly_const half 1 1 (by decide)
theorem exactly_two : exactly two = 2 := by simpa using exactly_const two 2 0 (by decide)
theorem exactly_three : exactly three = 3 := by simpa using exactly_const three 3 0 (by decide)
theorem exactly_four : exactly four = 4 := by simpa using exactly_const four 4 0 (by decide)
theorem exactly_six : exactly six = 6 := by simpa using exactly_const six 6 0 (by decide)
theorem exactly_eight : exactly eight = 8 := by simpa using exactly_const eight 8 0 (by decide)
theorem exactly_twelve : exactly twelve = 12 := by simpa using exactly_const twelve 12 0 (by decide)
theorem exactly_twentyFour : exactly twentyFour = 24 := by simpa using exactly_const twentyFour 24 0 (by decide)
theorem exactly_forty : exactly forty = 40 := by simpa using exactly_const forty 40 0 (by decide)
theorem exactly_hundredTwenty : exactly hundredTwenty = 120 := by simpa using exactly_const hundredTwenty 120 0 (by decide)
theorem exactly_eighth : exactly eighth = 1 / 8 := by
  rw [exactly_const eighth 1 3 (by decide)]; norm_num

/-- K(r) is near r. -/
theorem near_K (x : F32) (r : ℚ) (z : Int) (k : Nat) (hf : isFinite x = true) (h : value x * 2 ^ k = z * 2 ^ 149)
    (hl : r - ulp3 ≤ z / 2 ^ k) (hu : (z : ℚ) / 2 ^ k ≤ r + ulp3) : Near x r ulp3 :=
  near_const x r ulp3 hf (by rw [exactly_const x z k h]; exact hl) (by rw [exactly_const x z k h]; exact hu)

theorem near_k1over24 : Near k1over24 (1 / 24) ulp3 :=
  near_K _ _ 11184811 28 (by decide) (by decide) (by norm_num [ulp3]) (by norm_num [ulp3])
theorem near_k1over3 : Near k1over3 (1 / 3) ulp3 :=
  near_K _ _ 11184811 25 (by decide) (by decide) (by norm_num [ulp3]) (by norm_num [ulp3])
theorem near_k2over3 : Near k2over3 (2 / 3) ulp3 :=
  near_K _ _ 11184811 24 (by decide) (by decide) (by norm_num [ulp3]) (by norm_num [ulp3])
theorem near_k7over30 : Near k7over30 (7 / 30) ulp3 :=
  near_K _ _ 15658735 26 (by decide) (by decide) (by norm_num [ulp3]) (by norm_num [ulp3])
theorem near_k1over120 : Near k1over120 (1 / 120) ulp3 :=
  near_K _ _ 8947849 30 (by decide) (by decide) (by norm_num [ulp3]) (by norm_num [ulp3])

/-! ### The powers of a crossing fraction -/

theorem pow_unit {D : ℚ} (h0 : 0 ≤ D) (h1 : D ≤ 1) (k : Nat) : 0 ≤ D ^ k ∧ D ^ k ≤ 1 := ⟨by positivity, pow_le_one₀ h0 h1⟩

theorem abs_unit {r : ℚ} (h : 0 ≤ r ∧ r ≤ 1) : |r| ≤ 1 := by rw [abs_le]; constructor <;> linarith

/-- d2, d3, d4 and d5 of R88 and R91. -/
theorem near_powers {d : F32} {D : ℚ} (hd : Near d D 0) (h0 : 0 ≤ D) (h1 : D ≤ 1) :
    Near (fmul d d) (D ^ 2) ulp3 ∧ Near (fmul d (fmul d d)) (D ^ 3) (3 * ulp3) ∧
    Near (fmul d (fmul d (fmul d d))) (D ^ 4) (7 * ulp3) ∧
    Near (fmul d (fmul d (fmul d (fmul d d)))) (D ^ 5) (15 * ulp3) := by
  have u : ulp3 = 1 / 2 ^ 22 := rfl
  have step : ∀ (x : F32) (k : Nat) (e f : ℚ), Near x (D ^ k) e → e ≤ 1 / 2 → 0 + 2 * e + ulp3 ≤ f → Near (fmul d x) (D ^ (k + 1)) f :=
    fun x k e f h he hf => by
      have := (hd.fmul h (abs_unit ⟨h0, h1⟩) (abs_unit (pow_unit h0 h1 k)) (by norm_num) he).mono hf
      rwa [← pow_succ'] at this
  have p1 : Near d (D ^ 1) 0 := by rwa [pow_one]
  have p2 := step d 1 0 ulp3 p1 (by norm_num) (by norm_num)
  have p3 := step _ 2 _ (3 * ulp3) p2 (by norm_num [u]) (by linarith)
  have p4 := step _ 3 _ (7 * ulp3) p3 (by norm_num [u]) (by linarith)
  exact ⟨p2, p3, p4, step _ 4 _ (15 * ulp3) p4 (by norm_num [u]) (by linarith)⟩

/-- Adding near numbers whose sum is small, with the error named. -/
theorem Near.add' {x y : F32} {r s e f : ℚ} (g : ℚ) (hx : Near x r e) (hy : Near y s f) (hl : -2 ≤ r + s) (hu : r + s ≤ 2)
    (hg : e + f + ulp3 ≤ g) (h1 : g ≤ 1) : Near (Machine.fadd x y) (r + s) g := by
  have : (0 : ℚ) ≤ ulp3 := by norm_num [ulp3]
  refine (hx.fadd hy ?_).mono hg
  have : |r + s| ≤ 2 := abs_le.2 ⟨hl, hu⟩
  linarith

theorem Near.sub' {x y : F32} {r s e f : ℚ} (g : ℚ) (hx : Near x r e) (hy : Near y s f) (hl : -2 ≤ r - s) (hu : r - s ≤ 2)
    (hg : e + f + ulp3 ≤ g) (h1 : g ≤ 1) : Near (Machine.fsub x y) (r - s) g := by
  have := hx.add' g hy.fneg (by linarith) (by linarith) hg h1
  rwa [← sub_eq_add_neg] at this

theorem Near.mul' {x y : F32} {r s e f : ℚ} (g : ℚ) (hx : Near x r e) (hy : Near y s f) (hr : |r| ≤ 1) (hs : |s| ≤ 1)
    (hg : e + 2 * f + ulp3 ≤ g) (h1 : g ≤ 1 / 2) : Near (Machine.fmul x y) (r * s) g := by
  have : (0 : ℚ) ≤ ulp3 := by norm_num [ulp3]
  have e0 : 0 ≤ e := (abs_nonneg _).trans hx.2
  have f0 : 0 ≤ f := (abs_nonneg _).trans hy.2
  exact (hx.fmul hy hr hs (by linarith) (by linarith)).mono hg

theorem Near.div' {x y : F32} {r e : ℚ} (c g : ℚ) (hx : Near x r e) (hy : isFinite y = true) (hc : exactly y = c) (h1 : 1 ≤ c)
    (hl : -2 ≤ r) (hu : r ≤ 2) (hg : e + ulp3 ≤ g) (h2 : g ≤ 1) : Near (Machine.fdiv x y) (r / c) g := by
  have : (0 : ℚ) ≤ ulp3 := by norm_num [ulp3]
  exact (hx.fdiv c hy hc h1 (abs_le.2 ⟨hl, hu⟩) (by linarith)).mono hg

/-! ### The step kernel -/

/-- E0..E3 of R88 in exact arithmetic. -/
def stepExact0 (d : ℚ) : ℚ := -(1 / 24 + d ^ 2 / 4) + (d + d ^ 3) / 6 - 1 / 24 * d ^ 4
def stepExact1 (d : ℚ) : ℚ := -(1 / 2) + 2 / 3 * d - 1 / 3 * d ^ 3 + 1 / 8 * d ^ 4
def stepExact2 (d : ℚ) : ℚ := 1 / 24 + d ^ 2 / 4 + (d + d ^ 3) / 6 - d ^ 4 / 8
def stepExact3 (d : ℚ) : ℚ := 1 / 24 * d ^ 4

/-- The step kernel's taps are near its exact polynomials. -/
theorem stepKernel_near {d : F32} (h : within posZero d one = true) :
    Near (stepKernel d).t0 (stepExact0 (exactly d)) (1 / 1024) ∧ Near (stepKernel d).t1 (stepExact1 (exactly d)) (1 / 1024) ∧
    Near (stepKernel d).t2 (stepExact2 (exactly d)) (1 / 1024) ∧ Near (stepKernel d).t3 (stepExact3 (exactly d)) (1 / 1024) := by
  obtain ⟨hf, h0, h1⟩ := fraction_bounds h
  have hd := near_self hf
  generalize exactly d = D at *
  obtain ⟨p2, p3, p4, _⟩ := near_powers hd h0 h1
  have b2 := pow_unit h0 h1 2
  have b3 := pow_unit h0 h1 3
  have b4 := pow_unit h0 h1 4
  have u : ulp3 = 1 / 2 ^ 22 := rfl
  have a := near_k1over24.add' (4 * ulp3) (p2.div' 4 (2 * ulp3) (by decide) exactly_four (by norm_num) (by linarith) (by linarith)
    (by linarith) (by norm_num [u])) (by linarith) (by linarith) (by linarith) (by norm_num [u])
  have b := (hd.add' (4 * ulp3) p3 (by linarith) (by linarith) (by linarith) (by norm_num [u])).div' 6 (5 * ulp3) (by decide)
    exactly_six (by norm_num) (by linarith) (by linarith) (by linarith) (by norm_num [u])
  have k24 := near_k1over24.mul' (16 * ulp3) p4 (by norm_num) (abs_unit b4) (by linarith) (by norm_num [u])
  have k23 := near_k2over3.mul' (2 * ulp3) hd (by norm_num) (abs_unit ⟨h0, h1⟩) (by linarith) (by norm_num [u])
  have k3 := near_k1over3.mul' (8 * ulp3) p3 (by norm_num) (abs_unit b3) (by linarith) (by norm_num [u])
  have k8 := (near_const eighth (1 / 8) 0 (by decide) (by rw [exactly_eighth]; norm_num) (by rw [exactly_eighth]; norm_num)).mul'
    (15 * ulp3) p4 (by norm_num) (abs_unit b4) (by linarith) (by norm_num [u])
  have mh := (near_const half (1 / 2) 0 (by decide) (by rw [exactly_half]; norm_num) (by rw [exactly_half]; norm_num)).fneg
  have small : 40 * ulp3 ≤ 1 / 1024 := by norm_num [u]
  refine ⟨?_, ?_, ?_, k24.mono (by linarith)⟩
  · exact (((a.fneg.add' (10 * ulp3) b (by linarith) (by linarith) (by linarith) (by norm_num [u])).sub' (40 * ulp3) k24
      (by linarith) (by linarith) (by linarith) (by norm_num [u]))).mono small
  · exact ((((mh.add' (3 * ulp3) k23 (by linarith) (by linarith) (by linarith) (by norm_num [u])).sub' (12 * ulp3) k3
      (by linarith) (by linarith) (by linarith) (by norm_num [u])).add' (40 * ulp3) k8 (by linarith) (by linarith) (by linarith)
      (by norm_num [u]))).mono small
  · exact ((a.add' (10 * ulp3) b (by linarith) (by linarith) (by linarith) (by norm_num [u])).sub' (40 * ulp3)
      (p4.div' 8 (8 * ulp3) (by decide) exactly_eight (by norm_num) (by linarith) (by linarith) (by linarith) (by norm_num [u]))
      (by linarith) (by linarith) (by linarith) (by norm_num [u])).mono small

/-! ### The default ramp kernel -/

/-- The default's taps evaluate its polynomials. -/
theorem rampKernelDefault_evaluates : rampPolynomialsDefault.EvaluatedBy rampKernelDefault := by
  intro d h
  obtain ⟨hf, h0, h1⟩ := fraction_bounds h
  have hd := near_self hf
  generalize exactly d = D at *
  obtain ⟨p2, p3, p4, p5⟩ := near_powers hd h0 h1
  have b2 := pow_unit h0 h1 2
  have b3 := pow_unit h0 h1 3
  have b4 := pow_unit h0 h1 4
  have b5 := pow_unit h0 h1 5
  have u : ulp3 = 1 / 2 ^ 22 := rfl
  have one' : Near one 1 0 := by simpa [exactly_one] using near_self (x := one) (by decide)
  have c0 : 0 ≤ 1 - D := by linarith
  have c1 : 1 - D ≤ 1 := by linarith
  have be := fun k => pow_unit c0 c1 k
  have e := one'.sub' ulp3 hd (by linarith) (by linarith) (by linarith) (by norm_num [u])
  have e2 := e.mul' (4 * ulp3) e (abs_unit ⟨c0, c1⟩) (abs_unit ⟨c0, c1⟩) (by linarith) (by norm_num [u])
  rw [← pow_two] at e2
  have e4 := e2.mul' (13 * ulp3) e2 (abs_unit (be 2)) (abs_unit (be 2)) (by linarith) (by norm_num [u])
  rw [← pow_add] at e4
  have e5 := e4.mul' (16 * ulp3) e (abs_unit (be 4)) (abs_unit ⟨c0, c1⟩) (by linarith) (by norm_num [u])
  rw [← pow_succ] at e5
  have small : 40 * ulp3 ≤ 1 / 1024 := by norm_num [u]
  have near : ∀ {t : F32} {r s : ℚ}, Near t r (40 * ulp3) → r = s → TapNear t s := by
    rintro t r s ⟨hn, ht⟩ rfl
    rw [abs_le] at ht
    exact ⟨hn, by linarith, by linarith⟩
  have d2 := hd.div' 2 ulp3 (by decide) exactly_two (by norm_num) (by linarith) (by linarith) (by linarith) (by norm_num [u])
  have d24 := hd.div' 24 ulp3 (by decide) exactly_twentyFour (by norm_num) (by linarith) (by linarith) (by linarith)
    (by norm_num [u])
  have p23 := p2.div' 3 (2 * ulp3) (by decide) exactly_three (by norm_num) (by linarith) (by linarith) (by linarith)
    (by norm_num [u])
  have p212 := p2.div' 12 (2 * ulp3) (by decide) exactly_twelve (by norm_num) (by linarith) (by linarith) (by linarith)
    (by norm_num [u])
  have p312 := p3.div' 12 (4 * ulp3) (by decide) exactly_twelve (by norm_num) (by linarith) (by linarith) (by linarith)
    (by norm_num [u])
  have p412 := p4.div' 12 (8 * ulp3) (by decide) exactly_twelve (by norm_num) (by linarith) (by linarith) (by linarith)
    (by norm_num [u])
  have p424 := p4.div' 24 (8 * ulp3) (by decide) exactly_twentyFour (by norm_num) (by linarith) (by linarith) (by linarith)
    (by norm_num [u])
  have p540 := p5.div' 40 (16 * ulp3) (by decide) exactly_forty (by norm_num) (by linarith) (by linarith) (by linarith)
    (by norm_num [u])
  refine ⟨?_, ?_, ?_, ?_⟩
  · exact near ((e5.div' 120 (40 * ulp3) (by decide) exactly_hundredTwenty (by norm_num) (by linarith [(be (2 + 2 + 1)).1])
      (by linarith [(be (2 + 2 + 1)).2])
      (by linarith) (by norm_num [u]))) (by simp only [rampPolynomialsDefault, Quintic.eval]; ring)
  · exact near ((((near_k7over30.sub' (3 * ulp3) d2 (by linarith) (by linarith) (by linarith) (by norm_num [u])).add' (6 * ulp3) p23
      (by linarith) (by linarith) (by linarith) (by norm_num [u])).sub' (15 * ulp3) p412 (by linarith) (by linarith) (by linarith)
      (by norm_num [u])).add' (40 * ulp3) p540 (by linarith) (by linarith) (by linarith) (by norm_num [u]))
      (by simp only [rampPolynomialsDefault, Quintic.eval]; ring)
  · exact near (((((near_k1over120.add' (3 * ulp3) d24 (by linarith) (by linarith) (by linarith) (by norm_num [u])).add'
      (6 * ulp3) p212 (by linarith) (by linarith) (by linarith) (by norm_num [u])).add' (11 * ulp3) p312 (by linarith) (by linarith)
      (by linarith) (by norm_num [u])).add' (20 * ulp3) p424 (by linarith) (by linarith) (by linarith) (by norm_num [u])).sub'
      (40 * ulp3) p540 (by linarith) (by linarith) (by linarith) (by norm_num [u]))
      (by simp only [rampPolynomialsDefault, Quintic.eval]; ring)
  · exact near (p5.div' 120 (40 * ulp3) (by decide) exactly_hundredTwenty (by norm_num) (by linarith) (by linarith)
      (by linarith) (by norm_num [u])) (by simp only [rampPolynomialsDefault, Quintic.eval]; ring)

/-- The default's polynomials have the properties of R92. -/
theorem rampPolynomialsDefault_lawful : rampPolynomialsDefault.Lawful where
  degree := by simp only [rampPolynomialsDefault]; norm_num
  sum d := by simp only [rampPolynomialsDefault, Quintic.eval]; ring
  mirror d := by simp only [rampPolynomialsDefault, Quintic.eval]; constructor <;> ring
  range d h0 h1 := by
    have low : ∀ x : ℚ, 0 ≤ x → x ≤ 1 → 0 ≤ rampPolynomialsDefault.q2.eval x := fun x x0 x1 => by
      have := mul_nonneg (pow_nonneg x0 4) (by linarith : (0 : ℚ) ≤ 1 - x)
      simp only [rampPolynomialsDefault, Quintic.eval]
      nlinarith [pow_nonneg x0 2, pow_nonneg x0 3, pow_nonneg x0 4]
    have high : ∀ x : ℚ, 0 ≤ x → x ≤ 1 → rampPolynomialsDefault.q1.eval x ≤ 7 / 30 := fun x x0 x1 => by
      have := mul_nonneg (pow_nonneg x0 4) (by linarith : (0 : ℚ) ≤ 1 - x)
      have := mul_nonneg x0 (by linarith : (0 : ℚ) ≤ 1 - x)
      simp only [rampPolynomialsDefault, Quintic.eval]
      nlinarith [pow_nonneg x0 4]
    have m1 : ∀ x : ℚ, rampPolynomialsDefault.q1.eval x = rampPolynomialsDefault.q2.eval (1 - x) := fun x => by
      simp only [rampPolynomialsDefault, Quintic.eval]; ring
    have m2 : ∀ x : ℚ, rampPolynomialsDefault.q2.eval x = rampPolynomialsDefault.q1.eval (1 - x) := fun x => by
      simp only [rampPolynomialsDefault, Quintic.eval]; ring
    have e0 : rampPolynomialsDefault.q0.eval d = (1 - d) ^ 5 / 120 := by
      simp only [rampPolynomialsDefault, Quintic.eval]; ring
    have e3 : rampPolynomialsDefault.q3.eval d = d ^ 5 / 120 := by
      simp only [rampPolynomialsDefault, Quintic.eval]; ring
    have b := pow_unit h0 h1 5
    have b' := pow_unit (by linarith : 0 ≤ 1 - d) (by linarith) 5
    refine ⟨?_, ⟨?_, high d h0 h1⟩, ⟨low d h0 h1, ?_⟩, ?_⟩
    · rw [e0]; constructor <;> linarith
    · rw [m1]; exact low _ (by linarith) (by linarith)
    · rw [m2]; exact high _ (by linarith) (by linarith)
    · rw [e3]; constructor <;> linarith
  atZero := by simp only [rampPolynomialsDefault, Quintic.eval]; norm_num
  atOne := by simp only [rampPolynomialsDefault, Quintic.eval]; norm_num

/-- The default as a lawful kernel: the type of replacements is not empty. -/
def defaultAsReplacement : RampKernel where
  polynomials := rampPolynomialsDefault
  taps := rampKernelDefault
  lawful := rampPolynomialsDefault_lawful
  evaluated := rampKernelDefault_evaluates

/-- Whatever the parameter is, the ramp kernel is the binary32 evaluation of lawful polynomials. -/
theorem rampKernel_lawful (P : Params) : ∃ q : RampPolynomials, q.Lawful ∧ q.EvaluatedBy (rampKernel P) := by
  unfold rampKernel
  cases P.ramp with
  | none => exact ⟨_, rampPolynomialsDefault_lawful, rampKernelDefault_evaluates⟩
  | some k => exact ⟨_, k.lawful, k.evaluated⟩

end Sys2Proof.Machine
end

