-- ==== Sys2Proof/Laws/State.lean ====
section
/-! SUPPORT. What each update of the state leaves alone, field by field, so that no proof unfolds a record update. -/

namespace Sys2Proof.Machine

@[simp] theorem setLine_phase (b : Buf) (l : Line) (s : State) : (setLine b l s).phase = s.phase := by cases b <;> rfl
@[simp] theorem setLine_prevPhase (b : Buf) (l : Line) (s : State) : (setLine b l s).prevPhase = s.prevPhase := by cases b <;> rfl
@[simp] theorem setLine_squareHigh (b : Buf) (l : Line) (s : State) : (setLine b l s).squareHigh = s.squareHigh := by cases b <;> rfl
@[simp] theorem setLine_triRising (b : Buf) (l : Line) (s : State) : (setLine b l s).triRising = s.triRising := by cases b <;> rfl
@[simp] theorem setLine_halfHigh (b : Buf) (l : Line) (s : State) : (setLine b l s).halfHigh = s.halfHigh := by cases b <;> rfl
@[simp] theorem setLine_subParity (b : Buf) (l : Line) (s : State) : (setLine b l s).subParity = s.subParity := by cases b <;> rfl
@[simp] theorem setLine_pend (b : Buf) (l : Line) (s : State) : (setLine b l s).pend = s.pend := by cases b <;> rfl
@[simp] theorem setLine_trigHigh (b : Buf) (l : Line) (s : State) : (setLine b l s).trigHigh = s.trigHigh := by cases b <;> rfl
@[simp] theorem setLine_resetArmed (b : Buf) (l : Line) (s : State) : (setLine b l s).resetArmed = s.resetArmed := by cases b <;> rfl
@[simp] theorem setLine_out (b : Buf) (l : Line) (s : State) : (setLine b l s).out = s.out := by cases b <;> rfl
@[simp] theorem setLine_ev (b : Buf) (l : Line) (s : State) : (setLine b l s).ev = s.ev := by cases b <;> rfl
@[simp] theorem setLine_n (b : Buf) (l : Line) (s : State) : (setLine b l s).n = s.n := by cases b <;> rfl
@[simp] theorem setLine_fault (b : Buf) (l : Line) (s : State) : (setLine b l s).fault = s.fault := by cases b <;> rfl
@[simp] theorem setLine_refused (b : Buf) (l : Line) (s : State) : (setLine b l s).refused = s.refused := by cases b <;> rfl
@[simp] theorem setLine_work (b : Buf) (l : Line) (s : State) : (setLine b l s).work = s.work := by cases b <;> rfl
@[simp] theorem setLine_input (b : Buf) (l : Line) (s : State) : (setLine b l s).input = s.input := by cases b <;> rfl

@[simp] theorem noteRecord_phase (w : Wave) (r : Pending) (s : State) : (noteRecord w r s).phase = s.phase := by cases w <;> rfl
@[simp] theorem noteRecord_prevPhase (w : Wave) (r : Pending) (s : State) : (noteRecord w r s).prevPhase = s.prevPhase := by cases w <;> rfl
@[simp] theorem noteRecord_squareHigh (w : Wave) (r : Pending) (s : State) : (noteRecord w r s).squareHigh = s.squareHigh := by cases w <;> rfl
@[simp] theorem noteRecord_triRising (w : Wave) (r : Pending) (s : State) : (noteRecord w r s).triRising = s.triRising := by cases w <;> rfl
@[simp] theorem noteRecord_halfHigh (w : Wave) (r : Pending) (s : State) : (noteRecord w r s).halfHigh = s.halfHigh := by cases w <;> rfl
@[simp] theorem noteRecord_subParity (w : Wave) (r : Pending) (s : State) : (noteRecord w r s).subParity = s.subParity := by cases w <;> rfl
@[simp] theorem noteRecord_buf (w : Wave) (r : Pending) (s : State) : (noteRecord w r s).buf = s.buf := by cases w <;> rfl
@[simp] theorem noteRecord_pend (w : Wave) (r : Pending) (s : State) : (noteRecord w r s).pend = s.pend := by cases w <;> rfl
@[simp] theorem noteRecord_trigHigh (w : Wave) (r : Pending) (s : State) : (noteRecord w r s).trigHigh = s.trigHigh := by cases w <;> rfl
@[simp] theorem noteRecord_resetArmed (w : Wave) (r : Pending) (s : State) : (noteRecord w r s).resetArmed = s.resetArmed := by cases w <;> rfl
@[simp] theorem noteRecord_out (w : Wave) (r : Pending) (s : State) : (noteRecord w r s).out = s.out := by cases w <;> rfl
@[simp] theorem noteRecord_ev (w : Wave) (r : Pending) (s : State) : (noteRecord w r s).ev = s.ev := by cases w <;> rfl
@[simp] theorem noteRecord_n (w : Wave) (r : Pending) (s : State) : (noteRecord w r s).n = s.n := by cases w <;> rfl
@[simp] theorem noteRecord_fault (w : Wave) (r : Pending) (s : State) : (noteRecord w r s).fault = s.fault := by cases w <;> rfl
@[simp] theorem noteRecord_refused (w : Wave) (r : Pending) (s : State) : (noteRecord w r s).refused = s.refused := by cases w <;> rfl
@[simp] theorem noteRecord_input (w : Wave) (r : Pending) (s : State) : (noteRecord w r s).input = s.input := by cases w <;> rfl

@[simp] theorem noteEvent_phase (bit : EvWord) (s : State) : (noteEvent bit s).phase = s.phase := rfl
@[simp] theorem noteEvent_prevPhase (bit : EvWord) (s : State) : (noteEvent bit s).prevPhase = s.prevPhase := rfl
@[simp] theorem noteEvent_squareHigh (bit : EvWord) (s : State) : (noteEvent bit s).squareHigh = s.squareHigh := rfl
@[simp] theorem noteEvent_triRising (bit : EvWord) (s : State) : (noteEvent bit s).triRising = s.triRising := rfl
@[simp] theorem noteEvent_halfHigh (bit : EvWord) (s : State) : (noteEvent bit s).halfHigh = s.halfHigh := rfl
@[simp] theorem noteEvent_subParity (bit : EvWord) (s : State) : (noteEvent bit s).subParity = s.subParity := rfl
@[simp] theorem noteEvent_buf (bit : EvWord) (s : State) : (noteEvent bit s).buf = s.buf := rfl
@[simp] theorem noteEvent_pend (bit : EvWord) (s : State) : (noteEvent bit s).pend = s.pend := rfl
@[simp] theorem noteEvent_trigHigh (bit : EvWord) (s : State) : (noteEvent bit s).trigHigh = s.trigHigh := rfl
@[simp] theorem noteEvent_resetArmed (bit : EvWord) (s : State) : (noteEvent bit s).resetArmed = s.resetArmed := rfl
@[simp] theorem noteEvent_out (bit : EvWord) (s : State) : (noteEvent bit s).out = s.out := rfl
@[simp] theorem noteEvent_ev (bit : EvWord) (s : State) : (noteEvent bit s).ev = s.ev := rfl
@[simp] theorem noteEvent_n (bit : EvWord) (s : State) : (noteEvent bit s).n = s.n := rfl
@[simp] theorem noteEvent_fault (bit : EvWord) (s : State) : (noteEvent bit s).fault = s.fault := rfl
@[simp] theorem noteEvent_refused (bit : EvWord) (s : State) : (noteEvent bit s).refused = s.refused := rfl
@[simp] theorem noteEvent_input (bit : EvWord) (s : State) : (noteEvent bit s).input = s.input := rfl

@[simp] theorem beginTick_phase (s : State) : (beginTick s).phase = s.phase := rfl
@[simp] theorem beginTick_prevPhase (s : State) : (beginTick s).prevPhase = s.prevPhase := rfl
@[simp] theorem beginTick_squareHigh (s : State) : (beginTick s).squareHigh = s.squareHigh := rfl
@[simp] theorem beginTick_triRising (s : State) : (beginTick s).triRising = s.triRising := rfl
@[simp] theorem beginTick_halfHigh (s : State) : (beginTick s).halfHigh = s.halfHigh := rfl
@[simp] theorem beginTick_subParity (s : State) : (beginTick s).subParity = s.subParity := rfl
@[simp] theorem beginTick_buf (s : State) : (beginTick s).buf = s.buf := rfl
@[simp] theorem beginTick_pend (s : State) : (beginTick s).pend = s.pend := rfl
@[simp] theorem beginTick_trigHigh (s : State) : (beginTick s).trigHigh = s.trigHigh := rfl
@[simp] theorem beginTick_resetArmed (s : State) : (beginTick s).resetArmed = s.resetArmed := rfl
@[simp] theorem beginTick_out (s : State) : (beginTick s).out = s.out := rfl
@[simp] theorem beginTick_ev (s : State) : (beginTick s).ev = s.ev := rfl
@[simp] theorem beginTick_n (s : State) : (beginTick s).n = s.n := rfl
@[simp] theorem beginTick_fault (s : State) : (beginTick s).fault = s.fault := rfl
@[simp] theorem beginTick_refused (s : State) : (beginTick s).refused = s.refused := rfl
@[simp] theorem beginTick_input (s : State) : (beginTick s).input = s.input := rfl

@[simp] theorem installPending_phase (s : State) : (installPending s).phase = s.phase := rfl
@[simp] theorem installPending_prevPhase (s : State) : (installPending s).prevPhase = s.prevPhase := rfl
@[simp] theorem installPending_squareHigh (s : State) : (installPending s).squareHigh = s.squareHigh := rfl
@[simp] theorem installPending_triRising (s : State) : (installPending s).triRising = s.triRising := rfl
@[simp] theorem installPending_halfHigh (s : State) : (installPending s).halfHigh = s.halfHigh := rfl
@[simp] theorem installPending_subParity (s : State) : (installPending s).subParity = s.subParity := rfl
@[simp] theorem installPending_buf (s : State) : (installPending s).buf = s.buf := rfl
@[simp] theorem installPending_trigHigh (s : State) : (installPending s).trigHigh = s.trigHigh := rfl
@[simp] theorem installPending_resetArmed (s : State) : (installPending s).resetArmed = s.resetArmed := rfl
@[simp] theorem installPending_out (s : State) : (installPending s).out = s.out := rfl
@[simp] theorem installPending_ev (s : State) : (installPending s).ev = s.ev := rfl
@[simp] theorem installPending_n (s : State) : (installPending s).n = s.n := rfl
@[simp] theorem installPending_fault (s : State) : (installPending s).fault = s.fault := rfl
@[simp] theorem installPending_refused (s : State) : (installPending s).refused = s.refused := rfl
@[simp] theorem installPending_work (s : State) : (installPending s).work = s.work := rfl
@[simp] theorem installPending_input (s : State) : (installPending s).input = s.input := rfl

@[simp] theorem finishTick_phase (s : State) : (finishTick s).phase = s.phase := rfl
@[simp] theorem finishTick_prevPhase (s : State) : (finishTick s).prevPhase = s.prevPhase := rfl
@[simp] theorem finishTick_squareHigh (s : State) : (finishTick s).squareHigh = s.squareHigh := rfl
@[simp] theorem finishTick_triRising (s : State) : (finishTick s).triRising = s.triRising := rfl
@[simp] theorem finishTick_halfHigh (s : State) : (finishTick s).halfHigh = s.halfHigh := rfl
@[simp] theorem finishTick_subParity (s : State) : (finishTick s).subParity = s.subParity := rfl
@[simp] theorem finishTick_buf (s : State) : (finishTick s).buf = s.buf := rfl
@[simp] theorem finishTick_pend (s : State) : (finishTick s).pend = s.pend := rfl
@[simp] theorem finishTick_trigHigh (s : State) : (finishTick s).trigHigh = s.trigHigh := rfl
@[simp] theorem finishTick_resetArmed (s : State) : (finishTick s).resetArmed = s.resetArmed := rfl
@[simp] theorem finishTick_out (s : State) : (finishTick s).out = s.out := rfl
@[simp] theorem finishTick_fault (s : State) : (finishTick s).fault = s.fault := rfl
@[simp] theorem finishTick_refused (s : State) : (finishTick s).refused = s.refused := rfl
@[simp] theorem finishTick_input (s : State) : (finishTick s).input = s.input := rfl

@[simp] theorem raiseInputFault_phase (info : FaultInfo) (s : State) : (raiseInputFault info s).phase = s.phase := rfl
@[simp] theorem raiseInputFault_prevPhase (info : FaultInfo) (s : State) : (raiseInputFault info s).prevPhase = s.prevPhase := rfl
@[simp] theorem raiseInputFault_squareHigh (info : FaultInfo) (s : State) : (raiseInputFault info s).squareHigh = s.squareHigh := rfl
@[simp] theorem raiseInputFault_triRising (info : FaultInfo) (s : State) : (raiseInputFault info s).triRising = s.triRising := rfl
@[simp] theorem raiseInputFault_halfHigh (info : FaultInfo) (s : State) : (raiseInputFault info s).halfHigh = s.halfHigh := rfl
@[simp] theorem raiseInputFault_subParity (info : FaultInfo) (s : State) : (raiseInputFault info s).subParity = s.subParity := rfl
@[simp] theorem raiseInputFault_buf (info : FaultInfo) (s : State) : (raiseInputFault info s).buf = s.buf := rfl
@[simp] theorem raiseInputFault_pend (info : FaultInfo) (s : State) : (raiseInputFault info s).pend = s.pend := rfl
@[simp] theorem raiseInputFault_trigHigh (info : FaultInfo) (s : State) : (raiseInputFault info s).trigHigh = s.trigHigh := rfl
@[simp] theorem raiseInputFault_resetArmed (info : FaultInfo) (s : State) : (raiseInputFault info s).resetArmed = s.resetArmed := rfl
@[simp] theorem raiseInputFault_out (info : FaultInfo) (s : State) : (raiseInputFault info s).out = s.out := rfl
@[simp] theorem raiseInputFault_ev (info : FaultInfo) (s : State) : (raiseInputFault info s).ev = s.ev := rfl
@[simp] theorem raiseInputFault_n (info : FaultInfo) (s : State) : (raiseInputFault info s).n = s.n := rfl
@[simp] theorem raiseInputFault_refused (info : FaultInfo) (s : State) : (raiseInputFault info s).refused = s.refused := rfl
@[simp] theorem raiseInputFault_work (info : FaultInfo) (s : State) : (raiseInputFault info s).work = s.work := rfl
@[simp] theorem raiseInputFault_input (info : FaultInfo) (s : State) : (raiseInputFault info s).input = s.input := rfl

@[simp] theorem refuse_phase (s : State) : (refuse s).phase = s.phase := rfl
@[simp] theorem refuse_prevPhase (s : State) : (refuse s).prevPhase = s.prevPhase := rfl
@[simp] theorem refuse_squareHigh (s : State) : (refuse s).squareHigh = s.squareHigh := rfl
@[simp] theorem refuse_triRising (s : State) : (refuse s).triRising = s.triRising := rfl
@[simp] theorem refuse_halfHigh (s : State) : (refuse s).halfHigh = s.halfHigh := rfl
@[simp] theorem refuse_subParity (s : State) : (refuse s).subParity = s.subParity := rfl
@[simp] theorem refuse_buf (s : State) : (refuse s).buf = s.buf := rfl
@[simp] theorem refuse_pend (s : State) : (refuse s).pend = s.pend := rfl
@[simp] theorem refuse_trigHigh (s : State) : (refuse s).trigHigh = s.trigHigh := rfl
@[simp] theorem refuse_resetArmed (s : State) : (refuse s).resetArmed = s.resetArmed := rfl
@[simp] theorem refuse_out (s : State) : (refuse s).out = s.out := rfl
@[simp] theorem refuse_ev (s : State) : (refuse s).ev = s.ev := rfl
@[simp] theorem refuse_n (s : State) : (refuse s).n = s.n := rfl
@[simp] theorem refuse_fault (s : State) : (refuse s).fault = s.fault := rfl
@[simp] theorem refuse_work (s : State) : (refuse s).work = s.work := rfl
@[simp] theorem refuse_input (s : State) : (refuse s).input = s.input := rfl

@[simp] theorem halfClassify_phase (p : F32) (s : State) : (halfClassify p s).phase = s.phase := rfl
@[simp] theorem halfClassify_prevPhase (p : F32) (s : State) : (halfClassify p s).prevPhase = s.prevPhase := rfl
@[simp] theorem halfClassify_squareHigh (p : F32) (s : State) : (halfClassify p s).squareHigh = s.squareHigh := rfl
@[simp] theorem halfClassify_triRising (p : F32) (s : State) : (halfClassify p s).triRising = s.triRising := rfl
@[simp] theorem halfClassify_subParity (p : F32) (s : State) : (halfClassify p s).subParity = s.subParity := rfl
@[simp] theorem halfClassify_buf (p : F32) (s : State) : (halfClassify p s).buf = s.buf := rfl
@[simp] theorem halfClassify_pend (p : F32) (s : State) : (halfClassify p s).pend = s.pend := rfl
@[simp] theorem halfClassify_trigHigh (p : F32) (s : State) : (halfClassify p s).trigHigh = s.trigHigh := rfl
@[simp] theorem halfClassify_resetArmed (p : F32) (s : State) : (halfClassify p s).resetArmed = s.resetArmed := rfl
@[simp] theorem halfClassify_out (p : F32) (s : State) : (halfClassify p s).out = s.out := rfl
@[simp] theorem halfClassify_ev (p : F32) (s : State) : (halfClassify p s).ev = s.ev := rfl
@[simp] theorem halfClassify_n (p : F32) (s : State) : (halfClassify p s).n = s.n := rfl
@[simp] theorem halfClassify_fault (p : F32) (s : State) : (halfClassify p s).fault = s.fault := rfl
@[simp] theorem halfClassify_refused (p : F32) (s : State) : (halfClassify p s).refused = s.refused := rfl
@[simp] theorem halfClassify_work (p : F32) (s : State) : (halfClassify p s).work = s.work := rfl
@[simp] theorem halfClassify_input (p : F32) (s : State) : (halfClassify p s).input = s.input := rfl

@[simp] theorem trigger_phase (P : Params) (rst : F32) (s : State) : (trigger P rst s).phase = s.phase := rfl
@[simp] theorem trigger_prevPhase (P : Params) (rst : F32) (s : State) : (trigger P rst s).prevPhase = s.prevPhase := rfl
@[simp] theorem trigger_squareHigh (P : Params) (rst : F32) (s : State) : (trigger P rst s).squareHigh = s.squareHigh := rfl
@[simp] theorem trigger_triRising (P : Params) (rst : F32) (s : State) : (trigger P rst s).triRising = s.triRising := rfl
@[simp] theorem trigger_halfHigh (P : Params) (rst : F32) (s : State) : (trigger P rst s).halfHigh = s.halfHigh := rfl
@[simp] theorem trigger_subParity (P : Params) (rst : F32) (s : State) : (trigger P rst s).subParity = s.subParity := rfl
@[simp] theorem trigger_buf (P : Params) (rst : F32) (s : State) : (trigger P rst s).buf = s.buf := rfl
@[simp] theorem trigger_pend (P : Params) (rst : F32) (s : State) : (trigger P rst s).pend = s.pend := rfl
@[simp] theorem trigger_out (P : Params) (rst : F32) (s : State) : (trigger P rst s).out = s.out := rfl
@[simp] theorem trigger_ev (P : Params) (rst : F32) (s : State) : (trigger P rst s).ev = s.ev := rfl
@[simp] theorem trigger_n (P : Params) (rst : F32) (s : State) : (trigger P rst s).n = s.n := rfl
@[simp] theorem trigger_fault (P : Params) (rst : F32) (s : State) : (trigger P rst s).fault = s.fault := rfl
@[simp] theorem trigger_refused (P : Params) (rst : F32) (s : State) : (trigger P rst s).refused = s.refused := rfl
@[simp] theorem trigger_work (P : Params) (rst : F32) (s : State) : (trigger P rst s).work = s.work := rfl
@[simp] theorem trigger_input (P : Params) (rst : F32) (s : State) : (trigger P rst s).input = s.input := rfl

@[simp] theorem emitOutputs_phase (P : Params) (s : State) : (emitOutputs P s).phase = s.phase := rfl
@[simp] theorem emitOutputs_prevPhase (P : Params) (s : State) : (emitOutputs P s).prevPhase = s.prevPhase := rfl
@[simp] theorem emitOutputs_squareHigh (P : Params) (s : State) : (emitOutputs P s).squareHigh = s.squareHigh := rfl
@[simp] theorem emitOutputs_triRising (P : Params) (s : State) : (emitOutputs P s).triRising = s.triRising := rfl
@[simp] theorem emitOutputs_halfHigh (P : Params) (s : State) : (emitOutputs P s).halfHigh = s.halfHigh := rfl
@[simp] theorem emitOutputs_subParity (P : Params) (s : State) : (emitOutputs P s).subParity = s.subParity := rfl
@[simp] theorem emitOutputs_buf (P : Params) (s : State) : (emitOutputs P s).buf = s.buf := rfl
@[simp] theorem emitOutputs_pend (P : Params) (s : State) : (emitOutputs P s).pend = s.pend := rfl
@[simp] theorem emitOutputs_trigHigh (P : Params) (s : State) : (emitOutputs P s).trigHigh = s.trigHigh := rfl
@[simp] theorem emitOutputs_resetArmed (P : Params) (s : State) : (emitOutputs P s).resetArmed = s.resetArmed := rfl
@[simp] theorem emitOutputs_ev (P : Params) (s : State) : (emitOutputs P s).ev = s.ev := rfl
@[simp] theorem emitOutputs_n (P : Params) (s : State) : (emitOutputs P s).n = s.n := rfl
@[simp] theorem emitOutputs_fault (P : Params) (s : State) : (emitOutputs P s).fault = s.fault := rfl
@[simp] theorem emitOutputs_refused (P : Params) (s : State) : (emitOutputs P s).refused = s.refused := rfl
@[simp] theorem emitOutputs_work (P : Params) (s : State) : (emitOutputs P s).work = s.work := rfl
@[simp] theorem emitOutputs_input (P : Params) (s : State) : (emitOutputs P s).input = s.input := rfl

@[simp] theorem noteEvent_work_np (bit : EvWord) (s : State) : (noteEvent bit s).work.np = s.work.np := rfl
@[simp] theorem noteEvent_work_ev (bit : EvWord) (s : State) : (noteEvent bit s).work.ev = s.work.ev ||| bit := rfl
@[simp] theorem noteRecord_work_ev (w : Wave) (r : Pending) (s : State) : (noteRecord w r s).work.ev = s.work.ev := by cases w <;> rfl
@[simp] theorem noteRecord_recordOf (w : Wave) (r : Pending) (s : State) : recordOf w (noteRecord w r s).work.np = r := by cases w <;> rfl
@[simp] theorem beginTick_work (s : State) : (beginTick s).work = .idle := rfl
@[simp] theorem installPending_pend (s : State) : (installPending s).pend = s.work.np := rfl
@[simp] theorem finishTick_ev (s : State) : (finishTick s).ev = s.work.ev := rfl
@[simp] theorem finishTick_n (s : State) : (finishTick s).n = s.n + 1 := rfl
@[simp] theorem finishTick_work (s : State) : (finishTick s).work = .idle := rfl
@[simp] theorem raiseInputFault_fault (info : FaultInfo) (s : State) : (raiseInputFault info s).fault = some info := rfl
@[simp] theorem refuse_refused (s : State) : (refuse s).refused = true := rfl
@[simp] theorem halfClassify_halfHigh (p : F32) (s : State) : (halfClassify p s).halfHigh = halfHighAt p := rfl
@[simp] theorem trigger_trigHigh (P : Params) (rst : F32) (s : State) : (trigger P rst s).trigHigh = fge rst P.resetThreshold := rfl
@[simp] theorem lineOf_setLine (b : Buf) (l : Line) (s : State) : lineOf b (setLine b l s) = l := by cases b <;> rfl
@[simp] theorem setLine_setLine (b : Buf) (l l' : Line) (s : State) : setLine b l (setLine b l' s) = setLine b l s := by cases b <;> rfl

theorem lineOf_setLine_of_ne {b b' : Buf} (h : b' ≠ b) (l : Line) (s : State) : lineOf b' (setLine b l s) = lineOf b' s := by
  cases b <;> cases b' <;> first | rfl | exact absurd rfl h

end Sys2Proof.Machine
end

