-- ==== Sys2Proof/Laws/Ops.lean ====
section
/-! SUPPORT. Each shared operation once, in closed form: what a shift, an injection, a transition and a completed TICK make of
the state. -/

namespace Sys2Proof.Machine

/-- A buffer shifted left, with a raw value appended (43_delay_line.md R113). -/
def shiftLine (l : Line) (raw : F32) : Line := { s0 := l.s1, s1 := l.s2, s2 := l.s3, s3 := raw }

/-- A buffer with u times a kernel added tap by tap (41_correction_injector.md R97). -/
def addTaps (l : Line) (u : F32) (e : Taps) : Line :=
  { s0 := fadd l.s0 (fmul u e.t0), s1 := fadd l.s1 (fmul u e.t1), s2 := fadd l.s2 (fmul u e.t2), s3 := fadd l.s3 (fmul u e.t3) }

/-- A buffer after INJECT of a record (R97). -/
def injectLine (P : Params) (w : Wave) (r : Pending) (l : Line) : Line :=
  if r.active then addTaps l r.u (kernelOf P w r.d) else l

theorem shiftAppend_eq (b : Buf) (raw : F32) (s : State) : shiftAppend b raw s = setLine b (shiftLine (lineOf b s) raw) s := by
  cases b <;> rfl

theorem inject_eq (P : Params) (w : Wave) (s : State) :
    inject P w s = setLine (waveBuf w) (injectLine P w (recordOf w s.pend) (lineOf (waveBuf w) s)) s := by
  unfold inject injectLine
  cases w
  all_goals
    cases h : (recordOf _ s.pend).active
    · simp only [h, Bool.false_eq_true, if_false]; rfl
    · simp only [h, if_true]; rfl

/-- The delay line after steps 5 and 6 of a TICK whose transition left the state t. -/
def tickLines (P : Params) (w : F32) (t : State) : Lines :=
  { saw := injectLine P .saw t.pend.saw (shiftLine t.buf.saw t.phase)
    sq := injectLine P .sq t.pend.sq (shiftLine t.buf.sq (rawSquare t.squareHigh))
    tri := injectLine P .tri t.pend.tri (shiftLine t.buf.tri (rawTriangle t.phase t.triRising t.halfHigh))
    pw := shiftLine t.buf.pw w }

/-- The output registers of a TICK whose transition left the phase p and whose injection left the lines b. -/
def tickOutputs (P : Params) (p : F32) (b : Lines) : Outputs :=
  { saw := scaleUnipolar b.saw.s0
    sq := squareOutput P b.sq.s0 b.pw.s0
    tri := scaleUnipolar b.tri.s0
    sin := sineOutput P p }

theorem injectAll_shiftAll (P : Params) (w : F32) (t : State) :
    injectAll P (shiftAll w t) = { t with buf := tickLines P w t } := by
  unfold injectAll shiftAll
  simp only [inject_eq, shiftAppend_eq, setLine, lineOf, recordOf, waveBuf, tickLines]

/-- A completed TICK in closed form, over the state t its transition leaves. -/
theorem tick_eq (P : Params) (op : TickOperands) (s t : State) (ht : transition op (beginTick s) = t) :
    tick P op s =
      { t with
        trigHigh := fge op.rst P.resetThreshold
        resetArmed := if fge op.rst P.resetThreshold && !t.trigHigh then true else t.resetArmed
        buf := tickLines P op.w t
        pend := t.work.np
        out := tickOutputs P t.phase (tickLines P op.w t)
        ev := t.work.ev
        n := t.n + 1
        work := .idle } := by
  subst ht
  simp only [tick, injectAll_shiftAll, trigger, tickLines, installPending, emitOutputs, finishTick, tickOutputs, bufRead,
    slotRead, lineOf]

/-- The wrap decision in closed form (40_phase_accumulator.md R66 to R68, R70). -/
theorem wrapPhase_eq (q inc : F32) (s : State) :
    wrapPhase q inc s =
      { s with
        phase := if fge q one then wrapUpPhase q else if flt q posZero then wrapDnPhase q else q
        subParity := if fge q one || flt q posZero then !s.subParity else s.subParity
        work :=
          { np :=
              { s.work.np with
                saw :=
                  if fge q one then { active := true, d := cross (wrapUpPhase q) posZero inc, u := one }
                  else if flt q posZero then { active := true, d := cross (wrapDnPhase q) one inc, u := fneg one }
                  else s.work.np.saw }
            ev :=
              if fge q one then s.work.ev ||| evWrapUp
              else if flt q posZero then s.work.ev ||| evWrapDn else s.work.ev } } := by
  unfold wrapPhase
  cases h1 : fge q one <;> cases h2 : flt q posZero <;> rfl

/-- The pulse classification in closed form (R73). -/
theorem pulseClassify_eq (p inc pwc : F32) (s : State) :
    pulseClassify p inc pwc s =
      { s with
        squareHigh := squareHighAt p pwc
        work :=
          { np :=
              { s.work.np with
                sq :=
                  if squareHighAt p pwc != s.squareHigh then
                    { active := true
                      d := cross p (pulseT (squareHighAt p pwc) inc pwc) inc
                      u := squareMagnitude (squareHighAt p pwc) }
                  else s.work.np.sq }
            ev :=
              if squareHighAt p pwc != s.squareHigh then s.work.ev ||| (if flt inc posZero then evPeDn else evPeUp)
              else s.work.ev } } := by
  unfold pulseClassify
  cases h : (squareHighAt p pwc != s.squareHigh) <;> simp only [h] <;> rfl

/-- The fold classification in closed form (R76). -/
theorem triClassify_eq (p inc : F32) (s : State) :
    triClassify p inc s =
      { s with
        triRising := triRisingAt p
        work :=
          { np :=
              { s.work.np with
                tri :=
                  if triRisingAt p != s.triRising then
                    { active := true, d := cross p (triT p inc) inc, u := triMagnitude (triRisingAt p) inc }
                  else s.work.np.tri }
            ev :=
              if triRisingAt p != s.triRising then s.work.ev ||| (if flt inc posZero then evTfDn else evTfUp)
              else s.work.ev } } := by
  unfold triClassify
  cases h : (triRisingAt p != s.triRising) <;> simp only [h] <;> rfl

/-- The phase after the wrap decision on q (R66 to R68). -/
def wrappedPhase (q : F32) : F32 := if fge q one then wrapUpPhase q else if flt q posZero then wrapDnPhase q else q

/-- The phase an advance of s by inc leaves. -/
def advancedPhase (inc : F32) (s : State) : F32 := wrappedPhase (fadd s.phase inc)

section Advance

variable (inc pwc : F32) (s : State)

@[simp] theorem advance_phase : (advance inc pwc s).phase = advancedPhase inc s := by
  simp only [advance, pulseClassify_eq, triClassify_eq, wrapPhase_eq, noteEvent, halfClassify, advancedPhase, wrappedPhase]

@[simp] theorem advance_prevPhase : (advance inc pwc s).prevPhase = s.phase := by
  simp only [advance, pulseClassify_eq, triClassify_eq, wrapPhase_eq, noteEvent, halfClassify]

@[simp] theorem advance_squareHigh : (advance inc pwc s).squareHigh = squareHighAt (advancedPhase inc s) pwc := by
  simp only [advance, pulseClassify_eq, triClassify_eq, wrapPhase_eq, noteEvent, halfClassify, advancedPhase, wrappedPhase]

@[simp] theorem advance_triRising : (advance inc pwc s).triRising = triRisingAt (advancedPhase inc s) := by
  simp only [advance, pulseClassify_eq, triClassify_eq, wrapPhase_eq, noteEvent, halfClassify, advancedPhase, wrappedPhase]

@[simp] theorem advance_halfHigh : (advance inc pwc s).halfHigh = halfHighAt (advancedPhase inc s) := by
  simp only [advance, pulseClassify_eq, triClassify_eq, wrapPhase_eq, noteEvent, halfClassify, advancedPhase, wrappedPhase]

@[simp] theorem advance_subParity :
    (advance inc pwc s).subParity =
      if fge (fadd s.phase inc) one || flt (fadd s.phase inc) posZero then !s.subParity else s.subParity := by
  simp only [advance, pulseClassify_eq, triClassify_eq, wrapPhase_eq, noteEvent, halfClassify]

@[simp] theorem advance_buf : (advance inc pwc s).buf = s.buf := by
  simp only [advance, pulseClassify_eq, triClassify_eq, wrapPhase_eq, noteEvent, halfClassify]

@[simp] theorem advance_pend : (advance inc pwc s).pend = s.pend := by
  simp only [advance, pulseClassify_eq, triClassify_eq, wrapPhase_eq, noteEvent, halfClassify]

@[simp] theorem advance_trigHigh : (advance inc pwc s).trigHigh = s.trigHigh := by
  simp only [advance, pulseClassify_eq, triClassify_eq, wrapPhase_eq, noteEvent, halfClassify]

@[simp] theorem advance_resetArmed : (advance inc pwc s).resetArmed = s.resetArmed := by
  simp only [advance, pulseClassify_eq, triClassify_eq, wrapPhase_eq, noteEvent, halfClassify]

@[simp] theorem advance_out : (advance inc pwc s).out = s.out := by
  simp only [advance, pulseClassify_eq, triClassify_eq, wrapPhase_eq, noteEvent, halfClassify]

@[simp] theorem advance_ev : (advance inc pwc s).ev = s.ev := by
  simp only [advance, pulseClassify_eq, triClassify_eq, wrapPhase_eq, noteEvent, halfClassify]

@[simp] theorem advance_n : (advance inc pwc s).n = s.n := by
  simp only [advance, pulseClassify_eq, triClassify_eq, wrapPhase_eq, noteEvent, halfClassify]

@[simp] theorem advance_fault : (advance inc pwc s).fault = s.fault := by
  simp only [advance, pulseClassify_eq, triClassify_eq, wrapPhase_eq, noteEvent, halfClassify]

@[simp] theorem advance_refused : (advance inc pwc s).refused = s.refused := by
  simp only [advance, pulseClassify_eq, triClassify_eq, wrapPhase_eq, noteEvent, halfClassify]

@[simp] theorem advance_input : (advance inc pwc s).input = s.input := by
  simp only [advance, pulseClassify_eq, triClassify_eq, wrapPhase_eq, noteEvent, halfClassify]

/-- The saw record of an advance (R67, R68). -/
theorem advance_np_saw :
    (advance inc pwc s).work.np.saw =
      if fge (fadd s.phase inc) one then
        { active := true, d := cross (wrapUpPhase (fadd s.phase inc)) posZero inc, u := one }
      else if flt (fadd s.phase inc) posZero then
        { active := true, d := cross (wrapDnPhase (fadd s.phase inc)) one inc, u := fneg one }
      else s.work.np.saw := by
  simp only [advance, pulseClassify_eq, triClassify_eq, wrapPhase_eq, noteEvent, halfClassify]

/-- The square record of an advance (R73). -/
theorem advance_np_sq :
    (advance inc pwc s).work.np.sq =
      if squareHighAt (advancedPhase inc s) pwc != s.squareHigh then
        { active := true
          d := cross (advancedPhase inc s) (pulseT (squareHighAt (advancedPhase inc s) pwc) inc pwc) inc
          u := squareMagnitude (squareHighAt (advancedPhase inc s) pwc) }
      else s.work.np.sq := by
  simp only [advance, pulseClassify_eq, triClassify_eq, wrapPhase_eq, noteEvent, halfClassify, advancedPhase, wrappedPhase]
  rfl

/-- The triangle record of an advance (R76). -/
theorem advance_np_tri :
    (advance inc pwc s).work.np.tri =
      if triRisingAt (advancedPhase inc s) != s.triRising then
        { active := true
          d := cross (advancedPhase inc s) (triT (advancedPhase inc s) inc) inc
          u := triMagnitude (triRisingAt (advancedPhase inc s)) inc }
      else s.work.np.tri := by
  simp only [advance, pulseClassify_eq, triClassify_eq, wrapPhase_eq, noteEvent, halfClassify, advancedPhase, wrappedPhase]
  rfl

/-- The event bits of an advance: of the wrap, of the pulse edge, of the fold, and ADV. -/
theorem advance_work_ev :
    (advance inc pwc s).work.ev =
      s.work.ev |||
        (if fge (fadd s.phase inc) one then evWrapUp else if flt (fadd s.phase inc) posZero then evWrapDn else 0#8) |||
        (if squareHighAt (advancedPhase inc s) pwc != s.squareHigh then (if flt inc posZero then evPeDn else evPeUp) else 0#8) |||
        (if triRisingAt (advancedPhase inc s) != s.triRising then (if flt inc posZero then evTfDn else evTfUp) else 0#8) |||
        evAdv := by
  simp only [advance, pulseClassify_eq, triClassify_eq, wrapPhase_eq, noteEvent, halfClassify, advancedPhase, wrappedPhase]
  split <;> split <;> split <;> first | (split <;> simp) | simp

end Advance

/-- With no reset armed the transition of a TICK is the advance. -/
theorem transition_advances (op : TickOperands) {s : State} (h : s.resetArmed = false) :
    transition op s = advance op.inc op.pwc s := by
  simp [transition, h]

/-- With a reset armed it is RESET, and the arming is cleared (R120 step 3). -/
theorem transition_resets (op : TickOperands) {s : State} (h : s.resetArmed = true) :
    transition op s =
      { s with
        resetArmed := false
        prevPhase := s.phase
        phase := posZero
        squareHigh := true
        triRising := true
        halfHigh := false
        subParity := false
        work := { s.work with ev := s.work.ev ||| evReset } } := by
  simp only [transition, h, if_true, resetTransition, noteEvent]

/-- What no transition of a TICK touches. -/
theorem transition_frame (op : TickOperands) (s : State) :
    (transition op s).buf = s.buf ∧ (transition op s).pend = s.pend ∧ (transition op s).trigHigh = s.trigHigh ∧
    (transition op s).out = s.out ∧ (transition op s).ev = s.ev ∧ (transition op s).n = s.n ∧
    (transition op s).fault = s.fault ∧ (transition op s).refused = s.refused ∧ (transition op s).input = s.input ∧
    (transition op s).resetArmed = false := by
  cases h : s.resetArmed
  · rw [transition_advances op h]; simp [h]
  · rw [transition_resets op h]; simp

/-- TICK either raises InputFault and writes nothing else, or completes (44_sample_step_and_reset.md R131). -/
theorem runTick_cases (P : Params) (inc pw rst : F32) (s : State) :
    (∃ info, operandFault inc pw rst = some info ∧ runTick P inc pw rst s = { s with fault := some info }) ∨
    (operandFault inc pw rst = none ∧ runTick P inc pw rst s = tick P (tickOperands inc pw rst) s) := by
  unfold runTick
  cases h : operandFault inc pw rst
  · exact .inr ⟨rfl, rfl⟩
  · exact .inl ⟨_, rfl, rfl⟩

theorem operandFault_none_iff (inc pw rst : F32) :
    operandFault inc pw rst = none ↔ isFinite inc = true ∧ isFinite pw = true ∧ isFinite rst = true := by
  unfold operandFault
  cases isFinite inc <;> cases isFinite pw <;> cases isFinite rst <;> simp

/-- What a step can be: a stop of a marked state, idling, or the oldest frame taken and run or rejected. -/
theorem step_cases (s : State) :
    (∃ stop, halted s = some stop ∧ step s = stop) ∨
    (halted s = none ∧ s.input = [] ∧ step s = .next s) ∨
    (∃ f rest, halted s = none ∧ s.input = f :: rest ∧
      ((∃ i, decodeFrame f = .ok i ∧ step s = exec i { s with input := rest }) ∨
       (∃ e, decodeFrame f = .error e ∧ step s = rejectFrame e { s with input := rest }))) := by
  unfold step
  cases h : halted s with
  | some stop => exact .inl ⟨stop, rfl, rfl⟩
  | none =>
    cases hi : s.input with
    | nil => exact .inr (.inl ⟨rfl, rfl, rfl⟩)
    | cons f rest =>
      refine .inr (.inr ⟨f, rest, rfl, rfl, ?_⟩)
      cases hd : decodeFrame f with
      | ok i => exact .inl ⟨i, rfl, by simp [hd]⟩
      | error e => exact .inr ⟨e, rfl, by simp [hd]⟩

/-- A TICK on finite words answers its completed state. -/
theorem exec_tick_finite (conn : Conn) {inc pw rst : F32} (s : State) (h1 : isFinite inc = true) (h2 : isFinite pw = true)
    (h3 : isFinite rst = true) :
    exec (.tick conn inc pw rst) s = .next (tick Config.params (tickOperands inc pw rst) s) := by
  have h : operandFault inc pw rst = none := (operandFault_none_iff _ _ _).2 ⟨h1, h2, h3⟩
  simp [exec, execTick, runTick, h]

end Sys2Proof.Machine
end

