-- ==== Sys2Proof/Laws/PerInstr.lean ====
section
/-! SUPPORT. Statements made per instruction: the frame of an instruction decodes to it, with every operand as it was. -/

namespace Sys2Proof.Laws.EncodeRoundTrip

/-- Decoding the frame of an instruction gives the instruction back. -/
def Statement (i : Instr) : Prop := decodeFrame (encode i) = .ok i

theorem nop (conn : Conn) : Statement (.nop conn) := by
  have h := ctrlOfConn_fields conn 0#2
  simp [Statement, encode, decodeFrame, decodeCommand, h]

theorem tick (conn : Conn) (inc pw rst : F32) : Statement (.tick conn inc pw rst) := by
  have h := ctrlOfConn_fields conn 1#2
  simp [Statement, encode, decodeFrame, decodeCommand, h]

theorem rsvdCmd2 (upper : BitVec 30) : Statement (.rsvdCmd2 upper) := by
  simp [Statement, encode, decodeFrame, decodeCommand, ctrlCmd_ofUpper, ctrlUpper_ofUpper]

theorem rsvdCmd3 (upper : BitVec 30) : Statement (.rsvdCmd3 upper) := by
  simp [Statement, encode, decodeFrame, decodeCommand, ctrlCmd_ofUpper, ctrlUpper_ofUpper]

theorem advance (inc pwc : F32) : Statement (.advance inc pwc) := rfl

theorem wrapUp (q inc : F32) : Statement (.wrapUp q inc) := rfl

theorem wrapDn (q inc : F32) : Statement (.wrapDn q inc) := rfl

theorem pulseEdgeUp (p inc pwc : F32) : Statement (.pulseEdgeUp p inc pwc) := rfl

theorem pulseEdgeDn (p inc pwc : F32) : Statement (.pulseEdgeDn p inc pwc) := rfl

theorem triFoldUp (p inc : F32) : Statement (.triFoldUp p inc) := rfl

theorem triFoldDn (p inc : F32) : Statement (.triFoldDn p inc) := rfl

theorem reset : Statement .reset := rfl

end Sys2Proof.Laws.EncodeRoundTrip
end

