-- ==== Sys2Proof/Laws/Run.lean ====
section
/-! SUPPORT. One step of the host's run, by the outcome of the step. -/

namespace Sys2Proof.Laws

theorem run_next (M : Host.Core) (k : Nat) (s t : M.State) (h : M.step s = .next t) : M.run (k + 1) s = M.run k t := by
  simp only [Host.Core.run, h]

theorem run_fault (M : Host.Core) (k : Nat) (s : M.State) (r : M.Fault) (h : M.step s = .fault r) :
    M.run (k + 1) s = .fault r := by
  simp only [Host.Core.run, h]

theorem run_refused (M : Host.Core) (k : Nat) (s : M.State) (r : M.Refusal) (h : M.step s = .refused r) :
    M.run (k + 1) s = .refused r := by
  simp only [Host.Core.run, h]

end Sys2Proof.Laws
end

