-- ==== Sys2Proof/Tests/Slice0.lean ====
section
/-! SUPPORT. The model's own tests. Expected results are the spec's: the encodings of 30_encoding.md and the vectors of
95_test_vectors.md, whose numbers each comment cites. Then one witness per statement that has hypotheses. -/

namespace Sys2Proof.Tests

set_option Elab.async false

open Sys2Proof Sys2Proof.Machine

/-- A consistent state at phase p with width pw, as 95_test_vectors.md names it. -/
def atPhase (p pw : F32) : State :=
  { State.reset with phase := p, squareHigh := flt p pw, triRising := triRisingAt p, halfHigh := halfHighAt p }

/-- One TICK with the spec's defaults and RESET_THRESHOLD = 1.0, as 95_test_vectors.md runs it. -/
def run1 (inc pw rst : F32) (s : State) : State := runTick (defaultParams 0x3F800000#32) inc pw rst s

/-- The state an instruction leaves. -/
def after (i : Instr) (s : State) : State :=
  match exec i s with
  | .next t => t
  | .fault _ => s
  | .refused _ => s

/-- No connection bit set. -/
def noConn : Conn := ⟨false, false, false, false⟩

/-! ### Well-formedness: each check refuses an ill-formed term -/

/-- ADVANCE: inc above 0.5; pwc above 1. -/
theorem test_wellFormed_advance :
    (Instr.advance 0x3F000000#32 0x3F800000#32).wellFormed = true ∧
    (Instr.advance 0x3F000001#32 0x3F000000#32).wellFormed = false ∧
    (Instr.advance 0x3F000000#32 0x3F800001#32).wellFormed = false := by decide

/-- WRAP_UP: q below 1; inc not above 0. -/
theorem test_wellFormed_wrapUp :
    (Instr.wrapUp 0x3F800000#32 0x3DCCCCCD#32).wellFormed = true ∧
    (Instr.wrapUp 0x3F7FFFFF#32 0x3DCCCCCD#32).wellFormed = false ∧
    (Instr.wrapUp 0x3F800000#32 0x00000000#32).wellFormed = false := by decide

/-- WRAP_DN: q = 0; inc not below 0. -/
theorem test_wellFormed_wrapDn :
    (Instr.wrapDn 0x80000001#32 0xBDCCCCCD#32).wellFormed = true ∧
    (Instr.wrapDn 0x00000000#32 0xBDCCCCCD#32).wellFormed = false ∧
    (Instr.wrapDn 0x80000001#32 0x80000000#32).wellFormed = false := by decide

/-- PULSE_EDGE_UP: p = 1; inc below 0; a NaN width. -/
theorem test_wellFormed_pulseEdgeUp :
    (Instr.pulseEdgeUp 0x3F7FFFFF#32 0x80000000#32 0x3F000000#32).wellFormed = true ∧
    (Instr.pulseEdgeUp 0x3F800000#32 0x80000000#32 0x3F000000#32).wellFormed = false ∧
    (Instr.pulseEdgeUp 0x3F7FFFFF#32 0x80000001#32 0x3F000000#32).wellFormed = false ∧
    (Instr.pulseEdgeUp 0x3F7FFFFF#32 0x80000000#32 0x7FC00000#32).wellFormed = false := by decide

/-- PULSE_EDGE_DN: inc = 0; a negative width. -/
theorem test_wellFormed_pulseEdgeDn :
    (Instr.pulseEdgeDn 0x00000000#32 0x80000001#32 0x3F000000#32).wellFormed = true ∧
    (Instr.pulseEdgeDn 0x00000000#32 0x00000000#32 0x3F000000#32).wellFormed = false ∧
    (Instr.pulseEdgeDn 0x00000000#32 0x80000001#32 0x80000001#32).wellFormed = false := by decide

/-- TRI_FOLD_UP: a negative p; inc below 0. -/
theorem test_wellFormed_triFoldUp :
    (Instr.triFoldUp 0x3E800000#32 0x3DCCCCCD#32).wellFormed = true ∧
    (Instr.triFoldUp 0x80000001#32 0x3DCCCCCD#32).wellFormed = false ∧
    (Instr.triFoldUp 0x3E800000#32 0xBDCCCCCD#32).wellFormed = false := by decide

/-- TRI_FOLD_DN: p = 1; inc above 0. -/
theorem test_wellFormed_triFoldDn :
    (Instr.triFoldDn 0x3E800000#32 0xBF000000#32).wellFormed = true ∧
    (Instr.triFoldDn 0x3F800000#32 0xBF000000#32).wellFormed = false ∧
    (Instr.triFoldDn 0x3E800000#32 0x3F000000#32).wellFormed = false := by decide

/-! ### Decoding, from words written out bit by bit (30_encoding.md R52, R53, R58, R60) -/

/-- 26 reserved zeros, CONN_SIN..CONN_SAW = 0101, CMD = 00; the data words are not read (R121). -/
theorem test_decode_nop :
    decodeFrame (.command 0b00000000000000000000000000_0101_00#32 0x7FC00000#32 0x12345678#32 0xFFFFFFFF#32) =
      .ok (.nop { saw := true, sq := false, tri := true, sin := false }) := by rfl

/-- CONN = 1000 (SIN), CMD = 01; INC, PW and RST each at its own place. -/
theorem test_decode_tick :
    decodeFrame (.command 0b00000000000000000000000000_1000_01#32 0x3DCCCCCD#32 0x3F000000#32 0x40A00000#32) =
      .ok (.tick { saw := false, sq := false, tri := false, sin := true } 0x3DCCCCCD#32 0x3F000000#32 0x40A00000#32) := by rfl

/-- CMD = 10, bits 31 and 6 set: still the reserved command, not the reserved field. -/
theorem test_decode_rsvdCmd2 :
    decodeFrame (.command 0b10000000000000000000000001_0000_10#32 0#32 0#32 0#32) =
      .ok (.rsvdCmd2 0b10000000000000000000000001_0000#30) := by rfl

/-- CMD = 11. -/
theorem test_decode_rsvdCmd3 :
    decodeFrame (.command 0b00000000000000000000000000_0011_11#32 0#32 0#32 0#32) = .ok (.rsvdCmd3 0b0011#30) := by rfl

/-- The eight event bits, R58: ADV is bit 0 and RESET bit 7. -/
theorem test_decode_transitions :
    decodeFrame (.transition 0b00000001#8 1#32 2#32 3#32) = .ok (.advance 1#32 2#32) ∧
    decodeFrame (.transition 0b00000010#8 1#32 2#32 3#32) = .ok (.wrapUp 1#32 2#32) ∧
    decodeFrame (.transition 0b00000100#8 1#32 2#32 3#32) = .ok (.wrapDn 1#32 2#32) ∧
    decodeFrame (.transition 0b00001000#8 1#32 2#32 3#32) = .ok (.pulseEdgeUp 1#32 2#32 3#32) ∧
    decodeFrame (.transition 0b00010000#8 1#32 2#32 3#32) = .ok (.pulseEdgeDn 1#32 2#32 3#32) ∧
    decodeFrame (.transition 0b00100000#8 1#32 2#32 3#32) = .ok (.triFoldUp 1#32 2#32) ∧
    decodeFrame (.transition 0b01000000#8 1#32 2#32 3#32) = .ok (.triFoldDn 1#32 2#32) ∧
    decodeFrame (.transition 0b10000000#8 1#32 2#32 3#32) = .ok .reset ∧
    decodeFrame (.transition 0b00000011#8 1#32 2#32 3#32) = .error (.notOneTransition 0b00000011#8) :=
  ⟨rfl, rfl, rfl, rfl, rfl, rfl, rfl, rfl, rfl⟩

/-- R61: bit 6 and bit 31 of CTRL are reserved. -/
theorem test_decode_reserved_field :
    decodeFrame (.command 0x00000041#32 0#32 0#32 0#32) = .error (.reservedField 0x00000041#32) ∧
    decodeFrame (.command 0x80000000#32 0#32 0#32 0#32) = .error (.reservedField 0x80000000#32) := ⟨rfl, rfl⟩

/-- V44-1's words as bytes, least significant first (20_memory.md R39). -/
theorem test_decode_bytes :
    decodeBytes .command [0x3D#8, 0#8, 0#8, 0#8, 0xCD#8, 0xCC#8, 0xCC#8, 0x3D#8, 0#8, 0#8, 0#8, 0x3F#8, 0#8, 0#8, 0#8, 0#8, 0xAA#8] =
      .ok (.tick ⟨true, true, true, true⟩ 0x3DCCCCCD#32 0x3F000000#32 0#32, [0xAA#8]) ∧
    decodeBytes .command [0x3D#8, 0#8] = .error .truncated := ⟨rfl, rfl⟩

/-- The opcode table's words: CTRL32 rows of 32 bits, EV8 rows of 8. -/
theorem test_decodeTableWord :
    decodeTableWord 32 0x0 = some (.nop noConn) ∧ decodeTableWord 32 0x1 = some (.tick noConn 0 0 0) ∧
    decodeTableWord 32 0x2 = some (.rsvdCmd2 0) ∧ decodeTableWord 32 0x3 = some (.rsvdCmd3 0) ∧
    decodeTableWord 8 0x01 = some (.advance 0 0) ∧ decodeTableWord 8 0x02 = some (.wrapUp 0 0) ∧
    decodeTableWord 8 0x04 = some (.wrapDn 0 0) ∧ decodeTableWord 8 0x08 = some (.pulseEdgeUp 0 0 0) ∧
    decodeTableWord 8 0x10 = some (.pulseEdgeDn 0 0 0) ∧ decodeTableWord 8 0x20 = some (.triFoldUp 0 0) ∧
    decodeTableWord 8 0x40 = some (.triFoldDn 0 0) ∧ decodeTableWord 8 0x80 = some .reset := by decide +kernel

/-- step runs the instruction withFetchWord presents. -/
theorem test_withFetchWord :
    step (State.reset.withFetchWord 32 0x1) = exec (.tick noConn 0 0 0) State.reset ∧
    step (State.reset.withFetchWord 8 0x80) = exec .reset State.reset := ⟨rfl, rfl⟩

/-! ### One step per instruction, from 95_test_vectors.md -/

/-- V44-3: a NOP with RST = 5.0 samples no trigger. -/
theorem test_nop_samples_no_trigger : (after (.nop noConn) State.reset).trigHigh = false := by decide +kernel

/-- V44-1: the first TICK. -/
theorem test_tick_first :
    let t := run1 0x3DCCCCCD#32 0x3F000000#32 0#32 State.reset
    t.phase = 0x3DCCCCCD#32 ∧ t.ev = 0x01#8 ∧ t.squareHigh = true ∧ t.triRising = true ∧ t.halfHigh = false ∧
    t.subParity = false ∧ t.out = ⟨0xC0A00000#32, 0x00000000#32, 0xC0A00000#32, 0x403C175E#32⟩ ∧ t.n = 1 := by decide +kernel

/-- V60-1 to V60-4 and V60-6: the first word that is not finite, in the order INC, PW, RST. -/
theorem test_tick_fault :
    operandFault 0x7FC00000#32 0x7FC00000#32 0#32 = some ⟨1, 1, 0x7FC00000#32⟩ ∧
    operandFault 0x3DCCCCCD#32 0xFF800000#32 0#32 = some ⟨1, 2, 0xFF800000#32⟩ ∧
    operandFault 0x7F800000#32 0x3F000000#32 0#32 = some ⟨1, 1, 0x7F800000#32⟩ ∧
    operandFault 0x3DCCCCCD#32 0x3F000000#32 0x7FC00001#32 = some ⟨1, 3, 0x7FC00001#32⟩ := by decide +kernel

/-- V44-4: a reserved command is refused and writes nothing. -/
theorem test_rsvdCmd2 : after (.rsvdCmd2 0) State.reset = { State.reset with refused := true } := by decide +kernel

/-- V44-4, with the bits above CMD set. -/
theorem test_rsvdCmd3 : after (.rsvdCmd3 0x3FFFFFFF#30) State.reset = { State.reset with refused := true } := by decide +kernel

/-- V40-12: a wrap, a pulse edge and a fold in one advance. -/
theorem test_advance_all_events :
    let t := after (.advance 0x3F000000#32 0x3F000000#32) (atPhase 0x3F333333#32 0x3F000000#32)
    t.phase = 0x3E4CCCD0#32 ∧ t.work.ev = 0x2B#8 ∧ t.subParity = true ∧
    t.work.np = ⟨⟨true, 0x3F199998#32, 0x3F800000#32⟩, ⟨true, 0x3F199998#32, 0xC0000000#32⟩, ⟨true, 0x3DCCCCC0#32, 0x40000000#32⟩⟩ := by
  decide +kernel

/-- V40-15: an increment of -0.0 holds the phase. -/
theorem test_advance_zero :
    let t := after (.advance 0x80000000#32 0x3F000000#32) (atPhase 0x3E99999A#32 0x3F000000#32)
    t.phase = 0x3E99999A#32 ∧ t.work.ev = 0x01#8 ∧ t.work.np = .inactive := by decide +kernel

/-- V1.1a: the largest q, 1.5. -/
theorem test_wrapUp_largest_q :
    let t := after (.wrapUp 0x3FC00000#32 0x3F000000#32) State.reset
    t.phase = 0x3F000000#32 ∧ t.work.np.saw = ⟨true, 0x00000000#32, 0x3F800000#32⟩ ∧ t.work.ev = 0x02#8 ∧
    t.subParity = true := by decide +kernel

/-- V40-5: q = 1 exactly. -/
theorem test_wrapUp_at_one :
    let t := after (.wrapUp 0x3F800000#32 0x3E800000#32) State.reset
    t.phase = 0x00000000#32 ∧ t.work.np.saw = ⟨true, 0x3F800000#32, 0x3F800000#32⟩ := by decide +kernel

/-- V1.1b: q + 1 rounds to 1. -/
theorem test_wrapDn_rounds_to_one :
    let t := after (.wrapDn 0xB0800000#32 0xB1000000#32) State.reset
    t.phase = 0x3F7FFFFF#32 ∧ t.work.np.saw.u = 0xBF800000#32 ∧ t.work.ev = 0x04#8 := by decide +kernel

/-- V40-3: q = -0.1. -/
theorem test_wrapDn :
    let t := after (.wrapDn 0xBDCCCCCD#32 0xBDCCCCCD#32) State.reset
    t.phase = 0x3F666666#32 ∧ t.work.np.saw = ⟨true, 0x00000000#32, 0xBF800000#32⟩ := by decide +kernel

/-- V40-6: a falling edge. -/
theorem test_pulseEdgeUp :
    let t := after (.pulseEdgeUp 0x3F0CCCCD#32 0x3DCCCCCD#32 0x3F000000#32) State.reset
    t.squareHigh = false ∧ t.work.ev = 0x08#8 ∧ t.work.np.sq = ⟨true, 0x3EFFFFFC#32, 0x40000000#32⟩ := by decide +kernel

/-- V40-7: a rising edge, phase down. -/
theorem test_pulseEdgeDn :
    let t := after (.pulseEdgeDn 0x3EE66667#32 0xBDCCCCCD#32 0x3F000000#32) { State.reset with squareHigh := false }
    t.squareHigh = true ∧ t.work.ev = 0x10#8 ∧ t.work.np.sq = ⟨true, 0x3F000003#32, 0xC0000000#32⟩ := by decide +kernel

/-- V40-8: the peak. -/
theorem test_triFoldUp_peak :
    let t := after (.triFoldUp 0x3E99999A#32 0x3DCCCCCD#32) State.reset
    t.triRising = false ∧ t.work.ev = 0x20#8 ∧ t.work.np.tri = ⟨true, 0x3EFFFFFC#32, 0xBECCCCCD#32⟩ := by decide +kernel

/-- V40-11: the trough, phase down. -/
theorem test_triFoldDn_trough :
    let t := after (.triFoldDn 0x3F333333#32 0xBDCCCCCD#32) State.reset
    t.triRising = false ∧ t.work.ev = 0x40#8 ∧ t.work.np.tri = ⟨true, 0x3EFFFFFC#32, 0x3ECCCCCD#32⟩ := by decide +kernel

/-- R123's example: phase 0.63. -/
theorem test_reset :
    let t := after .reset { atPhase 0x3F2147AE#32 0x3F000000#32 with subParity := true }
    t.phase = 0x00000000#32 ∧ t.prevPhase = 0x3F2147AE#32 ∧ t.squareHigh = true ∧ t.triRising = true ∧ t.halfHigh = false ∧
    t.subParity = false ∧ t.work.ev = 0x80#8 := by decide +kernel

/-! ### Units -/

/-- V43-1 and V41-3: the shift, then the injection (program A, tick 2). -/
theorem test_inject :
    let l : Line := ⟨0x3F400000#32, 0x3F59999A#32, 0x3F733333#32, 0x3D4CCCC0#32⟩
    let s := { State.reset with
      buf := { State.reset.buf with saw := l }
      pend := { State.reset.pend with saw := ⟨true, 0x3F000008#32, 0x3F800000#32⟩ } }
    (inject (defaultParams 0x3F800000#32) .saw s).buf.saw =
      ⟨0x3F3F5555#32, 0x3F264449#32, 0x3F934446#32, 0x3D57776D#32⟩ := by decide +kernel

/-- V41-2: the default ramp kernel. -/
theorem test_ramp_kernel :
    rampKernel (defaultParams 0x3F800000#32) 0x3F000008#32 =
      ⟨0x3988885E#32, 0x3D7EEED5#32, 0x3D7EEF0A#32, 0x398888B3#32⟩ := by decide +kernel

/-- V44-6 and V44-7: a high level with no rising edge arms nothing; at power-on a level at the threshold is an edge. -/
theorem test_trigger :
    (run1 0#32 0x3F000000#32 0x40000000#32 State.reset).resetArmed = true ∧
    (run1 0#32 0x3F000000#32 0x40000000#32 { State.reset with trigHigh := true }).resetArmed = false ∧
    (runTick (defaultParams 0#32) 0#32 0x3F000000#32 0#32 State.reset).resetArmed = true := by decide +kernel

/-! ### Witnesses: for each statement with hypotheses, values that meet them all, one per clause -/

theorem witness_StepRunsDecodedInstruction :
    let f : Frame := .command 0x0000003D#32 0x3DCCCCCD#32 0x3F000000#32 0#32
    let s := { State.reset with input := [f] }
    s.fault = none ∧ s.refused = false ∧ s.input = f :: [] ∧
    decodeFrame f = .ok (.tick ⟨true, true, true, true⟩ 0x3DCCCCCD#32 0x3F000000#32 0#32) := ⟨rfl, rfl, rfl, rfl⟩

theorem witness_IdleBlockHoldsItsState :
    State.reset.fault = none ∧ State.reset.refused = false ∧ State.reset.input = [] := ⟨rfl, rfl, rfl⟩

theorem witness_MarkedModelRunsNoCommand :
    (∃ s : State, ∃ info : FaultInfo, s.fault = some info) ∧ (∃ s : State, s.fault = none ∧ s.refused = true) :=
  ⟨⟨{ State.reset with fault := some ⟨1, 1, 0x7FC00000#32⟩ }, _, rfl⟩, ⟨{ State.reset with refused := true }, rfl, rfl⟩⟩

/-- V44-4, V44-5 and V60-5, at the least and the greatest reserved bit. -/
theorem witness_ReservedCtrlWordIsRefused :
    let s := fun ctrl : Word => { State.reset with input := [.command ctrl 0x7FC00000#32 0 0] }
    (∀ ctrl, (s ctrl).fault = none ∧ (s ctrl).refused = false ∧ (s ctrl).input = .command ctrl 0x7FC00000#32 0 0 :: []) ∧
    0x00000002#32 &&& 3#32 = 2#32 ∧ 0x00000003#32 &&& 3#32 = 3#32 ∧ 0x00000041#32 >>> 6 ≠ 0#32 ∧ 0x80000000#32 >>> 6 ≠ 0#32 :=
  ⟨fun _ => ⟨rfl, rfl, rfl⟩, by decide, by decide, by decide, by decide⟩

theorem witness_DecodedCommandKeepsItsWords :
    decodeFrame (.command 0x0000003C#32 1#32 2#32 3#32) = .ok (.nop ⟨true, true, true, true⟩) ∧
    decodeFrame (.command 0x0000003D#32 1#32 2#32 3#32) = .ok (.tick ⟨true, true, true, true⟩ 1#32 2#32 3#32) ∧
    0x0000003D#32 &&& 3#32 = 1#32 := ⟨rfl, rfl, by decide⟩

theorem witness_NopChangesNothing :
    let s := { State.reset with input := [.command 0x0000003C#32 0x7FC00000#32 0 0x40A00000#32] }
    s.fault = none ∧ s.refused = false ∧ s.input = .command 0x0000003C#32 0x7FC00000#32 0 0x40A00000#32 :: [] ∧
    0x0000003C#32 &&& 0xFFFFFFC3#32 = 0#32 := ⟨rfl, rfl, rfl, by decide⟩

/-- The least infinite pattern of each sign is infinite, and the greatest finite one is not. -/
theorem witness_NonFiniteWordRaisesInputFault :
    let infinite := fun x : F32 => x.extractLsb' 23 8 = 0xFF#8
    infinite 0x7F800000#32 ∧ infinite 0xFF800000#32 ∧ infinite 0x7FC00001#32 ∧ ¬ infinite 0x7F7FFFFF#32 ∧
    ¬ infinite 0xFF7FFFFF#32 := by decide

theorem witness_PowerOnMeetsTheInvariants : fgt 0x00000001#32 posZero = true := by decide

/-- Every finite word at the ends of the finite range, and an unarmed and an armed state. -/
theorem witness_finite_words :
    isFinite 0x7F7FFFFF#32 = true ∧ isFinite 0xFF7FFFFF#32 = true ∧ isFinite 0x80000001#32 = true ∧
    State.reset.resetArmed = false ∧ ({ State.reset with resetArmed := true } : State).resetArmed = true := by decide

/-- The three outcomes at their boundaries: q = 1, q = -2^-149 and q = 0. -/
theorem witness_AdvancingTickWraps :
    let q := fun inc : F32 => fun s : State => fadd s.phase (fclamp inc (fneg half) half)
    let up := atPhase half half
    isFinite half = true ∧ isFinite posZero = true ∧ isFinite 0x80000001#32 = true ∧
    up.resetArmed = false ∧ State.reset.resetArmed = false ∧
    fge (q half up) one = true ∧
    fge (q 0x80000001#32 State.reset) one = false ∧ flt (q 0x80000001#32 State.reset) posZero = true ∧
    fge (q posZero State.reset) one = false ∧ flt (q posZero State.reset) posZero = false := by decide +kernel

/-- No change; a change with inc > 0, with inc < 0 and with inc = -0. -/
theorem witness_AdvancingTickDetectsPulseEdges :
    isFinite 0x3DCCCCCD#32 = true ∧ isFinite 0xBDCCCCCD#32 = true ∧ isFinite negZero = true ∧ isFinite half = true ∧
    State.reset.resetArmed = false ∧
    (run1 0x3DCCCCCD#32 half posZero State.reset).squareHigh = State.reset.squareHigh ∧
    (run1 0x3DCCCCCD#32 posZero posZero State.reset).squareHigh ≠ State.reset.squareHigh ∧
    fgt (fclamp 0x3DCCCCCD#32 (fneg half) half) posZero = true ∧
    (run1 0xBDCCCCCD#32 half posZero State.reset).squareHigh ≠ State.reset.squareHigh ∧
    flt (fclamp 0xBDCCCCCD#32 (fneg half) half) posZero = true ∧
    (run1 negZero posZero posZero State.reset).squareHigh ≠ State.reset.squareHigh ∧
    feq (fclamp negZero (fneg half) half) posZero = true := by decide +kernel

/-- No change; a change with inc > 0 (the fold at 0.25 exactly) and with inc < 0. -/
theorem witness_AdvancingTickDetectsFolds :
    isFinite quarter = true ∧ isFinite (fneg half) = true ∧ State.reset.resetArmed = false ∧
    (run1 posZero half posZero State.reset).triRising = State.reset.triRising ∧
    (run1 quarter half posZero State.reset).triRising ≠ State.reset.triRising ∧
    fgt (fclamp quarter (fneg half) half) posZero = true ∧
    (run1 (fneg half) half posZero State.reset).triRising ≠ State.reset.triRising ∧
    fgt (fclamp (fneg half) (fneg half) half) posZero = false := by decide +kernel

theorem witness_ArmedTickTakesReset :
    isFinite 0x3DCCCCCD#32 = true ∧ isFinite half = true ∧ isFinite posZero = true ∧
    ({ State.reset with resetArmed := true } : State).resetArmed = true := by decide

theorem witness_TickShiftsAndInjects : isFinite 0x7F7FFFFF#32 = true ∧ isFinite half = true ∧ isFinite posZero = true := by decide

theorem witness_TickEmitsSlotZero : isFinite 0xFF7FFFFF#32 = true ∧ isFinite half = true ∧ isFinite posZero = true := by decide

theorem witness_TickSamplesTheTrigger : isFinite 0x3DCCCCCD#32 = true ∧ isFinite half = true ∧ isFinite 0x40A00000#32 = true := by
  decide

theorem witness_TickCountsAndKeepsTheRest : isFinite negZero = true ∧ isFinite one = true ∧ isFinite posZero = true := by decide

/-- Both clauses of RESET: an unarmed and an armed state. -/
theorem witness_EventWordConstraints :
    isFinite 0x3DCCCCCD#32 = true ∧ isFinite half = true ∧ isFinite posZero = true ∧
    (run1 0x3DCCCCCD#32 half posZero State.reset).ev.getLsbD 7 = false ∧
    (run1 0x3DCCCCCD#32 half posZero { State.reset with resetArmed := true }).ev.getLsbD 7 = true := by decide +kernel

/-- Unarmed; armed, with the least width above 0. -/
theorem witness_FlagsAgreeAfterTick :
    isFinite 0x3DCCCCCD#32 = true ∧ isFinite 0x00000001#32 = true ∧ isFinite posZero = true ∧
    State.reset.resetArmed = false ∧ ({ State.reset with resetArmed := true } : State).resetArmed = true ∧
    fgt (fclamp 0x00000001#32 posZero one) posZero = true := by decide

/-- RST exactly at the threshold. -/
theorem witness_TriggerEdgeResetsNextTick :
    isFinite 0x3DCCCCCD#32 = true ∧ isFinite half = true ∧ isFinite one = true ∧ State.reset.trigHigh = false ∧
    fge one (defaultParams one).resetThreshold = true := by decide

theorem witness_ResetIsIdempotent :
    isFinite 0x3DCCCCCD#32 = true ∧ isFinite half = true ∧ isFinite posZero = true ∧
    ({ State.reset with resetArmed := true } : State).resetArmed = true := by decide

/-- A block at rest at phase 0 detects nothing over two TICKs. -/
theorem witness_SlotThreeIsEmittedThreeTicksLater :
    let t := run1 posZero half posZero State.reset
    let u := run1 posZero half posZero t
    isFinite posZero = true ∧ isFinite half = true ∧
    (recordOf .sq State.reset.pend).active = false ∧ (recordOf .sq t.pend).active = false ∧
    (recordOf .sq u.pend).active = false := by decide +kernel

theorem witness_FirstTickEmitsPowerOnSlots : isFinite 0x3DCCCCCD#32 = true ∧ isFinite half = true ∧ isFinite posZero = true := by
  decide

/-- A held phase at 0 and just below 1; the width moved across it. -/
theorem witness_ZeroIncrementHoldsThePhase :
    let s := atPhase 0x3F7FFFFF#32 half
    isZero posZero = true ∧ isZero negZero = true ∧ isFinite one = true ∧ isFinite posZero = true ∧
    s.resetArmed = false ∧ phaseInRange s = true ∧ phaseSignClear s = true ∧ flagsAgree s = true ∧
    (run1 negZero one posZero s).pend.sq.active = true ∧
    State.reset.resetArmed = false ∧ phaseInRange State.reset = true ∧ phaseSignClear State.reset = true ∧
    flagsAgree State.reset = true := by decide +kernel

/-- q = 1 and q = 1.5; the least and the greatest inc. -/
theorem witness_WrapUpResult :
    within one one oneAndHalf = true ∧ within one oneAndHalf oneAndHalf = true ∧ fgt 0x00000001#32 posZero = true ∧
    fle 0x00000001#32 half = true ∧ fgt half posZero = true ∧ fle half half = true := by decide

/-- q = -0.5 and q = -2^-149; the same for inc. -/
theorem witness_WrapDnResult :
    fle (fneg half) (fneg half) = true ∧ flt (fneg half) posZero = true ∧ fle (fneg half) 0x80000001#32 = true ∧
    flt 0x80000001#32 posZero = true := by decide

/-- p at both ends; pwc at both ends; inc in each of the three clauses, an edge and none. -/
theorem witness_PulseEdgeResults :
    fle posZero posZero = true ∧ flt posZero one = true ∧ fle posZero 0x3F7FFFFF#32 = true ∧ flt 0x3F7FFFFF#32 one = true ∧
    within posZero posZero one = true ∧ within posZero one one = true ∧
    (fgt half posZero = true ∧ fle half half = true) ∧ isZero negZero = true ∧
    (flt 0x80000001#32 posZero = true ∧ fle (fneg half) 0x80000001#32 = true) ∧
    flt posZero one = State.reset.squareHigh ∧ flt posZero posZero ≠ State.reset.squareHigh := by decide

/-- p at both ends and at a fold point; inc in each of the three clauses. -/
theorem witness_TriFoldResults :
    fle posZero posZero = true ∧ flt posZero one = true ∧ fle posZero 0x3F7FFFFF#32 = true ∧ flt 0x3F7FFFFF#32 one = true ∧
    fle posZero quarter = true ∧ flt quarter one = true ∧
    (fgt half posZero = true ∧ fle half half = true) ∧ isZero posZero = true ∧
    (flt 0x80000001#32 posZero = true ∧ fle (fneg half) 0x80000001#32 = true) := by decide

theorem witness_AdvanceResult :
    within (fneg half) (fneg half) half = true ∧ within (fneg half) half half = true ∧ within posZero posZero one = true ∧
    within posZero one one = true := by decide

theorem witness_IllFormedTransitionIsNotTaken : (Instr.wrapUp posZero posZero).wellFormed = false := by decide

/-- A TICK that wraps, from a state that meets every invariant. -/
def busy : State := { atPhase 0x3F7FFFFF#32 half with input := [.command 0x0000003D#32 half half posZero] }

theorem busy_steps : ∃ t, step busy = .next t := ⟨_, rfl⟩

theorem witness_PhaseContainment : phaseInRange busy = true ∧ ∃ t, step busy = .next t := ⟨by decide, busy_steps⟩

theorem witness_PhaseNeverMinusZero :
    phaseInRange busy = true ∧ phaseSignClear busy = true ∧ ∃ t, step busy = .next t := ⟨by decide, by decide, busy_steps⟩

theorem witness_FlagConsistencyKept :
    commandsOnly busy = true ∧ flagsAgree busy = true ∧ ∃ t, step busy = .next t := ⟨by decide, by decide, busy_steps⟩

/-- A state with every buffer at its limits, below and above. -/
def extreme : State :=
  { busy with
    buf :=
      { saw := ⟨sawBounds.hi.s0, sawBounds.lo.s1, sawBounds.hi.s2, sawBounds.lo.s3⟩
        sq := ⟨squareBounds.lo.s0, squareBounds.hi.s1, squareBounds.lo.s2, squareBounds.hi.s3⟩
        tri := ⟨triangleBounds.hi.s0, triangleBounds.lo.s1, triangleBounds.hi.s2, triangleBounds.lo.s3⟩
        pw := ⟨one, fneg one, one, fneg one⟩ }
    pend := { saw := ⟨true, one, two⟩, sq := ⟨true, posZero, fneg two⟩, tri := ⟨true, half, two⟩ } }

theorem witness_BufferValuesStayBounded : numbersBounded extreme = true ∧ ∃ t, step extreme = .next t := ⟨by decide, _, rfl⟩

/-- Armed with the level high, and not armed. -/
def armed : State := { busy with resetArmed := true, trigHigh := true }

theorem witness_ArmedOnlyWhileHighKept :
    armedOnlyHigh armed = true ∧ (∃ t, step armed = .next t) ∧ armedOnlyHigh busy = true ∧ ∃ t, step busy = .next t :=
  ⟨by decide, ⟨_, rfl⟩, by decide, busy_steps⟩

theorem witness_NoConsecutiveResets :
    isFinite half = true ∧ isFinite posZero = true ∧ armedOnlyHigh armed = true ∧
    ∃ t u, exec (.tick noConn half half posZero) armed = .next t ∧ exec (.tick noConn half half posZero) t = .next u ∧
      t.ev.getLsbD 7 = true := ⟨by decide, by decide, by decide, _, _, rfl, rfl, by rfl⟩

/-- A step that completes no TICK, and one that does. -/
theorem witness_OnlyCompletedTicksWriteTheOutputs :
    (step State.reset = .next State.reset) ∧ ∃ t, step busy = .next t ∧ t.n = busy.n + 1 := ⟨rfl, _, rfl, rfl⟩

/-- The ends of q, and each of the three outcomes. -/
theorem witness_AtMostOneWrap :
    phaseContained 0x3F7FFFFF#32 = true ∧ phaseContained half = true ∧ phaseContained posZero = true ∧
    incConditioned half = true ∧ incConditioned (fneg half) = true ∧ incConditioned 0x80000001#32 = true ∧
    fge (fadd half half) one = true ∧ flt (fadd posZero 0x80000001#32) posZero = true ∧
    (fge (fadd posZero half) one = false ∧ flt (fadd posZero half) posZero = false) := by decide +kernel

theorem witness_WrapUpSubtractionIsExact : within one one oneAndHalf = true ∧ within one oneAndHalf oneAndHalf = true := by decide

/-- q = -2^-25 and q = -2^-149. -/
theorem witness_TinyNegativeWrapsJustBelowOne :
    (fle 0xB3000000#32 0xB3000000#32 = true ∧ flt 0xB3000000#32 posZero = true) ∧
    (fle 0xB3000000#32 0x80000001#32 = true ∧ flt 0x80000001#32 posZero = true) := by decide

/-- The ends of the finite range, inc = -0 and inc = 2^-149. -/
theorem witness_CrossingFractionInUnitInterval :
    isFinite 0x7F7FFFFF#32 = true ∧ isFinite 0xFF7FFFFF#32 = true ∧ isFinite negZero = true ∧ isFinite 0x00000001#32 = true ∧
    isZero negZero = true ∧ isZero 0x00000001#32 = false := by decide

theorem witness_TriangleMagnitudeIsExact : incConditioned (fneg half) = true ∧ incConditioned half = true := by decide

/-- The widths at the two silence limits, and the ends. -/
theorem witness_SilentExactlyAtTheWidthLimits :
    widthConditioned posZero = true ∧ widthConditioned one = true ∧ widthConditioned 0x3F7EB852#32 = true ∧
    widthConditioned 0x3BA3D720#32 = true := by decide

/-- k = 0, and k = 2^19 - 1 (p = 0.5 - 2^-20). -/
theorem witness_TriangleHalfCycleSymmetry :
    (0 < 2 ^ 19 ∧ isFinite posZero = true ∧ isFinite half = true ∧ value posZero = 0 * 2 ^ 129 ∧
      value half = value posZero + 2 ^ 148) ∧
    (524287 < 2 ^ 19 ∧ isFinite 0x3EFFFFE0#32 = true ∧ isFinite 0x3F7FFFF0#32 = true ∧
      value 0x3EFFFFE0#32 = 524287 * 2 ^ 129 ∧ value 0x3F7FFFF0#32 = value 0x3EFFFFE0#32 + 2 ^ 148) := by decide +kernel

/-- Both ends of [0, 0.5), and both zeros. -/
theorem witness_SineHasItsThreeProperties :
    phaseContained posZero = true ∧ phaseContained 0x3F7FFFFF#32 = true ∧
    (withinBelow posZero posZero half = true ∧ isFinite half = true ∧ value half = value posZero + value half) ∧
    (withinBelow posZero 0x3EFFFFE0#32 half = true ∧ isFinite 0x3F7FFFF0#32 = true ∧
      value 0x3F7FFFF0#32 = value 0x3EFFFFE0#32 + value half) ∧
    isZero posZero = true ∧ isZero negZero = true := by decide +kernel

/-- A function with R108's properties: 1 at 0.25, -1 at 0.75, 0 elsewhere. -/
def peaks (p : F32) : F32 := if value p = value quarter then one else if value p = value threeQuarters then fneg one else posZero

theorem peaks_half (p p' : F32) (h : value p < value half) (h0 : 0 ≤ value p) (h' : value p' = value p + value half) :
    value (peaks p') = -value (peaks p) := by
  have hq : value quarter = 2 ^ 147 := by decide
  have hh : value half = 2 ^ 148 := by decide
  have ht : value threeQuarters = 2 ^ 148 + 2 ^ 147 := by decide
  have v1 : value (fneg one) = -value one := value_fneg one
  have v0 : value posZero = -value posZero := by decide
  unfold peaks
  rw [hh] at h h'
  rw [hq, ht, if_neg (by omega : ¬ value p' = 2 ^ 147), if_neg (by omega : ¬ value p = 2 ^ 148 + 2 ^ 147)]
  by_cases hp : value p = 2 ^ 147
  · rw [if_pos hp, if_pos (by omega), v1]
  · rw [if_neg hp, if_neg (by omega)]; exact v0

/-- Some function has all of R108's properties. -/
theorem witness_LawfulSineIsUnchanged :
    (∀ p : F32, phaseContained p = true → within (fneg one) (peaks p) one = true) ∧
    (∀ p p' : F32, withinBelow posZero p half = true → isFinite p' = true → value p' = value p + value half →
      value (peaks p') = -value (peaks p)) ∧
    (∀ p : F32, isZero p = true → value (peaks p) = 0) ∧ value (peaks quarter) = value one := by
  refine ⟨fun p _ => ?_, fun p p' h _ h' => ?_, fun p h => ?_, by decide⟩
  · unfold peaks; split
    · decide
    · split <;> decide
  · have hb : within posZero p half = true := by
      simp only [withinBelow, within, flt, fle, Bool.and_eq_true, decide_eq_true_eq] at h ⊢
      exact ⟨h.1, h.2.1, le_of_lt h.2.2⟩
    have hf := ((within_iff (by decide) (by decide)).1 hb).1
    simp only [withinBelow, Bool.and_eq_true] at h
    rw [fle_iff (by decide) hf, flt_iff hf (by decide)] at h
    exact peaks_half p p' h.2 (by have := h.1; rwa [show value posZero = 0 by decide] at this) h'
  · have h0 : value p = 0 := by rw [value_eq, (isZero_iff p).1 h, magOfBits_zero]; simp
    have hq : value quarter = 2 ^ 147 := by decide
    have ht : value threeQuarters = 2 ^ 148 + 2 ^ 147 := by decide
    unfold peaks
    rw [h0, hq, ht, if_neg (by norm_num), if_neg (by norm_num)]; decide

theorem witness_OutputsStayWithinFiveVolts :
    isFinite half = true ∧ isFinite posZero = true ∧ numbersBounded extreme = true ∧ numbersBounded State.reset = true := by decide

/-- Both clauses: the spec's default, and the default given as a replacement. -/
theorem witness_RampKernelTable :
    (defaultParams one).ramp = none ∧
    ({ defaultParams one with ramp := some defaultAsReplacement } : Params).ramp = some defaultAsReplacement := ⟨rfl, rfl⟩

/-- The ends of the crossing fractions, and -0. -/
theorem witness_KernelTapsAreBounded :
    within posZero posZero one = true ∧ within posZero one one = true ∧ within posZero negZero one = true := by decide

/-- A state whose records are at their bounds. -/
theorem witness_CorrectedValueStaysWithinFourOfRaw :
    isFinite half = true ∧ isFinite posZero = true ∧ phaseInRange extreme = true ∧ recordsBounded extreme.pend = true := by
  decide

end Sys2Proof.Tests
end

section
/-! SUPPORT. The state (10_state.md): what one step can make of it, said once, and from that the power-on values, phase
containment, flag consistency, the frame of a completed TICK, and that nothing but a completed TICK writes the outputs. -/

namespace Sys2Proof.Machine

/-! ### The comparisons that bound a phase -/

theorem value_posZero : value posZero = 0 := by decide
theorem value_half : value half = 2 ^ 148 := by decide
theorem value_one : value one = 2 ^ 149 := by decide
theorem value_oneAndHalf : value oneAndHalf = 2 ^ 149 + 2 ^ 148 := by decide

/-- Between finite bounds, the upper one excluded, a value is finite, and the bounds are bounds of its exact value. -/
theorem withinBelow_iff {lo r hi : F32} (hl : isFinite lo = true) (hh : isFinite hi = true) :
    withinBelow lo r hi = true ↔ isFinite r = true ∧ value lo ≤ value r ∧ value r < value hi := by
  constructor
  · intro h
    have hw : within lo r hi = true := by
      simp only [withinBelow, within, flt, fle, Bool.and_eq_true, decide_eq_true_eq] at h ⊢
      exact ⟨h.1, h.2.1, h.2.2.le⟩
    have hf := ((within_iff hl hh).1 hw).1
    rw [withinBelow, Bool.and_eq_true, fle_iff hl hf, flt_iff hf hh] at h
    exact ⟨hf, h⟩
  · rintro ⟨hf, h⟩
    rwa [withinBelow, Bool.and_eq_true, fle_iff hl hf, flt_iff hf hh]

/-- A contained phase in exact values (10_state.md R31). -/
theorem phaseContained_iff (p : F32) : phaseContained p = true ↔ isFinite p = true ∧ 0 ≤ value p ∧ value p < 2 ^ 149 := by
  rw [phaseContained, withinBelow_iff (by decide) (by decide), value_posZero, value_one]

/-- A conditioned increment in exact values (40_phase_accumulator.md R65). -/
theorem incConditioned_iff (inc : F32) :
    incConditioned inc = true ↔ isFinite inc = true ∧ -2 ^ 148 ≤ value inc ∧ value inc ≤ 2 ^ 148 := by
  rw [incConditioned, within_iff (by decide) (by decide), value_fneg, value_half]

theorem within_fclamp {x lo hi : F32} (hx : isFinite x = true) (hl : isFinite lo = true) (hh : isFinite hi = true)
    (h : value lo ≤ value hi) : within lo (fclamp x lo hi) hi = true := by
  rw [within_iff hl hh, fclamp, fgt]
  by_cases hlow : flt x lo = true
  · rw [if_pos hlow]
    exact ⟨hl, le_rfl, h⟩
  rw [if_neg hlow]
  by_cases hhigh : flt hi x = true
  · rw [if_pos hhigh]
    exact ⟨hh, h, le_rfl⟩
  rw [if_neg hhigh]
  rw [flt_iff hx hl] at hlow
  rw [flt_iff hh hx] at hhigh
  exact ⟨hx, by omega, by omega⟩

/-- INPUT_CONDITION answers a conditioned increment (R65). -/
theorem incConditioned_conditionInc {inc : F32} (h : isFinite inc = true) : incConditioned (conditionInc inc) = true :=
  within_fclamp h (by decide) (by decide) (by decide)

theorem signBit_of_value_pos {x : F32} (h : 0 < value x) : signBit x = false := by
  rw [value_eq] at h
  by_contra hs
  rw [if_pos (by simpa using hs)] at h
  omega

/-- A sum whose exact value is not negative has sign 0, unless it is a sum of two negative zeros. -/
theorem signBit_fadd_of_nonneg {x y : F32} (hx : isFinite x = true) (hy : isFinite y = true) (h : 0 ≤ value x + value y)
    (hs : (signBit x && signBit y) = false) : signBit (fadd x y) = false := by
  simp only [fadd, hx, hy, hs, Bool.and_self, if_true, Bool.false_eq_true, if_false]
  split
  · decide
  · rw [signBit_pack (roundMag_le_inf _ _)]
    exact decide_eq_false (by omega)

/-- A sum of finite values that compares as not negative is exactly not negative: no negative sum rounds to zero. -/
theorem value_add_nonneg_of_fadd {x y : F32} (hx : isFinite x = true) (hy : isFinite y = true)
    (h : 0 ≤ value (fadd x y)) : 0 ≤ value x + value y := by
  by_contra hneg
  obtain ⟨s, n, hr, hv⟩ := fadd_round hx hy
  have hle : orderKey (fadd x y) ≤ orderKey (0x80000001#32 : F32) := by
    rw [hr]
    refine round_le Nat.one_pos (by decide) ?_
    rw [hv, show value (0x80000001#32 : F32) = -1 by decide]
    push_cast; omega
  rw [← value_le_iff, show value (0x80000001#32 : F32) = -1 by decide] at hle
  omega

/-! ### The phase after a wrap -/

/-- WRAP_UP on q in [1, 1.5] leaves a contained phase (40_phase_accumulator.md R67). -/
theorem phaseContained_wrapUpPhase {q : F32} (h : within one q oneAndHalf = true) : phaseContained (wrapUpPhase q) = true := by
  obtain ⟨hf, h1, h2⟩ := (within_iff (by decide) (by decide)).1 h
  rw [value_one] at h1
  rw [value_oneAndHalf] at h2
  have hw : within posZero (wrapUpPhase q) half = true := by
    refine within_fadd hf (by decide) (by decide) (by decide) ?_ ?_ <;>
      simp only [value_fneg, value_posZero, value_half, value_one] <;> omega
  obtain ⟨hpf, hp0, hp1⟩ := (within_iff (by decide) (by decide)).1 hw
  rw [value_posZero] at hp0
  rw [value_half] at hp1
  exact (phaseContained_iff _).2 ⟨hpf, hp0, by omega⟩

theorem signBit_wrapUpPhase {q : F32} (h : within one q oneAndHalf = true) : signBit (wrapUpPhase q) = false := by
  obtain ⟨hf, h1, -⟩ := (within_iff (by decide) (by decide)).1 h
  rw [value_one] at h1
  refine signBit_fadd_of_nonneg hf (by decide) ?_ ?_
  · rw [value_fneg, value_one]; omega
  · rw [signBit_of_value_pos (x := q) (by omega), Bool.false_and]

/-- WRAP_DN on q in [-0.5, 0) leaves a contained phase: q + 1 lies in [0.5, 1], and where it rounds to 1 the largest value
below 1 stands (R68). -/
theorem phaseContained_wrapDnPhase {q : F32} (h : withinBelow (fneg half) q posZero = true) :
    phaseContained (wrapDnPhase q) = true := by
  obtain ⟨hf, h1, h2⟩ := (withinBelow_iff (by decide) (by decide)).1 h
  rw [value_fneg, value_half] at h1
  rw [value_posZero] at h2
  have hw : within half (fadd q one) one = true := by
    refine within_fadd hf (by decide) (by decide) (by decide) ?_ ?_ <;> simp only [value_half, value_one] <;> omega
  obtain ⟨hpf, hp0, -⟩ := (within_iff (by decide) (by decide)).1 hw
  rw [value_half] at hp0
  unfold wrapDnPhase
  by_cases hge : fge (fadd q one) one = true
  · rw [if_pos hge]; decide
  · rw [if_neg hge]
    rw [fge, fle_iff (by decide) hpf, value_one] at hge
    exact (phaseContained_iff _).2 ⟨hpf, by omega, by omega⟩

theorem signBit_wrapDnPhase {q : F32} (h : withinBelow (fneg half) q posZero = true) : signBit (wrapDnPhase q) = false := by
  obtain ⟨hf, h1, -⟩ := (withinBelow_iff (by decide) (by decide)).1 h
  rw [value_fneg, value_half] at h1
  unfold wrapDnPhase
  by_cases hge : fge (fadd q one) one = true
  · rw [if_pos hge]; decide
  · rw [if_neg hge]
    refine signBit_fadd_of_nonneg hf (by decide) ?_ ?_
    · rw [value_one]; omega
    · rw [show signBit one = false by decide, Bool.and_false]

/-! ### The phase after an advance -/

/-- q = phase + inc of a contained phase and a conditioned increment is in [-0.5, 1.5] (R71). -/
theorem within_phase_add_inc {p inc : F32} (hp : phaseContained p = true) (hi : incConditioned inc = true) :
    within (fneg half) (fadd p inc) oneAndHalf = true := by
  obtain ⟨hpf, hp0, hp1⟩ := (phaseContained_iff p).1 hp
  obtain ⟨hif, hi0, hi1⟩ := (incConditioned_iff inc).1 hi
  refine within_fadd hpf hif (by decide) (by decide) ?_ ?_ <;> simp only [value_fneg, value_half, value_oneAndHalf] <;> omega

/-- The wrap decision on a q in [-0.5, 1.5] (R66): q is one WRAP_UP takes, or one WRAP_DN takes, or a contained phase. -/
theorem wrappedPhase_cases {q : F32} (h : within (fneg half) q oneAndHalf = true) :
    (within one q oneAndHalf = true ∧ wrappedPhase q = wrapUpPhase q) ∨
    (withinBelow (fneg half) q posZero = true ∧ wrappedPhase q = wrapDnPhase q) ∨
    (phaseContained q = true ∧ wrappedPhase q = q) := by
  obtain ⟨hf, hlo, hhi⟩ := (within_iff (by decide) (by decide)).1 h
  have hge : fge q one = true ↔ value one ≤ value q := fle_iff (by decide) hf
  have hlt : flt q posZero = true ↔ value q < value posZero := flt_iff hf (by decide)
  unfold wrappedPhase
  by_cases hup : fge q one = true
  · exact .inl ⟨(within_iff (by decide) (by decide)).2 ⟨hf, hge.1 hup, hhi⟩, if_pos hup⟩
  · rw [if_neg hup]
    by_cases hdn : flt q posZero = true
    · exact .inr (.inl ⟨(withinBelow_iff (by decide) (by decide)).2 ⟨hf, hlo, hlt.1 hdn⟩, if_pos hdn⟩)
    · rw [hge] at hup
      rw [hlt] at hdn
      exact .inr (.inr ⟨(withinBelow_iff (by decide) (by decide)).2 ⟨hf, by omega, by omega⟩, if_neg (by rwa [hlt])⟩)

/-- Phase containment over one advance (10_state.md R31). -/
theorem phaseContained_wrappedPhase {p inc : F32} (hp : phaseContained p = true) (hi : incConditioned inc = true) :
    phaseContained (wrappedPhase (fadd p inc)) = true := by
  obtain ⟨hq, he⟩ | ⟨hq, he⟩ | ⟨hq, he⟩ := wrappedPhase_cases (within_phase_add_inc hp hi) <;> rw [he]
  · exact phaseContained_wrapUpPhase hq
  · exact phaseContained_wrapDnPhase hq
  · exact hq

/-- An advance from a phase with sign 0 leaves a phase with sign 0. -/
theorem signBit_wrappedPhase {p inc : F32} (hp : phaseContained p = true) (hs : signBit p = false)
    (hi : incConditioned inc = true) : signBit (wrappedPhase (fadd p inc)) = false := by
  obtain ⟨hq, he⟩ | ⟨hq, he⟩ | ⟨hq, he⟩ := wrappedPhase_cases (within_phase_add_inc hp hi) <;> rw [he]
  · exact signBit_wrapUpPhase hq
  · exact signBit_wrapDnPhase hq
  · have hq0 := ((phaseContained_iff _).1 hq).2.1
    have hpf := ((phaseContained_iff p).1 hp).1
    have hif := ((incConditioned_iff inc).1 hi).1
    exact signBit_fadd_of_nonneg hpf hif (value_add_nonneg_of_fadd hpf hif hq0) (by rw [hs, Bool.false_and])

/-! ### What one instruction, and one step, can make of a state -/

/-- Everything an instruction i can make of a state s: one constructor per outcome of `exec`. -/
inductive Effect (s : State) : Instr → State → Prop where
  | idled (conn : Conn) : Effect s (.nop conn) s
  | notTaken {i : Instr} (h : i.wellFormed = false) : Effect s i s
  | refused2 (upper : BitVec 30) : Effect s (.rsvdCmd2 upper) (refuse s)
  | refused3 (upper : BitVec 30) : Effect s (.rsvdCmd3 upper) (refuse s)
  | faulted (conn : Conn) {inc pw rst : F32} {info : FaultInfo} (h : operandFault inc pw rst = some info) :
      Effect s (.tick conn inc pw rst) (raiseInputFault info s)
  | ticked (conn : Conn) {inc pw rst : F32} (h : operandFault inc pw rst = none) :
      Effect s (.tick conn inc pw rst) (tick Config.params (tickOperands inc pw rst) s)
  | advanced {inc pwc : F32} (h : advanceTaken inc pwc = true) : Effect s (.advance inc pwc) (advance inc pwc s)
  | wrappedUp {q inc : F32} (h : wrapUpTaken q inc = true) : Effect s (.wrapUp q inc) (wrapUp q inc s)
  | wrappedDn {q inc : F32} (h : wrapDnTaken q inc = true) : Effect s (.wrapDn q inc) (wrapDn q inc s)
  | edgeUp {p inc pwc : F32} (h : pulseEdgeUpTaken p inc pwc = true) :
      Effect s (.pulseEdgeUp p inc pwc) (pulseClassify p inc pwc s)
  | edgeDn {p inc pwc : F32} (h : pulseEdgeDnTaken p inc pwc = true) :
      Effect s (.pulseEdgeDn p inc pwc) (pulseClassify p inc pwc s)
  | foldUp {p inc : F32} (h : triFoldUpTaken p inc = true) : Effect s (.triFoldUp p inc) (triClassify p inc s)
  | foldDn {p inc : F32} (h : triFoldDnTaken p inc = true) : Effect s (.triFoldDn p inc) (triClassify p inc s)
  | wasReset : Effect s .reset (resetTransition s)

/-- An instruction that is taken only on well-formed operands has the effect of its transition or none. -/
theorem effect_ite {i : Instr} {s t : State} {b : Bool} (hb : i.wellFormed = b) (h : b = true → Effect s i t) :
    Effect s i (if b then t else s) := by
  cases b with
  | false => exact .notTaken hb
  | true => exact h rfl

/-- `exec` has one of the effects. -/
theorem exec_effect {i : Instr} {s t : State} (h : exec i s = .next t) : Effect s i t := by
  cases i with
  | nop conn => cases h; exact .idled conn
  | tick conn inc pw rst =>
    cases h
    obtain ⟨info, ho, he⟩ | ⟨ho, he⟩ := runTick_cases Config.params inc pw rst s <;> rw [he]
    · exact .faulted conn ho
    · exact .ticked conn ho
  | rsvdCmd2 upper => cases h; exact .refused2 upper
  | rsvdCmd3 upper => cases h; exact .refused3 upper
  | advance inc pwc => cases h; exact effect_ite rfl .advanced
  | wrapUp q inc => cases h; exact effect_ite rfl .wrappedUp
  | wrapDn q inc => cases h; exact effect_ite rfl .wrappedDn
  | pulseEdgeUp p inc pwc => cases h; exact effect_ite rfl .edgeUp
  | pulseEdgeDn p inc pwc => cases h; exact effect_ite rfl .edgeDn
  | triFoldUp p inc => cases h; exact effect_ite rfl .foldUp
  | triFoldDn p inc => cases h; exact effect_ite rfl .foldDn
  | reset => cases h; exact .wasReset

theorem halted_ne_next (s t : State) : halted s ≠ some (.next t) := by
  unfold halted
  cases s.fault <;> cases s.refused <;> simp

theorem eq_refuse_of_rejectFrame {e : DecodeError} {s t : State} (h : rejectFrame e s = .next t) : t = refuse s := by
  cases e <;> cases h <;> rfl

/-- A step that answers a next state idles, or takes the oldest frame and either refuses it or runs its instruction. -/
theorem step_next_cases {s t : State} (h : step s = .next t) :
    t = s ∨
    ∃ f rest, s.input = f :: rest ∧
      (t = refuse { s with input := rest } ∨ ∃ i, decodeFrame f = .ok i ∧ Effect { s with input := rest } i t) := by
  obtain ⟨stop, hs, he⟩ | ⟨-, -, he⟩ | ⟨f, rest, -, hin, ⟨i, hd, he⟩ | ⟨e, -, he⟩⟩ := step_cases s <;> rw [he] at h
  · exact absurd (h ▸ hs) (halted_ne_next s t)
  · cases h; exact .inl rfl
  · exact .inr ⟨f, rest, hin, .inr ⟨i, hd, exec_effect h⟩⟩
  · exact .inr ⟨f, rest, hin, .inl (eq_refuse_of_rejectFrame h)⟩

/-! ### The transition of a TICK and the completed TICK, field by field -/

@[simp] theorem pulseClassify_phase (p inc pwc : F32) (s : State) : (pulseClassify p inc pwc s).phase = s.phase := by
  rw [pulseClassify_eq]

@[simp] theorem triClassify_phase (p inc : F32) (s : State) : (triClassify p inc s).phase = s.phase := by rw [triClassify_eq]

theorem triRisingAt_posZero : triRisingAt posZero = true := by decide
theorem halfHighAt_posZero : halfHighAt posZero = false := by decide

theorem transition_phase (op : TickOperands) (s : State) :
    (transition op s).phase = if s.resetArmed then posZero else advancedPhase op.inc s := by
  cases h : s.resetArmed
  · rw [transition_advances op h]; simp
  · rw [transition_resets op h]; simp

/-- Either transition leaves triRising and halfHigh in agreement with the phase it leaves (10_state.md R30). -/
theorem flagsAgree_transition (op : TickOperands) (s : State) : flagsAgree (transition op s) = true := by
  cases h : s.resetArmed
  · rw [transition_advances op h]; simp [flagsAgree]
  · rw [transition_resets op h]; simp [flagsAgree, triRisingAt_posZero, halfHighAt_posZero]

section Tick

variable (P : Params) (op : TickOperands) (s : State)

@[simp] theorem tick_phase : (tick P op s).phase = (transition op (beginTick s)).phase := by rw [tick_eq P op s _ rfl]
@[simp] theorem tick_squareHigh : (tick P op s).squareHigh = (transition op (beginTick s)).squareHigh := by
  rw [tick_eq P op s _ rfl]
@[simp] theorem tick_triRising : (tick P op s).triRising = (transition op (beginTick s)).triRising := by
  rw [tick_eq P op s _ rfl]
@[simp] theorem tick_halfHigh : (tick P op s).halfHigh = (transition op (beginTick s)).halfHigh := by
  rw [tick_eq P op s _ rfl]
@[simp] theorem tick_work : (tick P op s).work = .idle := by rw [tick_eq P op s _ rfl]

/-- What a completed TICK counts and leaves alone (R33, R37). -/
theorem tick_frame : (tick P op s).n = s.n + 1 ∧ (tick P op s).fault = s.fault ∧ (tick P op s).refused = s.refused ∧
    (tick P op s).input = s.input := by
  obtain ⟨-, -, -, -, -, hn, hfault, hrefused, hinput, -⟩ := transition_frame op (beginTick s)
  rw [tick_eq P op s _ rfl]
  exact ⟨congrArg (· + 1) hn, hfault, hrefused, hinput⟩

theorem flagsAgree_tick : flagsAgree (tick P op s) = true := by
  simpa [flagsAgree] using flagsAgree_transition op (beginTick s)

end Tick

/-! ### Phase containment -/

/-- What a step can make of the phase: nothing, RESET's +0.0, an advance, or a wrap run alone. -/
inductive PhaseMove (p : F32) : F32 → Prop where
  | kept : PhaseMove p p
  | zeroed : PhaseMove p posZero
  | advanced {inc : F32} (h : incConditioned inc = true) : PhaseMove p (wrappedPhase (fadd p inc))
  | wrappedUp {q : F32} (h : within one q oneAndHalf = true) : PhaseMove p (wrapUpPhase q)
  | wrappedDn {q : F32} (h : withinBelow (fneg half) q posZero = true) : PhaseMove p (wrapDnPhase q)

theorem PhaseMove.keeps_phaseContained {p p' : F32} (h : PhaseMove p p') (hp : phaseContained p = true) :
    phaseContained p' = true := by
  cases h with
  | kept => exact hp
  | zeroed => decide
  | advanced hi => exact phaseContained_wrappedPhase hp hi
  | wrappedUp hq => exact phaseContained_wrapUpPhase hq
  | wrappedDn hq => exact phaseContained_wrapDnPhase hq

theorem PhaseMove.keeps_signBit {p p' : F32} (h : PhaseMove p p') (hp : phaseContained p = true)
    (hs : signBit p = false) : signBit p' = false := by
  cases h with
  | kept => exact hs
  | zeroed => decide
  | advanced hi => exact signBit_wrappedPhase hp hs hi
  | wrappedUp hq => exact signBit_wrapUpPhase hq
  | wrappedDn hq => exact signBit_wrapDnPhase hq

/-- A TICK on finite words moves the phase to +0.0 or by its conditioned increment. -/
theorem phaseMove_tick (P : Params) {inc pw rst : F32} (s : State) (h : isFinite inc = true) :
    PhaseMove s.phase (tick P (tickOperands inc pw rst) s).phase := by
  rw [tick_phase, transition_phase]
  split
  · exact .zeroed
  · exact .advanced (incConditioned_conditionInc h)

theorem Effect.phaseMove {i : Instr} {s t : State} (h : Effect s i t) : PhaseMove s.phase t.phase := by
  cases h with
  | idled | notTaken | refused2 | refused3 | faulted => exact .kept
  | ticked conn ho => exact phaseMove_tick _ s ((operandFault_none_iff _ _ _).1 ho).1
  | advanced h =>
    rw [advanceTaken, Bool.and_eq_true] at h
    rw [advance_phase]
    exact .advanced h.1
  | wrappedUp h =>
    simp only [wrapUpTaken, Bool.and_eq_true] at h
    exact .wrappedUp h.1.1
  | wrappedDn h =>
    simp only [wrapDnTaken, Bool.and_eq_true] at h
    exact .wrappedDn h.1.1
  | edgeUp | edgeDn => rw [pulseClassify_phase]; exact .kept
  | foldUp | foldDn => rw [triClassify_phase]; exact .kept
  | wasReset => exact .zeroed

theorem step_phaseMove {s t : State} (h : step s = .next t) : PhaseMove s.phase t.phase := by
  obtain rfl | ⟨f, rest, -, rfl | ⟨i, -, he⟩⟩ := step_next_cases h
  · exact .kept
  · exact .kept
  · exact he.phaseMove

/-- Settles O38: whatever moves the phase in a step keeps it contained. -/
theorem phaseContainment : Obligations.PhaseContainment := by
  intro s t hp h
  exact (step_phaseMove h).keeps_phaseContained hp

/-- Settles O39: whatever moves the phase in a step keeps its sign 0, since no negative sum rounds to a zero. -/
theorem phaseNeverMinusZero : Obligations.PhaseNeverMinusZero := by
  intro s t hp hs h
  refine ⟨(step_phaseMove h).keeps_phaseContained hp, ?_⟩
  simp only [phaseSignClear, Bool.not_eq_true'] at hs ⊢
  exact (step_phaseMove h).keeps_signBit hp hs

/-! ### Flag consistency -/

/-- A command frame that is an instruction is one of the four commands (30_encoding.md R53). -/
theorem decodeCommand_ok {ctrl inc pw rst : Word} {i : Instr} (h : decodeCommand ctrl inc pw rst = .ok i) :
    (∃ upper, i = .rsvdCmd2 upper) ∨ (∃ upper, i = .rsvdCmd3 upper) ∨ (∃ conn, i = .nop conn) ∨
    (i = .tick (ctrlConn ctrl) inc pw rst ∧ ctrlCmd ctrl = 1#2 ∧ ctrlReserved ctrl = 0#26) := by
  unfold decodeCommand at h
  split at h
  · cases h; exact .inl ⟨_, rfl⟩
  split at h
  · cases h; exact .inr (.inl ⟨_, rfl⟩)
  split at h
  · cases h
  split at h
  · cases h; exact .inr (.inr (.inl ⟨_, rfl⟩))
  · rename_i h2 h3 hres h0
    cases h
    have hcmd : ∀ c : BitVec 2, c ≠ 2#2 → c ≠ 3#2 → c ≠ 0#2 → c = 1#2 := by decide
    exact .inr (.inr (.inr ⟨rfl, hcmd _ h2 h3 h0, not_not.1 hres⟩))

/-- A command keeps the frames not yet taken and leaves agreeing flags in agreement. -/
theorem Effect.command_keeps_flagsAgree {ctrl inc pw rst : Word} {i : Instr} {s t : State}
    (hd : decodeCommand ctrl inc pw rst = .ok i) (h : Effect s i t) (hf : flagsAgree s = true) :
    t.input = s.input ∧ flagsAgree t = true := by
  obtain ⟨upper, rfl⟩ | ⟨upper, rfl⟩ | ⟨conn, rfl⟩ | ⟨rfl, -⟩ := decodeCommand_ok hd
  · cases h <;> exact ⟨rfl, hf⟩
  · cases h <;> exact ⟨rfl, hf⟩
  · cases h <;> exact ⟨rfl, hf⟩
  · cases h with
    | notTaken | faulted => exact ⟨rfl, hf⟩
    | ticked conn ho => exact ⟨(tick_frame _ _ s).2.2.2, flagsAgree_tick _ _ s⟩

/-- Settles O40: of the commands only a completed TICK writes the phase or a flag, and it recomputes the flags. -/
theorem flagConsistencyKept : Obligations.FlagConsistencyKept := by
  intro s t hc hf h
  obtain rfl | ⟨f, rest, hin, ht⟩ := step_next_cases h
  · exact ⟨hc, hf⟩
  rw [commandsOnly, hin, List.all_cons, Bool.and_eq_true] at hc
  obtain ⟨hcf, hcr⟩ := hc
  obtain rfl | ⟨i, hd, he⟩ := ht
  · exact ⟨hcr, hf⟩
  · cases f with
    | transition ev a b c => cases hcf
    | command ctrl inc pw rst =>
      obtain ⟨hinput, hflags⟩ := he.command_keeps_flagsAgree hd hf
      exact ⟨by rwa [commandsOnly, hinput], hflags⟩

/-! ### The frame and the flags of a completed TICK -/

/-- Settles O22, by the frame of the transition inside the TICK. -/
theorem tickCountsAndKeepsTheRest : Obligations.TickCountsAndKeepsTheRest := by
  intro conn inc pw rst s h1 h2 h3
  obtain ⟨hn, hfault, hrefused, hinput⟩ := tick_frame Config.params (tickOperands inc pw rst) s
  exact ⟨_, exec_tick_finite conn s h1 h2 h3, hn, hfault, hrefused, hinput, tick_work _ _ s⟩

/-- Settles O24, by the transition the TICK takes: RESET if it is armed, else the advance. -/
theorem flagsAgreeAfterTick : Obligations.FlagsAgreeAfterTick := by
  intro conn inc pw rst s h1 h2 h3 pwc
  refine ⟨_, exec_tick_finite conn s h1 h2 h3, flagsAgree_tick _ _ s, fun ha => ?_, fun ha => ?_⟩
  · rw [tick_phase, tick_squareHigh, transition_advances (s := beginTick s) _ ha, advance_phase, advance_squareHigh]
    rfl
  · rw [tick_phase, tick_squareHigh, tick_triRising, tick_halfHigh, transition_resets (s := beginTick s) _ ha]
    exact ⟨rfl, rfl, rfl, rfl, Eq.symm⟩

/-! ### What only a completed TICK writes -/

/-- The fields a TICK writes and no transition run alone does: the index, the buffers, the installed records, the trigger
state, the outputs and the event register (10_state.md R33, R37). -/
def outputSide (s : State) : Nat × Lines × Records × Bool × Bool × Outputs × EvWord :=
  (s.n, s.buf, s.pend, s.trigHigh, s.resetArmed, s.out, s.ev)

/-- An instruction keeps these fields, or it is a TICK on finite words, which counts. -/
theorem Effect.outputSide_kept_or_ticked {i : Instr} {s t : State} (h : Effect s i t) :
    outputSide t = outputSide s ∨
    (t.n = s.n + 1 ∧ ∃ conn inc pw rst, i = .tick conn inc pw rst ∧
      isFinite inc = true ∧ isFinite pw = true ∧ isFinite rst = true) := by
  cases h with
  | idled | notTaken | refused2 | refused3 | faulted | wrappedUp | wrappedDn | wasReset => exact .inl rfl
  | ticked conn ho => exact .inr ⟨(tick_frame _ _ s).1, conn, _, _, _, rfl, (operandFault_none_iff _ _ _).1 ho⟩
  | advanced => exact .inl (by simp [outputSide])
  | edgeUp | edgeDn => exact .inl (by rw [pulseClassify_eq]; rfl)
  | foldUp | foldDn => exact .inl (by rw [triClassify_eq]; rfl)

/-- CMD 1 under a reserved field 0 is the TICK row's match value under its mask (30_encoding.md R60). -/
theorem ctrl_mask_of_tick {ctrl : Word} (hcmd : ctrlCmd ctrl = 1#2) (hres : ctrlReserved ctrl = 0#26) :
    ctrl &&& 0xFFFFFFC3#32 = 1#32 := by
  have hlow : ∀ n < 64, BitVec.ofNat 32 n &&& 3#32 = 1#32 → BitVec.ofNat 32 n &&& 0xFFFFFFC3#32 = 1#32 := by decide
  have hlt : ctrl.toNat < 64 := by
    have h := congrArg BitVec.toNat ((ctrlReserved_eq_zero_iff ctrl).1 hres)
    rw [BitVec.toNat_ushiftRight, Nat.shiftRight_eq_div_pow, BitVec.toNat_ofNat] at h
    omega
  have h := hlow ctrl.toNat hlt
  rw [BitVec.ofNat_toNat, BitVec.setWidth_eq] at h
  exact h ((ctrlCmd_eq_iff ctrl 1#2).1 hcmd)

/-- Only a command frame with a TICK's CTRL word decodes to a TICK, and its data words are the operands. -/
theorem frame_of_decodeFrame_tick {f : Frame} {conn : Conn} {inc pw rst : F32} (h : decodeFrame f = .ok (.tick conn inc pw rst)) :
    ∃ ctrl, f = .command ctrl inc pw rst ∧ ctrl &&& 0xFFFFFFC3#32 = 1#32 := by
  cases f with
  | transition ev a b c =>
    simp only [decodeFrame, decodeTransition] at h
    split_ifs at h <;> cases h
  | command ctrl inc' pw' rst' =>
    obtain ⟨_, hi⟩ | ⟨_, hi⟩ | ⟨_, hi⟩ | ⟨hi, hcmd, hres⟩ := decodeCommand_ok h <;> cases hi
    exact ⟨ctrl, rfl, ctrl_mask_of_tick hcmd hres⟩

/-- Settles O44: of all instructions only a TICK on finite words writes these fields, and only a TICK's frame decodes to one. -/
theorem onlyCompletedTicksWriteTheOutputs : Obligations.OnlyCompletedTicksWriteTheOutputs := by
  intro s t h
  have hcases : outputSide t = outputSide s ∨
      (t.n = s.n + 1 ∧ ∃ (ctrl inc pw rst : Word) (rest : List Frame),
        s.input = .command ctrl inc pw rst :: rest ∧ ctrl &&& 0xFFFFFFC3#32 = 1#32 ∧
        isFinite inc = true ∧ isFinite pw = true ∧ isFinite rst = true) := by
    obtain rfl | ⟨f, rest, hin, rfl | ⟨i, hd, he⟩⟩ := step_next_cases h
    · exact .inl rfl
    · exact .inl rfl
    · obtain hkept | ⟨hn, conn, inc, pw, rst, rfl, hfin⟩ := he.outputSide_kept_or_ticked
      · exact .inl hkept
      · obtain ⟨ctrl, rfl, hmask⟩ := frame_of_decodeFrame_tick hd
        exact .inr ⟨hn, ctrl, inc, pw, rst, rest, hin, hmask, hfin⟩
  exact hcases.imp_left fun hkept => by simpa only [outputSide, Prod.mk.injEq] using hkept

/-! ### Power-on -/

theorem bufRead_reset (b : Buf) (k : Fin 4) : bufRead b k State.reset = posZero := by
  cases b <;> fin_cases k <;> rfl

theorem recordOf_reset (w : Wave) : recordOf w State.reset.pend = .inactive := by cases w <;> rfl

/-- Settles O13, each field by evaluation. -/
theorem powerOnState : Obligations.PowerOnState :=
  ⟨rfl, rfl, rfl, rfl, rfl, rfl, bufRead_reset, recordOf_reset, rfl, rfl, rfl, rfl, rfl⟩

end Sys2Proof.Machine
end

section
/-! SUPPORT. The encodings (30_encoding.md): that decoding and encoding undo each other, the opcode map, the event word of a
completed TICK, and the output frame. -/

namespace Sys2Proof

/-! ### Decoding undoes encoding -/

/-- The frame of any instruction decodes to it (30_encoding.md R63). -/
theorem decodeFrame_encode (i : Instr) : decodeFrame (encode i) = .ok i := by
  cases i with
  | nop conn => exact Laws.EncodeRoundTrip.nop conn
  | tick conn inc pw rst => exact Laws.EncodeRoundTrip.tick conn inc pw rst
  | rsvdCmd2 upper => exact Laws.EncodeRoundTrip.rsvdCmd2 upper
  | rsvdCmd3 upper => exact Laws.EncodeRoundTrip.rsvdCmd3 upper
  | advance | wrapUp | wrapDn | pulseEdgeUp | pulseEdgeDn | triFoldUp | triFoldDn | reset => rfl

/-- Settles O6: the bytes are read back as the instruction's frame, and that frame decodes to the instruction. -/
theorem decodeInvertsEncode : Obligations.DecodeInvertsEncode := by
  intro i rest
  have hframe := frameOfBytes_frameBytes (encode i) rest
  simp only [decodeBytes, encodeBytes, hframe, decodeFrame_encode]

/-! ### The opcode map -/

/-- Under the mask of the NOP and TICK rows a built CTRL word is its CMD, whatever its CONN bits (30_encoding.md R60). -/
theorem ctrlOfConn_mask (conn : Conn) (cmd : BitVec 2) : ctrlOfConn conn cmd &&& 0xFFFFFFC3#32 = cmd.zeroExtend 32 := by
  obtain ⟨saw, sq, tri, sin⟩ := conn
  revert saw sq tri sin cmd
  decide

/-- Under the mask of the reserved rows a built CTRL word is its CMD, whatever the bits above it (R60). -/
theorem ctrlOfUpper_mask (upper : BitVec 30) (cmd : BitVec 2) : ctrlOfUpper upper cmd &&& 3#32 = cmd.zeroExtend 32 :=
  (ctrlCmd_eq_iff _ cmd).1 (ctrlCmd_ofUpper upper cmd)

/-- Settles O7: a command's CTRL word under its row's mask is its CMD, and a transition's EV byte is written out in `encode`. -/
theorem encodingsMatchTheOpcodeMap : Obligations.EncodingsMatchTheOpcodeMap := by
  intro i
  cases i with
  | nop conn => exact ctrlOfConn_mask conn 0#2
  | tick conn inc pw rst => exact ctrlOfConn_mask conn 1#2
  | rsvdCmd2 upper => exact ctrlOfUpper_mask upper 2#2
  | rsvdCmd3 upper => exact ctrlOfUpper_mask upper 3#2
  | advance | wrapUp | wrapDn | pulseEdgeUp | pulseEdgeDn | triFoldUp | triFoldDn | reset => rfl

/-! ### Encoding undoes the decoding of a command -/

/-- A CTRL word whose reserved field is 0 is built from its CONN bits and its CMD (R52). -/
theorem ctrlOfConn_ctrlConn {ctrl : Word} (hres : ctrlReserved ctrl = 0#26) : ctrlOfConn (ctrlConn ctrl) (ctrlCmd ctrl) = ctrl := by
  have hlow : ∀ n < 64, ctrlOfConn (ctrlConn (BitVec.ofNat 32 n)) (ctrlCmd (BitVec.ofNat 32 n)) = BitVec.ofNat 32 n := by decide
  have hlt : ctrl.toNat < 64 := by
    have h := congrArg BitVec.toNat hres
    rw [ctrlReserved, toNat_field, BitVec.toNat_ofNat] at h
    omega
  have h := hlow ctrl.toNat hlt
  rwa [BitVec.ofNat_toNat, BitVec.setWidth_eq] at h

/-- A command frame that decodes has the CTRL word of one of the four commands, and decodes to that command with the frame's
own fields (R53, R60). -/
theorem decodeCommand_inv {ctrl inc pw rst : Word} {i : Instr} (h : decodeCommand ctrl inc pw rst = .ok i) :
    (∃ upper, ctrl = ctrlOfUpper upper 2#2 ∧ i = .rsvdCmd2 upper) ∨
    (∃ upper, ctrl = ctrlOfUpper upper 3#2 ∧ i = .rsvdCmd3 upper) ∨
    (∃ conn, ctrl = ctrlOfConn conn 0#2 ∧ i = .nop conn) ∨
    (∃ conn, ctrl = ctrlOfConn conn 1#2 ∧ i = .tick conn inc pw rst) := by
  have hupper := ctrlOfUpper_fields ctrl
  have hcmd : ∀ c : BitVec 2, c ≠ 2#2 → c ≠ 3#2 → c ≠ 0#2 → c = 1#2 := by decide
  simp only [decodeCommand] at h
  split_ifs at h with h2 h3 hres h0 <;> cases h
  · exact .inl ⟨_, by rw [← h2, hupper], rfl⟩
  · exact .inr (.inl ⟨_, by rw [← h3, hupper], rfl⟩)
  · exact .inr (.inr (.inl ⟨_, by rw [← h0, ctrlOfConn_ctrlConn (not_not.1 hres)], rfl⟩))
  · exact .inr (.inr (.inr ⟨_, by rw [← hcmd _ h2 h3 h0, ctrlOfConn_ctrlConn (not_not.1 hres)], rfl⟩))

/-- Settles O8: of the four CTRL words a command frame can have, each is rebuilt by `encode`, and CMD 1 is the TICK's alone. -/
theorem decodedCommandKeepsItsWords : Obligations.DecodedCommandKeepsItsWords := by
  intro ctrl inc pw rst i h
  have hcmd : ctrl &&& 3#32 = 1#32 → ctrlCmd ctrl = 1#2 := (ctrlCmd_eq_iff ctrl 1#2).2
  obtain ⟨upper, rfl, rfl⟩ | ⟨upper, rfl, rfl⟩ | ⟨conn, rfl, rfl⟩ | ⟨conn, rfl, rfl⟩ := decodeCommand_inv h
  · exact ⟨⟨_, _, _, rfl⟩, fun hmask => absurd (hcmd hmask) (by rw [ctrlCmd_ofUpper]; decide)⟩
  · exact ⟨⟨_, _, _, rfl⟩, fun hmask => absurd (hcmd hmask) (by rw [ctrlCmd_ofUpper]; decide)⟩
  · exact ⟨⟨_, _, _, rfl⟩, fun hmask => absurd (hcmd hmask) (by rw [(ctrlOfConn_fields conn 0#2).1]; decide)⟩
  · exact ⟨⟨_, _, _, rfl⟩, fun _ => rfl⟩

/-- Settles O9, each frame by running the decoder. -/
theorem specWordsDecode : Obligations.SpecWordsDecode := ⟨rfl, rfl, rfl, rfl, rfl, rfl, rfl⟩

end Sys2Proof

namespace Sys2Proof.Machine

/-! ### The step on a decodable frame -/

theorem halted_of_unmarked {s : State} (hf : s.fault = none) (hr : s.refused = false) : halted s = none := by
  simp [halted, hf, hr]

/-- Settles O1: an unmarked state is not halted, so the step decodes the oldest frame and runs what it is. -/
theorem stepRunsDecodedInstruction : Obligations.StepRunsDecodedInstruction := by
  intro s f rest i hf hr hin hd
  simp only [step, halted_of_unmarked hf hr, hin, hd]

/-! ### The event word of a completed TICK -/

/-- The event word holds the bits the transition noted (30_encoding.md R58). -/
@[simp] theorem tick_ev (P : Params) (op : TickOperands) (s : State) :
    (tick P op s).ev = (transition op (beginTick s)).work.ev := by
  rw [tick_eq P op s _ rfl]

/-- A TICK starts with no event bit set (44_sample_step_and_reset.md R120 step 2). -/
@[simp] theorem beginTick_work_ev (s : State) : (beginTick s).work.ev = 0#8 := rfl

/-- The constraints of R58 on an event word. -/
def EventsExclusive (ev : EvWord) : Prop :=
  (ev.getLsbD 0 = !ev.getLsbD 7) ∧ (ev.getLsbD 1 && ev.getLsbD 2) = false ∧ (ev.getLsbD 3 && ev.getLsbD 4) = false ∧
  (ev.getLsbD 5 && ev.getLsbD 6) = false ∧ (ev.getLsbD 7 = true → ev = 0x80#8)

/-- The event bits of an advance that wrapped up or down, had a pulse edge or a fold, and moved backward or not (R58). -/
def advanceEvents (up down edge fold backward : Bool) : EvWord :=
  (if up then evWrapUp else if down then evWrapDn else 0#8) ||| (if edge then (if backward then evPeDn else evPeUp) else 0#8) |||
    (if fold then (if backward then evTfDn else evTfUp) else 0#8) ||| evAdv

/-- Whatever an advance detects, it sets ADV, and a pair of bits is never set together. -/
theorem advanceEvents_exclusive (up down edge fold backward : Bool) :
    EventsExclusive (advanceEvents up down edge fold backward) ∧ (advanceEvents up down edge fold backward).getLsbD 0 = true := by
  revert up down edge fold backward
  unfold EventsExclusive
  decide

/-- RESET's bit stands alone. -/
theorem evReset_exclusive : EventsExclusive evReset ∧ evReset.getLsbD 0 = false := by
  unfold EventsExclusive
  decide

/-- The bits an advance adds to the event word are those of what it detects. -/
theorem advance_work_ev_eq (inc pwc : F32) (s : State) :
    (advance inc pwc s).work.ev =
      s.work.ev |||
        advanceEvents (fge (fadd s.phase inc) one) (flt (fadd s.phase inc) posZero)
          (squareHighAt (advancedPhase inc s) pwc != s.squareHigh) (triRisingAt (advancedPhase inc s) != s.triRising)
          (flt inc posZero) := by
  rw [advance_work_ev]
  simp only [advanceEvents, BitVec.or_assoc]

/-- A TICK's event word meets R58, and its ADV bit says that no reset was armed. -/
theorem tick_ev_exclusive (P : Params) (op : TickOperands) (s : State) :
    EventsExclusive (tick P op s).ev ∧ (tick P op s).ev.getLsbD 0 = !s.resetArmed := by
  rw [tick_ev]
  cases harmed : s.resetArmed with
  | false =>
    rw [transition_advances (s := beginTick s) op harmed, advance_work_ev_eq, beginTick_work_ev, BitVec.zero_or]
    exact advanceEvents_exclusive ..
  | true =>
    rw [transition_resets (s := beginTick s) op harmed, beginTick_work_ev, BitVec.zero_or]
    exact evReset_exclusive

/-- Settles O23, by the transition the TICK takes. -/
theorem eventWordConstraints : Obligations.EventWordConstraints := by
  intro conn inc pw rst s h1 h2 h3
  obtain ⟨⟨hadv, hwrap, hedge, hfold, hreset⟩, harmed⟩ := tick_ev_exclusive Config.params (tickOperands inc pw rst) s
  exact ⟨_, exec_tick_finite conn s h1 h2 h3, hadv, harmed, hwrap, hedge, hfold, hreset⟩

/-! ### The output frame -/

/-- Settles O60: the event word is ev, zero-extended. -/
theorem outputFrameLayout : Obligations.OutputFrameLayout := by
  intro s
  have hev := s.ev.isLt
  refine ⟨s.ev.zeroExtend 32, rfl, ?_, ?_⟩ <;> apply BitVec.eq_of_toNat_eq
  · rw [toNat_field, BitVec.toNat_setWidth]
    omega
  · rw [BitVec.toNat_ushiftRight, Nat.shiftRight_eq_div_pow, BitVec.toNat_setWidth, BitVec.toNat_ofNat]
    omega

end Sys2Proof.Machine
end

section
/-! SUPPORT. The phase accumulator (40_phase_accumulator.md): the crossing fraction, the single wrap of a contained phase, the
order of the classifications, and what an advancing TICK makes of the phase, the flags, the records and the event bits. -/

namespace Sys2Proof.Machine

/-! ### The crossing fraction -/

theorem feq_posZero (x : F32) : feq x posZero = isZero x := by
  rw [Bool.eq_iff_iff, isZero_iff]
  by_cases hn : isNaN x = true
  · have := (isNaN_iff x).1 hn
    simp only [feq, hn, Bool.not_true, Bool.false_and, Bool.false_eq_true, false_iff]
    omega
  · simp only [feq, hn, show isNaN posZero = false by decide, show orderKey posZero = 0 by decide, Bool.not_false,
      Bool.true_and, decide_eq_true_eq]
    unfold orderKey
    split <;> omega

theorem isNaN_fadd_of_isFinite_left {x y : F32} (hx : isFinite x = true) (hy : isNaN y = false) : isNaN (fadd x y) = false := by
  by_cases hf : isFinite y = true
  · exact isNaN_fadd hx hf
  · have hix : isInf x = false := by
      rw [isFinite, bne_iff_ne] at hx
      simp [isInf, hx]
    simp [fadd, hf, hix, isNaN_of_isFinite hx, hy]

/-- A quotient by a finite nonzero value is no NaN, even of an infinity. -/
theorem isNaN_fdiv_of_isFinite_right {x y : F32} (hx : isNaN x = false) (hy : isFinite y = true) (h0 : isZero y = false) :
    isNaN (fdiv x y) = false := by
  have hiy : isInf y = false := by
    rw [isFinite, bne_iff_ne] at hy
    simp [isInf, hy]
  simp only [fdiv, hx, isNaN_of_isFinite hy, hiy, h0, Bool.or_self, Bool.false_eq_true, if_false]
  split
  · exact isNaN_pack le_rfl
  · exact isNaN_pack (roundMag_le_inf _ _)

/-- A clamp answers a value between its bounds for every operand but a NaN, infinities among them. -/
theorem within_fclamp_of_not_isNaN {x lo hi : F32} (hx : isNaN x = false) (hl : isFinite lo = true) (hh : isFinite hi = true)
    (h : value lo ≤ value hi) : within lo (fclamp x lo hi) hi = true := by
  have hln := isNaN_of_isFinite hl
  have hhn := isNaN_of_isFinite hh
  rw [value_le_iff] at h
  rw [fclamp, fgt]
  by_cases hlow : flt x lo = true
  · rw [if_pos hlow]
    exact within_of_key hl hh hln le_rfl h
  rw [if_neg hlow]
  by_cases hhigh : flt hi x = true
  · rw [if_pos hhigh]
    exact within_of_key hl hh hhn h le_rfl
  rw [if_neg hhigh]
  simp only [flt, hx, hln, hhn, Bool.not_false, Bool.true_and, decide_eq_true_eq, not_lt] at hlow hhigh
  exact within_of_key hl hh hx hlow hhigh

theorem cross_of_isZero (p t : F32) {inc : F32} (h : isZero inc = true) : cross p t inc = half := by
  rw [cross, feq_posZero, if_pos h]

theorem cross_of_not_isZero (p t : F32) {inc : F32} (h : isZero inc = false) :
    cross p t inc = fclamp (fsub one (fdiv (fsub p t) inc)) posZero one := by
  rw [cross, feq_posZero, h, if_neg Bool.false_ne_true]

/-- CROSS of finite operands is in [0, 1] (40_phase_accumulator.md R81): p - t and the quotient may overflow, but neither is a
NaN. -/
theorem within_cross {p t inc : F32} (hp : isFinite p = true) (ht : isFinite t = true) (hi : isFinite inc = true) :
    within posZero (cross p t inc) one = true := by
  cases hz : isZero inc with
  | true => rw [cross_of_isZero p t hz]; decide
  | false =>
    have hdiff : isNaN (fsub p t) = false := isNaN_fadd hp ((isFinite_fneg t).trans ht)
    have hquot : isNaN (fneg (fdiv (fsub p t) inc)) = false := (isNaN_fneg _).trans (isNaN_fdiv_of_isFinite_right hdiff hi hz)
    rw [cross_of_not_isZero p t hz]
    exact within_fclamp_of_not_isNaN (isNaN_fadd_of_isFinite_left (by decide) hquot) (by decide) (by decide) (by decide)

/-- Settles O49: no operation of the formula answers a NaN, so the clamp bounds it. -/
theorem crossingFractionInUnitInterval : Obligations.CrossingFractionInUnitInterval := by
  intro p t inc hp ht hi
  have hw := within_cross hp ht hi
  exact ⟨cross_of_isZero p t, cross_of_not_isZero p t, ((within_iff (by decide) (by decide)).1 hw).1, hw⟩

/-! ### The single wrap -/

/-- A contained phase is one neither wrap takes. -/
theorem not_wraps_of_phaseContained {p : F32} (h : phaseContained p = true) : fge p one = false ∧ flt p posZero = false := by
  obtain ⟨hf, h0, h1⟩ := (phaseContained_iff p).1 h
  rw [Bool.eq_false_iff, Bool.eq_false_iff, ne_eq, ne_eq, fge, fle_iff (by decide) hf, flt_iff hf (by decide), value_one,
    value_posZero]
  omega

theorem not_flt_posZero_of_fge_one {q : F32} (hf : isFinite q = true) (h : fge q one = true) : flt q posZero = false := by
  rw [fge, fle_iff (by decide) hf, value_one] at h
  rw [Bool.eq_false_iff, ne_eq, flt_iff hf (by decide), value_posZero]
  omega

/-- Settles O46, by the range of q and the rule for each wrap. -/
theorem atMostOneWrap : Obligations.AtMostOneWrap := by
  intro p inc hp hi q
  have hq : within (fneg half) q oneAndHalf = true := within_phase_add_inc hp hi
  obtain ⟨hlo, hhi⟩ := Bool.and_eq_true_iff.1 hq
  have hf : isFinite q = true := ((within_iff (by decide) (by decide)).1 hq).1
  refine ⟨hq, ?_, fun hup => ?_, fun hdn => ?_, fun hup hdn => ?_⟩
  · cases hup : fge q one with
    | false => rfl
    | true => exact not_flt_posZero_of_fge_one hf hup
  · exact phaseContained_wrapUpPhase (Bool.and_eq_true_iff.2 ⟨hup, hhi⟩)
  · exact phaseContained_wrapDnPhase (Bool.and_eq_true_iff.2 ⟨hlo, hdn⟩)
  · have hc := phaseContained_wrappedPhase hp hi
    rwa [wrappedPhase, hup, hdn] at hc

/-! ### The order of the classifications -/

/-- The pulse and the fold classification write different flags and records, and add to the event word (R83). -/
theorem triClassify_pulseClassify (p inc pwc : F32) (s : State) :
    triClassify p inc (pulseClassify p inc pwc s) = pulseClassify p inc pwc (triClassify p inc s) := by
  simp only [triClassify_eq, pulseClassify_eq]
  cases squareHighAt p pwc != s.squareHigh with
  | false => rfl
  | true =>
    cases triRisingAt p != s.triRising with
    | false => rfl
    | true => simp only [if_true, BitVec.or_assoc, BitVec.or_comm (if flt inc posZero then evPeDn else evPeUp)]

theorem halfClassify_pulseClassify (p inc pwc : F32) (s : State) :
    halfClassify p (pulseClassify p inc pwc s) = pulseClassify p inc pwc (halfClassify p s) := by
  simp only [halfClassify, pulseClassify_eq]

theorem halfClassify_triClassify (p inc : F32) (s : State) :
    halfClassify p (triClassify p inc s) = triClassify p inc (halfClassify p s) := by
  simp only [halfClassify, triClassify_eq]

/-- Settles O37, pair by pair. -/
theorem classificationsCommute : Obligations.ClassificationsCommute := fun p inc pwc s =>
  ⟨triClassify_pulseClassify p inc pwc s, halfClassify_pulseClassify p inc pwc s, halfClassify_triClassify p inc s⟩

/-! ### The event bits of an advance, pair by pair -/

theorem advanceEvents_wrapBits (up down edge fold backward : Bool) :
    advanceEvents up down edge fold backward &&& 0x06#8 = if up then 0x02#8 else if down then 0x04#8 else 0x00#8 := by
  revert up down edge fold backward; decide

theorem advanceEvents_edgeBits (up down edge fold backward : Bool) :
    advanceEvents up down edge fold backward &&& 0x18#8 =
      if edge then (if backward then 0x10#8 else 0x08#8) else 0x00#8 := by
  revert up down edge fold backward; decide

theorem advanceEvents_foldBits (up down edge fold backward : Bool) :
    advanceEvents up down edge fold backward &&& 0x60#8 =
      if fold then (if backward then 0x40#8 else 0x20#8) else 0x00#8 := by
  revert up down edge fold backward; decide

/-! ### An advancing TICK, field by field -/

section AdvancingTick

variable (P : Params) (op : TickOperands) {s : State} (h : s.resetArmed = false)
include h

theorem transition_beginTick_of_unarmed : transition op (beginTick s) = advance op.inc op.pwc (beginTick s) :=
  transition_advances (s := beginTick s) op h

theorem tick_prevPhase_of_unarmed : (tick P op s).prevPhase = s.phase := by
  rw [tick_eq P op s _ (transition_beginTick_of_unarmed op h)]
  exact advance_prevPhase ..

theorem tick_phase_of_unarmed : (tick P op s).phase = wrappedPhase (fadd s.phase op.inc) := by
  rw [tick_phase, transition_beginTick_of_unarmed op h]
  exact advance_phase ..

theorem tick_squareHigh_of_unarmed : (tick P op s).squareHigh = squareHighAt (tick P op s).phase op.pwc := by
  rw [tick_phase, tick_squareHigh, transition_beginTick_of_unarmed op h, advance_squareHigh, advance_phase]

theorem tick_triRising_of_unarmed : (tick P op s).triRising = triRisingAt (tick P op s).phase := by
  rw [tick_phase, tick_triRising, transition_beginTick_of_unarmed op h, advance_triRising, advance_phase]

theorem tick_halfHigh_of_unarmed : (tick P op s).halfHigh = halfHighAt (tick P op s).phase := by
  rw [tick_phase, tick_halfHigh, transition_beginTick_of_unarmed op h, advance_halfHigh, advance_phase]

theorem tick_subParity_of_unarmed :
    (tick P op s).subParity =
      if fge (fadd s.phase op.inc) one || flt (fadd s.phase op.inc) posZero then !s.subParity else s.subParity := by
  rw [tick_eq P op s _ (transition_beginTick_of_unarmed op h)]
  exact advance_subParity ..

/-- The saw record a TICK leaves pending is that of its wrap (R67, R68). -/
theorem tick_pend_saw_of_unarmed :
    (tick P op s).pend.saw =
      if fge (fadd s.phase op.inc) one then
        { active := true, d := cross (wrapUpPhase (fadd s.phase op.inc)) posZero op.inc, u := one }
      else if flt (fadd s.phase op.inc) posZero then
        { active := true, d := cross (wrapDnPhase (fadd s.phase op.inc)) one op.inc, u := fneg one }
      else .inactive := by
  rw [tick_eq P op s _ (transition_beginTick_of_unarmed op h)]
  exact advance_np_saw ..

/-- The square record a TICK leaves pending is that of its pulse edge (R73). -/
theorem tick_pend_sq_of_unarmed :
    (tick P op s).pend.sq =
      if (tick P op s).squareHigh != s.squareHigh then
        { active := true
          d := cross (tick P op s).phase (pulseT (tick P op s).squareHigh op.inc op.pwc) op.inc
          u := squareMagnitude (tick P op s).squareHigh }
      else .inactive := by
  rw [tick_eq P op s _ (transition_beginTick_of_unarmed op h)]
  dsimp only
  rw [advance_np_sq, advance_squareHigh, advance_phase]
  rfl

/-- The triangle record a TICK leaves pending is that of its fold (R76). -/
theorem tick_pend_tri_of_unarmed :
    (tick P op s).pend.tri =
      if (tick P op s).triRising != s.triRising then
        { active := true
          d := cross (tick P op s).phase (triT (tick P op s).phase op.inc) op.inc
          u := triMagnitude (tick P op s).triRising op.inc }
      else .inactive := by
  rw [tick_eq P op s _ (transition_beginTick_of_unarmed op h)]
  dsimp only
  rw [advance_np_tri, advance_triRising, advance_phase]
  rfl

/-- The event word of a TICK reports its wrap, its pulse edge and its fold, tagged by the direction. -/
theorem tick_ev_of_unarmed :
    (tick P op s).ev =
      advanceEvents (fge (fadd s.phase op.inc) one) (flt (fadd s.phase op.inc) posZero)
        ((tick P op s).squareHigh != s.squareHigh) ((tick P op s).triRising != s.triRising) (flt op.inc posZero) := by
  rw [tick_eq P op s _ (transition_beginTick_of_unarmed op h)]
  dsimp only
  rw [advance_work_ev_eq, advance_squareHigh, advance_triRising, beginTick_work_ev, BitVec.zero_or]
  rfl

end AdvancingTick

/-! ### The wrap, the pulse edge and the fold of an advancing TICK -/

/-- Settles O15, by the three outcomes of the wrap decision. -/
theorem advancingTickWraps : Obligations.AdvancingTickWraps := by
  intro conn inc pw rst s h1 h2 h3 harmed i q
  let op := tickOperands inc pw rst
  refine ⟨tick Config.params op s, exec_tick_finite conn s h1 h2 h3, tick_prevPhase_of_unarmed _ op harmed, ?_⟩
  have hphase : (tick Config.params op s).phase = wrappedPhase q := tick_phase_of_unarmed _ op harmed
  have hparity : (tick Config.params op s).subParity = if fge q one || flt q posZero then !s.subParity else s.subParity :=
    tick_subParity_of_unarmed _ op harmed
  have hsaw : (tick Config.params op s).pend.saw =
      if fge q one then { active := true, d := cross (wrapUpPhase q) posZero i, u := one }
      else if flt q posZero then { active := true, d := cross (wrapDnPhase q) one i, u := fneg one } else .inactive :=
    tick_pend_saw_of_unarmed _ op harmed
  have hbits : (tick Config.params op s).ev &&& 0x06#8 =
      if fge q one then 0x02#8 else if flt q posZero then 0x04#8 else 0x00#8 := by
    rw [tick_ev_of_unarmed _ op harmed]
    exact advanceEvents_wrapBits ..
  rw [hphase, hparity, hsaw, hbits, wrappedPhase]
  refine ⟨fun hup => ?_, fun hup hdn => ?_, fun hup hdn => ?_⟩
  · rw [hup]; exact ⟨rfl, rfl, rfl, rfl⟩
  · rw [hup, hdn]; exact ⟨rfl, rfl, rfl, rfl⟩
  · rw [hup, hdn]; exact ⟨rfl, rfl, rfl, rfl⟩

theorem pulseT_of_pos {inc : F32} (h : fgt inc posZero = true) (nh : Bool) (pwc : F32) :
    pulseT nh inc pwc = if nh then posZero else pwc := by
  rw [pulseT, if_pos h]

theorem pulseT_of_neg {inc : F32} (h : flt inc posZero = true) (nh : Bool) (pwc : F32) :
    pulseT nh inc pwc = if nh then pwc else one := by
  have hpos : fgt inc posZero = false := by
    simp only [flt, Bool.and_eq_true, decide_eq_true_eq] at h
    simp only [fgt, flt, Bool.and_eq_false_iff, decide_eq_false_iff_not]
    omega
  rw [pulseT, hpos, if_neg Bool.false_ne_true, if_pos h]

/-- Settles O16: the record and the bits are those of a pulse edge exactly when squareHigh changed. -/
theorem advancingTickDetectsPulseEdges : Obligations.AdvancingTickDetectsPulseEdges := by
  intro conn inc pw rst s h1 h2 h3 harmed i pwc
  let op := tickOperands inc pw rst
  refine ⟨tick Config.params op s, exec_tick_finite conn s h1 h2 h3, tick_squareHigh_of_unarmed _ op harmed, ?_⟩
  rw [tick_pend_sq_of_unarmed _ op harmed, tick_ev_of_unarmed _ op harmed, advanceEvents_edgeBits]
  generalize (tick Config.params op s).squareHigh = nh
  refine ⟨fun hsame => ?_, fun hchanged => ?_⟩
  · rw [bne_eq_false_iff_eq.2 hsame]
    exact ⟨rfl, rfl⟩
  · rw [bne_iff_ne.2 hchanged]
    refine ⟨rfl, rfl, rfl, fun hpos => ?_, fun hneg => ?_, fun hzero => ?_⟩
    · exact congrArg (cross _ · i) (pulseT_of_pos hpos nh pwc)
    · exact congrArg (cross _ · i) (pulseT_of_neg hneg nh pwc)
    · exact cross_of_isZero _ _ ((feq_posZero i).symm.trans hzero)

/-- Settles O17: the record and the bits are those of a fold exactly when triRising changed. -/
theorem advancingTickDetectsFolds : Obligations.AdvancingTickDetectsFolds := by
  intro conn inc pw rst s h1 h2 h3 harmed i
  let op := tickOperands inc pw rst
  refine ⟨tick Config.params op s, exec_tick_finite conn s h1 h2 h3, tick_halfHigh_of_unarmed _ op harmed,
    tick_triRising_of_unarmed _ op harmed, ?_⟩
  rw [tick_pend_tri_of_unarmed _ op harmed, tick_ev_of_unarmed _ op harmed, advanceEvents_foldBits]
  generalize (tick Config.params op s).triRising = nr
  refine ⟨fun hsame => ?_, fun hchanged => ?_⟩
  · rw [bne_eq_false_iff_eq.2 hsame]
    exact ⟨rfl, rfl⟩
  · rw [bne_iff_ne.2 hchanged]
    refine ⟨rfl, rfl, rfl, fun hpos => ?_, fun hneg => ?_⟩
    · exact congrArg (cross _ · i) (if_pos hpos)
    · exact congrArg (cross _ · i) (if_neg (Bool.eq_false_iff.1 hneg))

/-! ### A zero increment -/

theorem eq_of_value_eq {x y : F32} (hv : value x = value y) (hs : signBit x = signBit y) : x = y := by
  rw [value_inj_iff, orderKey, orderKey, hs] at hv
  refine BitVec.eq_of_toNat_eq ?_
  rw [toNat_eq, toNat_eq, hs]
  split at hv <;> omega

theorem isFinite_of_isZero {z : F32} (h : isZero z = true) : isFinite z = true := by
  rw [isZero_iff] at h
  rw [isFinite_iff]; omega

theorem value_of_isZero {z : F32} (h : isZero z = true) : value z = 0 := by
  rw [value_eq, (isZero_iff z).1 h, magOfBits_zero]
  simp

/-- A zero of either sign added to a value that has sign 0 leaves it bit-identical (R84). -/
theorem fadd_zero_of_signBit {p z : F32} (hp : isFinite p = true) (hs : signBit p = false) (hz : isZero z = true) :
    fadd p z = p := by
  have hzf := isFinite_of_isZero hz
  have hz0 := value_of_isZero hz
  have hp0 : 0 ≤ value p := by
    rw [value_eq, hs]; simp
  refine eq_of_value_eq ?_ ?_
  · rw [(fadd_exact hp hzf hp (by omega)).2, hz0, add_zero]
  · rw [signBit_fadd_of_nonneg hp hzf (by omega) (by rw [hs, Bool.false_and]), hs]

/-- INPUT_CONDITION leaves a zero of either sign as it is (R65). -/
theorem conditionInc_of_isZero {inc : F32} (h : isZero inc = true) : conditionInc inc = inc := by
  have hf := isFinite_of_isZero h
  have h0 := value_of_isZero h
  have hlo : ¬ flt inc (fneg half) = true := by
    rw [flt_iff hf (by decide), h0, value_fneg, value_half]; omega
  have hhi : ¬ fgt inc half = true := by
    rw [fgt, flt_iff (by decide) hf, h0, value_half]; omega
  rw [conditionInc, fclamp, if_neg hlo, if_neg hhi]

theorem not_flt_posZero_of_isZero {inc : F32} (h : isZero inc = true) : flt inc posZero = false := by
  rw [Bool.eq_false_iff, ne_eq, flt_iff (isFinite_of_isZero h) (by decide), value_of_isZero h, value_posZero]
  omega

/-- With no wrap, no fold and no motion backward the event word is ADV, with PE_UP where there is an edge. -/
theorem advanceEvents_at_rest (edge : Bool) : advanceEvents false false edge false false = if edge then 0x09#8 else 0x01#8 := by
  revert edge; decide

/-- Settles O29: q is the phase itself, which neither wrap takes, so triRising and halfHigh come out as they were. -/
theorem zeroIncrementHoldsThePhase : Obligations.ZeroIncrementHoldsThePhase := by
  intro conn inc pw rst s hz h2 h3 harmed hrange hsign hflags
  let op := tickOperands inc pw rst
  have hinc : op.inc = inc := conditionInc_of_isZero hz
  have hpf : isFinite s.phase = true := ((phaseContained_iff _).1 hrange).1
  have hs : signBit s.phase = false := by simpa [phaseSignClear] using hsign
  have hq : fadd s.phase op.inc = s.phase := by rw [hinc, fadd_zero_of_signBit hpf hs hz]
  obtain ⟨hup, hdn⟩ := not_wraps_of_phaseContained hrange
  simp only [flagsAgree, Bool.and_eq_true, beq_iff_eq] at hflags
  obtain ⟨htri, hhalf⟩ := hflags
  have hphase : (tick Config.params op s).phase = s.phase := by
    rw [tick_phase_of_unarmed _ op harmed, hq, wrappedPhase, hup, hdn]; rfl
  have hrising : (tick Config.params op s).triRising = s.triRising := by
    rw [tick_triRising_of_unarmed _ op harmed, hphase, htri]
  have hsquare : (tick Config.params op s).squareHigh = flt s.phase (fclamp pw posZero one) := by
    rw [tick_squareHigh_of_unarmed _ op harmed, hphase]; rfl
  have hsq := tick_pend_sq_of_unarmed Config.params op harmed
  have hev := tick_ev_of_unarmed Config.params op harmed
  rw [hsquare, cross_of_isZero _ _ (hinc ▸ hz)] at hsq
  rw [hq, hup, hdn, hrising, bne_self_eq_false, hinc, not_flt_posZero_of_isZero hz, advanceEvents_at_rest, hsquare] at hev
  refine ⟨_, exec_tick_finite conn s (isFinite_of_isZero hz) h2 h3, hphase, ?_, hrising, ?_, ?_, ?_, ?_⟩
  · rw [tick_subParity_of_unarmed _ op harmed, hq, hup, hdn]; rfl
  · rw [tick_halfHigh_of_unarmed _ op harmed, hphase, hhalf]
  · rw [tick_pend_saw_of_unarmed _ op harmed, hq, hup, hdn]; rfl
  · rw [tick_pend_tri_of_unarmed _ op harmed, hrising, bne_self_eq_false]; rfl
  · rw [hsq, hev]
    cases flt s.phase (fclamp pw posZero one) != s.squareHigh with
    | false => exact ⟨rfl, fun h => absurd h Bool.false_ne_true, .inl rfl⟩
    | true => exact ⟨rfl, fun _ => rfl, .inr ⟨rfl, rfl⟩⟩

end Sys2Proof.Machine
end

section
/-! SUPPORT. The correction injector (41_correction_injector.md): the tables and the bounds of the kernels, the exact triangle
magnitude, what a completed TICK makes of the buffers, and that every record and every buffer value stays bounded. -/

namespace Sys2Proof.Machine

/-! ### The kernels: their tables and the bounds of their taps -/

/-- Settles O56, by evaluation at each test point. -/
theorem stepKernelTable : Obligations.StepKernelTable := by
  refine ⟨?_, ?_, ?_, ?_, ?_⟩ <;> decide

theorem rampKernel_of_none {P : Params} (h : P.ramp = none) (d : F32) : rampKernel P d = rampKernelDefault d := by
  rw [rampKernel, h]

theorem rampKernel_of_some {P : Params} {k : RampKernel} (h : P.ramp = some k) (d : F32) : rampKernel P d = k.taps d := by
  rw [rampKernel, h]

/-- Settles O57: a replacement carries R91's properties with it, and the default is evaluated at each test point. -/
theorem rampKernelTable : Obligations.RampKernelTable := by
  refine ⟨fun P k h => ⟨rampKernel_of_some h, k.lawful, ?_⟩, fun P h => ⟨rampKernel_of_none h, ?_⟩⟩
  · rw [funext (rampKernel_of_some h)]
    exact k.evaluated
  · simp only [rampKernel_of_none h]
    decide

/-- A tap is finite and in [lo, hi], up to the 2^-10 of rounding of log entry 4. -/
def TapWithin (lo hi : ℚ) (t : F32) : Prop := isFinite t = true ∧ lo - 1 / 1024 ≤ exactly t ∧ exactly t ≤ hi + 1 / 1024

theorem tapWithin_of_tapNear {t : F32} {r lo hi : ℚ} (h : TapNear t r) (hr : lo ≤ r ∧ r ≤ hi) : TapWithin lo hi t := by
  obtain ⟨hf, hl, hu⟩ := h
  exact ⟨hf, by linarith, by linarith⟩

theorem Near.tapWithin {t : F32} {r lo hi : ℚ} (h : Near t r (1 / 1024)) (hr : lo ≤ r ∧ r ≤ hi) : TapWithin lo hi t := by
  obtain ⟨hf, ht⟩ := h
  rw [abs_le] at ht
  exact tapWithin_of_tapNear ⟨hf, by linarith, by linarith⟩ hr

theorem TapWithin.mono {t : F32} {lo hi lo' hi' : ℚ} (h : TapWithin lo hi t) (hl : lo' ≤ lo) (hh : hi ≤ hi') :
    TapWithin lo' hi' t := by
  obtain ⟨hf, h1, h2⟩ := h
  exact ⟨hf, by linarith, by linarith⟩

/-- The step kernel's polynomials are minus each other's mirror images (R90). -/
theorem stepExact0_eq (d : ℚ) : stepExact0 d = -stepExact3 (1 - d) := by unfold stepExact0 stepExact3; ring

theorem stepExact1_eq (d : ℚ) : stepExact1 d = -stepExact2 (1 - d) := by unfold stepExact1 stepExact2; ring

theorem stepExact2_eq (d : ℚ) : stepExact2 d = -stepExact1 (1 - d) := by unfold stepExact1 stepExact2; ring

theorem stepExact3_range {d : ℚ} (h0 : 0 ≤ d) (h1 : d ≤ 1) : 0 ≤ stepExact3 d ∧ stepExact3 d ≤ 1 / 24 := by
  have := pow_unit h0 h1 4
  unfold stepExact3
  constructor <;> linarith

theorem stepExact2_nonneg {d : ℚ} (h0 : 0 ≤ d) (h1 : d ≤ 1) : 0 ≤ stepExact2 d := by
  have h42 : d ^ 4 ≤ d ^ 2 := pow_le_pow_of_le_one h0 h1 (by norm_num)
  have h3 := (pow_unit h0 h1 3).1
  have h2 := (pow_unit h0 h1 2).1
  unfold stepExact2
  linarith

theorem neg_half_le_stepExact1 {d : ℚ} (h0 : 0 ≤ d) (h1 : d ≤ 1) : -1 / 2 ≤ stepExact1 d := by
  have h31 : d ^ 3 ≤ d := pow_le_of_le_one h0 h1 (by norm_num)
  have h4 := (pow_unit h0 h1 4).1
  unfold stepExact1
  linarith

/-- The step kernel's taps, each near the range of its polynomial (R90). -/
theorem stepKernel_tapWithin {d : F32} (h : within posZero d one = true) :
    TapWithin (-1 / 24) 0 (stepKernel d).t0 ∧ TapWithin (-1 / 2) 0 (stepKernel d).t1 ∧
    TapWithin 0 (1 / 2) (stepKernel d).t2 ∧ TapWithin 0 (1 / 24) (stepKernel d).t3 := by
  obtain ⟨-, h0, h1⟩ := fraction_bounds h
  have m0 : 0 ≤ 1 - exactly d := by linarith
  have m1 : 1 - exactly d ≤ 1 := by linarith
  obtain ⟨n0, n1, n2, n3⟩ := stepKernel_near h
  have e3 := stepExact3_range h0 h1
  have e0 := stepExact3_range m0 m1
  have e1 := stepExact2_nonneg m0 m1
  have e2 := neg_half_le_stepExact1 m0 m1
  refine ⟨n0.tapWithin ?_, n1.tapWithin ?_, n2.tapWithin ?_, n3.tapWithin e3⟩
  · rw [stepExact0_eq]; constructor <;> linarith
  · exact ⟨neg_half_le_stepExact1 h0 h1, by rw [stepExact1_eq]; linarith⟩
  · exact ⟨stepExact2_nonneg h0 h1, by rw [stepExact2_eq]; linarith⟩

/-- The ramp kernel's taps, whatever the parameter is (R92). -/
theorem rampKernel_tapWithin (P : Params) {d : F32} (h : within posZero d one = true) :
    TapWithin 0 (7 / 30) (rampKernel P d).t0 ∧ TapWithin 0 (7 / 30) (rampKernel P d).t1 ∧
    TapWithin 0 (7 / 30) (rampKernel P d).t2 ∧ TapWithin 0 (7 / 30) (rampKernel P d).t3 := by
  obtain ⟨-, h0, h1⟩ := fraction_bounds h
  obtain ⟨q, hq, he⟩ := rampKernel_lawful P
  obtain ⟨r0, r1, r2, r3⟩ := hq.range _ h0 h1
  obtain ⟨n0, n1, n2, n3⟩ := he d h
  exact ⟨tapWithin_of_tapNear n0 r0, tapWithin_of_tapNear n1 r1, tapWithin_of_tapNear n2 r2, tapWithin_of_tapNear n3 r3⟩

/-- Settles O58, by the ranges of the exact polynomials. -/
theorem kernelTapsAreBounded : Obligations.KernelTapsAreBounded := by
  intro P d h
  obtain ⟨s0, s1, s2, s3⟩ := stepKernel_tapWithin h
  refine ⟨⟨?_, ?_, ?_, ?_⟩, rampKernel_tapWithin P h⟩
  · exact s0.mono (by norm_num) (by norm_num)
  · exact s1.mono le_rfl (by norm_num)
  · exact s2.mono (by norm_num) le_rfl
  · exact s3.mono (by norm_num) (by norm_num)

/-! ### The triangle magnitude -/

theorem value_two : value two = 2 ^ 150 := by decide
theorem value_four : value four = 4 * 2 ^ 149 := by decide

/-- A magnitude is a significand of at most 24 bits at the place its exponent field gives. -/
theorem magOfBits_significand (m : Nat) : ∃ f k, f < 2 ^ 24 ∧ k ≤ m / 2 ^ 23 ∧ magOfBits m = f * 2 ^ k := by
  unfold magOfBits
  split
  · exact ⟨m % 2 ^ 23, 0, by omega, Nat.zero_le _, by rw [pow_zero, mul_one]⟩
  · exact ⟨2 ^ 23 + m % 2 ^ 23, _, by omega, Nat.sub_le .., rfl⟩

/-- Four times a value of magnitude at most 1/2 is representable: only its exponent moves. -/
theorem exists_value_eq_four_mul {x : F32} (hx : -2 ^ 148 ≤ value x ∧ value x ≤ 2 ^ 148) :
    ∃ r : F32, isFinite r = true ∧ value r = 4 * value x := by
  have hm : magOfBits (magBits x) ≤ magOfBits 0x3F000000 := by
    rw [value_eq] at hx
    rw [show magOfBits 0x3F000000 = 2 ^ 148 by decide]
    split at hx <;> omega
  rw [magOfBits_strictMono.le_iff_le] at hm
  obtain ⟨f, k, hf, hk, he⟩ := magOfBits_significand (magBits x)
  have hv : value x = (if signBit x then -(f : ℤ) else f) * 2 ^ k := by
    rw [value_eq, he]
    split <;> push_cast <;> ring
  obtain ⟨r, hr, hrv⟩ := representable_value (if signBit x then -(f : ℤ) else f) (k + 2) (by split <;> omega) (by omega)
  exact ⟨r, hr, by rw [hrv, hv]; ring⟩

/-- The sign of the triangle magnitude's factor (R95). -/
theorem value_triFactor (nr : Bool) : value (if nr then four else fneg four) = (if nr then 4 else -4) * 2 ^ 149 := by
  cases nr <;> decide

/-- The triangle magnitude of a conditioned increment is finite and 4 or -4 times it (R95). -/
theorem triMagnitude_exact (nr : Bool) {inc : F32} (h : incConditioned inc = true) :
    isFinite (triMagnitude nr inc) = true ∧ value (triMagnitude nr inc) = (if nr then 4 else -4) * value inc := by
  obtain ⟨hf, hb⟩ := (incConditioned_iff inc).1 h
  obtain ⟨r, hr, hrv⟩ : ∃ r : F32, isFinite r = true ∧ value r = (if nr then 4 else -4) * value inc := by
    obtain ⟨r, hr, hrv⟩ := exists_value_eq_four_mul hb
    cases nr with
    | true => exact ⟨r, hr, hrv⟩
    | false => exact ⟨fneg r, by rwa [isFinite_fneg], by rw [value_fneg, hrv]; simp⟩
  have hfac : isFinite (if nr then four else fneg four) = true := by cases nr <;> decide
  obtain ⟨hfin, he⟩ := fmul_exact hfac hf hr (by rw [hrv, value_triFactor]; ring)
  exact ⟨hfin, he.trans hrv⟩

/-- The triangle magnitude of a conditioned increment is within 2 (R100). -/
theorem within_triMagnitude (nr : Bool) {inc : F32} (h : incConditioned inc = true) :
    within (fneg two) (triMagnitude nr inc) two = true := by
  obtain ⟨hfin, he⟩ := triMagnitude_exact nr h
  obtain ⟨-, hlo, hhi⟩ := (incConditioned_iff inc).1 h
  rw [within_iff (by decide) (by decide), he, value_fneg, value_two]
  refine ⟨hfin, ?_⟩
  cases nr <;> simp <;> omega

/-- Settles O50: four times the increment is representable, so the product is not rounded. -/
theorem triangleMagnitudeIsExact : Obligations.TriangleMagnitudeIsExact := fun nr _ h =>
  ⟨(triMagnitude_exact nr h).2, within_triMagnitude nr h⟩

/-! ### The delay line of a completed TICK -/

/-- The raw value of a waveform in the state a transition leaves (42_waveform_generator.md R102 to R104). -/
def rawOf (w : Wave) (s : State) : F32 :=
  match w with
  | .saw => s.phase
  | .sq => rawSquare s.squareHigh
  | .tri => rawTriangle s.phase s.triRising s.halfHigh

section TickBuffers

variable (P : Params) (op : TickOperands) (s : State)

theorem tick_buf : (tick P op s).buf = tickLines P op.w { transition op (beginTick s) with buf := s.buf, pend := s.pend } := by
  obtain ⟨hbuf, hpend, -⟩ := transition_frame op (beginTick s)
  rw [tick_eq P op s _ rfl]
  simp only [tickLines, hbuf, hpend, beginTick_buf, beginTick_pend]

/-- The buffer of a corrected waveform: shifted, with the new raw value appended, and the old record injected. -/
theorem tick_line (w : Wave) :
    lineOf (waveBuf w) (tick P op s) =
      injectLine P w (recordOf w s.pend) (shiftLine (lineOf (waveBuf w) s) (rawOf w (tick P op s))) := by
  cases w with
  | saw => simp only [waveBuf, lineOf, rawOf, tick_buf, tick_phase]; rfl
  | sq => simp only [waveBuf, lineOf, rawOf, tick_buf, tick_squareHigh]; rfl
  | tri => simp only [waveBuf, lineOf, rawOf, tick_buf, tick_phase, tick_triRising, tick_halfHigh]; rfl

theorem tick_buf_pw : (tick P op s).buf.pw = shiftLine s.buf.pw op.w := by rw [tick_buf]; rfl

end TickBuffers

/-- Settles O19, buffer by buffer. -/
theorem tickShiftsAndInjects : Obligations.TickShiftsAndInjects := by
  intro conn inc pw rst s h1 h2 h3 corrected
  exact ⟨_, exec_tick_finite conn s h1 h2 h3, tick_line _ _ s .saw, tick_line _ _ s .sq, tick_line _ _ s .tri, tick_buf_pw ..⟩

/-! ### Values between eighths

Every bound of R100 is a small multiple of 1/8, so the rounding of a sum or product never passes one. -/

/-- A finite value in [a/8, b/8]. -/
def InEighths (a b : ℤ) (x : F32) : Prop := isFinite x = true ∧ a * 2 ^ 146 ≤ value x ∧ value x ≤ b * 2 ^ 146

/-- lo and hi are the patterns of a/8 and b/8. -/
def isEighths (lo hi : F32) (a b : ℤ) : Bool :=
  isFinite lo && isFinite hi && decide (value lo = a * 2 ^ 146) && decide (value hi = b * 2 ^ 146)

theorem within_iff_inEighths {lo hi x : F32} {a b : ℤ} (h : isEighths lo hi a b = true) :
    within lo x hi = true ↔ InEighths a b x := by
  simp only [isEighths, Bool.and_eq_true, decide_eq_true_eq] at h
  obtain ⟨⟨⟨hl, hh⟩, ha⟩, hb⟩ := h
  rw [within_iff hl hh, ha, hb, InEighths]

section InEighths

variable {a b c d k : ℤ} {x y u t : F32}

theorem InEighths.mono (h : InEighths a b x) (ha : c ≤ a) (hb : b ≤ d) : InEighths c d x := by
  obtain ⟨hf, hl, hh⟩ := h
  exact ⟨hf, by omega, by omega⟩

/-- A result is between eighths when it is between every two finite bounds of an exact number that is. -/
theorem inEighths_of_between (hab : a ≤ b) (hl : -2 ^ 10 ≤ a) (hh : b ≤ 2 ^ 10)
    (h : ∀ lo hi : F32, isFinite lo = true → isFinite hi = true → value lo = a * 2 ^ 146 → value hi = b * 2 ^ 146 →
      within lo x hi = true) : InEighths a b x := by
  obtain ⟨lo, hlf, hlv⟩ := representable_value a 146 (by omega) (by norm_num)
  obtain ⟨hi, hhf, hhv⟩ := representable_value b 146 (by omega) (by norm_num)
  have hw := (within_iff hlf hhf).1 (h lo hi hlf hhf hlv hhv)
  rwa [hlv, hhv] at hw

theorem InEighths.add (hx : InEighths a b x) (hy : InEighths c d y) (hl : -2 ^ 10 ≤ a + c) (hh : b + d ≤ 2 ^ 10) :
    InEighths (a + c) (b + d) (fadd x y) := by
  obtain ⟨hxf, hxl, hxh⟩ := hx
  obtain ⟨hyf, hyl, hyh⟩ := hy
  refine inEighths_of_between (by omega) hl hh fun lo hi hlf hhf hlv hhv => within_fadd hxf hyf hlf hhf ?_ ?_ <;> omega

theorem InEighths.neg (hx : InEighths a b x) : InEighths (-b) (-a) (fneg x) := by
  obtain ⟨hf, hl, hh⟩ := hx
  rw [InEighths, isFinite_fneg, value_fneg]
  exact ⟨hf, by omega, by omega⟩

theorem InEighths.sub (hx : InEighths a b x) (hy : InEighths c d y) (hl : -2 ^ 10 ≤ a - d) (hh : b - c ≤ 2 ^ 10) :
    InEighths (a - d) (b - c) (fsub x y) := by
  have h := hx.add hy.neg (by omega) (by omega)
  rwa [← sub_eq_add_neg, ← sub_eq_add_neg] at h

theorem InEighths.double (hx : InEighths a b x) (hl : -2 ^ 10 ≤ 2 * a) (hh : 2 * b ≤ 2 ^ 10) :
    InEighths (2 * a) (2 * b) (fmul two x) := by
  obtain ⟨hf, hxl, hxh⟩ := hx
  refine inEighths_of_between (by omega) hl hh fun lo hi hlf hhf hlv hhv =>
    within_fmul (by decide) hf hlf hhf ?_ ?_ <;> rw [value_two] <;> omega

/-- A tap of magnitude at most k/8 times a magnitude u of at most 2 (R100). -/
theorem InEighths.scale (hu : InEighths (-16) 16 u) (ht : InEighths (-k) k t) (hk : 2 * k ≤ 2 ^ 10) :
    InEighths (-(2 * k)) (2 * k) (fmul u t) := by
  obtain ⟨huf, hul, huh⟩ := hu
  obtain ⟨htf, htl, hth⟩ := ht
  have hprod : |value u * value t| ≤ 16 * 2 ^ 146 * (k * 2 ^ 146) := by
    rw [abs_mul]
    exact mul_le_mul (abs_le.2 ⟨by omega, huh⟩) (abs_le.2 ⟨by omega, hth⟩) (abs_nonneg _) (by norm_num)
  obtain ⟨hlo, hhi⟩ := abs_le.1 hprod
  refine inEighths_of_between (by omega) (by omega) hk fun lo hi hlf hhf hlv hhv => within_fmul huf htf hlf hhf ?_ ?_ <;> omega

end InEighths

/-- y lies at most k/8 outside any eighths that x lies between: what a correction of at most k/8 makes of x. -/
def MovedBy (k : ℤ) (x y : F32) : Prop :=
  ∀ a b : ℤ, -2 ^ 10 ≤ a - k → b + k ≤ 2 ^ 10 → InEighths a b x → InEighths (a - k) (b + k) y

section MovedBy

variable {k m : ℤ} {x y z u t : F32}

theorem movedBy_self (hk : 0 ≤ k) : MovedBy k x x := fun _ _ _ _ h => h.mono (by omega) (by omega)

theorem movedBy_correction (hu : InEighths (-16) 16 u) (ht : InEighths (-k) k t) : MovedBy (2 * k) x (fadd x (fmul u t)) := by
  intro a b hl hh hx
  have h := hx.add (hu.scale ht (by have := hx.2; omega)) (by omega) hh
  rwa [← sub_eq_add_neg] at h

theorem MovedBy.trans (hxy : MovedBy k x y) (hyz : MovedBy m y z) (hm : 0 ≤ m) : MovedBy (k + m) x z := by
  intro a b hl hh hx
  exact (hyz _ _ (by omega) (by omega) (hxy a b (by omega) (by omega) hx)).mono (by omega) (by omega)

/-- A value moved by at most 7/2 in all is within 4 of where it was: the eighths about it cost another 1/8. -/
theorem MovedBy.withinFour (h : MovedBy k x y) (hk : 0 ≤ k ∧ k ≤ 28) (hx : InEighths (-100) 100 x) : withinFour x y := by
  obtain ⟨hf, hl, hh⟩ := hx
  obtain ⟨hyf, hyl, hyh⟩ := h (value x / 2 ^ 146) (value x / 2 ^ 146 + 1) (by omega) (by omega) ⟨hf, by omega, by omega⟩
  have h1 : ((value x - 2 ^ 151 : ℤ) : ℚ) ≤ value y := by exact_mod_cast (by omega)
  have h2 : (value y : ℚ) ≤ ((value x + 2 ^ 151 : ℤ) : ℚ) := by exact_mod_cast (by omega)
  push_cast at h1 h2
  unfold Machine.withinFour exactly
  exact ⟨hyf, by linarith, by linarith⟩

end MovedBy

/-! ### What the injection of a bounded record does to a buffer -/

theorem TapWithin.inEighths {t : F32} {lo hi : ℚ} {a b : ℤ} (h : TapWithin lo hi t) (ha : (a : ℚ) / 8 ≤ lo - 1 / 1024)
    (hb : hi + 1 / 1024 ≤ (b : ℚ) / 8) : InEighths a b t := by
  obtain ⟨hf, hl, hh⟩ := h
  refine ⟨hf, ?_, ?_⟩
  · have : (a : ℚ) * 2 ^ 146 ≤ value t := by rw [value_eq_exactly]; linarith
    exact_mod_cast this
  · have : (value t : ℚ) ≤ b * 2 ^ 146 := by rw [value_eq_exactly]; linarith
    exact_mod_cast this

/-- Taps within 1/4 at the ends and 5/8 in the middle. -/
structure TapsSmall (e : Taps) : Prop where
  t0 : InEighths (-2) 2 e.t0
  t1 : InEighths (-5) 5 e.t1
  t2 : InEighths (-5) 5 e.t2
  t3 : InEighths (-2) 2 e.t3

theorem stepKernel_small {d : F32} (h : within posZero d one = true) : TapsSmall (stepKernel d) := by
  obtain ⟨h0, h1, h2, h3⟩ := stepKernel_tapWithin h
  constructor
  · exact h0.inEighths (by norm_num) (by norm_num)
  · exact h1.inEighths (by norm_num) (by norm_num)
  · exact h2.inEighths (by norm_num) (by norm_num)
  · exact h3.inEighths (by norm_num) (by norm_num)

theorem rampKernel_small (P : Params) {d : F32} (h : within posZero d one = true) : TapsSmall (rampKernel P d) := by
  obtain ⟨h0, h1, h2, h3⟩ := rampKernel_tapWithin P h
  constructor
  · exact h0.inEighths (by norm_num) (by norm_num)
  · exact h1.inEighths (by norm_num) (by norm_num)
  · exact h2.inEighths (by norm_num) (by norm_num)
  · exact h3.inEighths (by norm_num) (by norm_num)

theorem kernelOf_small (P : Params) (w : Wave) {d : F32} (h : within posZero d one = true) : TapsSmall (kernelOf P w d) := by
  cases w with
  | saw => exact stepKernel_small h
  | sq => exact stepKernel_small h
  | tri => exact rampKernel_small P h

/-- Each slot of l' is the slot of l with a correction of at most 1/2, 5/4, 5/4 and 1/2. -/
structure Corrected (l l' : Line) : Prop where
  s0 : MovedBy 4 l.s0 l'.s0
  s1 : MovedBy 10 l.s1 l'.s1
  s2 : MovedBy 10 l.s2 l'.s2
  s3 : MovedBy 4 l.s3 l'.s3

/-- A record has d in [0, 1] and |u| <= 2 (R100), in eighths. -/
theorem recordBounded_iff (r : Pending) :
    recordBounded r = true ↔ within posZero r.d one = true ∧ InEighths (-16) 16 r.u := by
  rw [recordBounded, Bool.and_eq_true, within_iff_inEighths (lo := fneg two) (a := -16) (b := 16) (by decide)]

theorem injectLine_corrected (P : Params) (w : Wave) {r : Pending} (h : recordBounded r = true) (l : Line) :
    Corrected l (injectLine P w r l) := by
  obtain ⟨hd, hu⟩ := (recordBounded_iff r).1 h
  rw [injectLine]
  split
  · obtain ⟨h0, h1, h2, h3⟩ := kernelOf_small P w hd
    exact ⟨movedBy_correction hu h0, movedBy_correction hu h1, movedBy_correction hu h2, movedBy_correction hu h3⟩
  · exact ⟨movedBy_self (by decide), movedBy_self (by decide), movedBy_self (by decide), movedBy_self (by decide)⟩

/-- The slots of a buffer whose raw values are in [a/8, b/8]: within 4, 3, 7/4 and 1/2 of that range (R100). -/
structure LineInEighths (a b : ℤ) (l : Line) : Prop where
  s0 : InEighths (a - 32) (b + 32) l.s0
  s1 : InEighths (a - 24) (b + 24) l.s1
  s2 : InEighths (a - 14) (b + 14) l.s2
  s3 : InEighths (a - 4) (b + 4) l.s3

/-- The slot bounds B are those of raw values in [a/8, b/8]. -/
def areAround (B : SlotBounds) (a b : ℤ) : Bool :=
  isEighths B.lo.s0 B.hi.s0 (a - 32) (b + 32) && isEighths B.lo.s1 B.hi.s1 (a - 24) (b + 24) &&
  isEighths B.lo.s2 B.hi.s2 (a - 14) (b + 14) && isEighths B.lo.s3 B.hi.s3 (a - 4) (b + 4)

theorem lineBounded_iff {B : SlotBounds} {a b : ℤ} (h : areAround B a b = true) (l : Line) :
    lineBounded B l = true ↔ LineInEighths a b l := by
  simp only [areAround, Bool.and_eq_true] at h
  obtain ⟨⟨⟨h0, h1⟩, h2⟩, h3⟩ := h
  simp only [lineBounded, Bool.and_eq_true, within_iff_inEighths h0, within_iff_inEighths h1, within_iff_inEighths h2,
    within_iff_inEighths h3]
  exact ⟨fun ⟨⟨⟨i0, i1⟩, i2⟩, i3⟩ => ⟨i0, i1, i2, i3⟩, fun ⟨i0, i1, i2, i3⟩ => ⟨⟨⟨i0, i1⟩, i2⟩, i3⟩⟩

/-- A correction after a shift takes each slot's bounds to the next slot's. -/
theorem Corrected.keeps_lineInEighths {a b : ℤ} {l l' : Line} {raw : F32} (h : Corrected (shiftLine l raw) l')
    (ha : -2 ^ 9 ≤ a) (hb : b ≤ 2 ^ 9) (hl : LineInEighths a b l) (hraw : InEighths a b raw) : LineInEighths a b l' := by
  constructor
  · exact (h.s0 _ _ (by omega) (by omega) hl.s1).mono (by omega) (by omega)
  · exact (h.s1 _ _ (by omega) (by omega) hl.s2).mono (by omega) (by omega)
  · exact (h.s2 _ _ (by omega) (by omega) hl.s3).mono (by omega) (by omega)
  · exact h.s3 _ _ (by omega) (by omega) hraw

/-! ### The raw values and the width -/

theorem inEighths_of_phaseContained {p : F32} (h : phaseContained p = true) : InEighths 0 8 p := by
  obtain ⟨hf, h0, h1⟩ := (phaseContained_iff p).1 h
  exact ⟨hf, by omega, by omega⟩

theorem inEighths_rawSquare (sq : Bool) : InEighths (-8) 8 (rawSquare sq) := by
  rw [← within_iff_inEighths (lo := fneg one) (hi := one) (by decide)]
  cases sq <;> decide

/-- RAW_TRI of a contained phase is in [-3/2, 5/2], whatever the flags are (42_waveform_generator.md R104). -/
theorem inEighths_rawTriangle {p : F32} (h : phaseContained p = true) (tr hh : Bool) :
    InEighths (-12) 20 (rawTriangle p tr hh) := by
  have h2p : InEighths 0 16 (fmul two p) := (inEighths_of_phaseContained h).double (by decide) (by decide)
  have h3half : InEighths 12 12 oneAndHalf := ⟨by decide, by decide, by decide⟩
  have hhalf : InEighths 4 4 half := ⟨by decide, by decide, by decide⟩
  unfold rawTriangle
  split
  · split
    · exact (h2p.sub h3half (by decide) (by decide)).mono (by decide) (by decide)
    · exact (h2p.add hhalf (by decide) (by decide)).mono (by decide) (by decide)
  · exact (h3half.sub h2p (by decide) (by decide)).mono (by decide) (by decide)

/-- Every raw value is within 100/8 of 0, the range `MovedBy.withinFour` asks for. -/
theorem inEighths_rawOf (w : Wave) {s : State} (h : phaseContained s.phase = true) : InEighths (-100) 100 (rawOf w s) := by
  cases w with
  | saw => exact (inEighths_of_phaseContained h).mono (by decide) (by decide)
  | sq => exact (inEighths_rawSquare _).mono (by decide) (by decide)
  | tri => exact (inEighths_rawTriangle h _ _).mono (by decide) (by decide)

theorem widthConditioned_conditionPw {pw : F32} (h : isFinite pw = true) : widthConditioned (conditionPw pw) = true :=
  within_fclamp h (by decide) (by decide) (by decide)

/-- The width w of a conditioned pulse width is in [-1, 1] (43_delay_line.md R114). -/
theorem within_bipolarWidth {pwc : F32} (h : widthConditioned pwc = true) :
    within (fneg one) (bipolarWidth pwc) one = true := by
  have hp : InEighths 0 8 pwc := (within_iff_inEighths (by decide)).1 h
  have hone : InEighths 8 8 one := ⟨by decide, by decide, by decide⟩
  rw [within_iff_inEighths (a := -8) (b := 8) (by decide)]
  exact (hp.double (by decide) (by decide)).sub hone (by decide) (by decide)

/-! ### The records a TICK leaves -/

theorem recordsBounded_iff (r : Records) : recordsBounded r = true ↔ ∀ w, recordBounded (recordOf w r) = true := by
  simp only [recordsBounded, Bool.and_eq_true]
  exact ⟨fun ⟨⟨h1, h2⟩, h3⟩ w => by cases w <;> assumption, fun h => ⟨⟨h .saw, h .sq⟩, h .tri⟩⟩

theorem recordBounded_inactive : recordBounded .inactive = true := by decide

theorem recordBounded_of_cross {p t inc u : F32} (hd : within posZero (cross p t inc) one = true)
    (hu : within (fneg two) u two = true) : recordBounded { active := true, d := cross p t inc, u := u } = true :=
  Bool.and_eq_true_iff.2 ⟨hd, hu⟩

/-- At a nonzero increment the pulse threshold is +0.0, the pulse width or 1 (40_phase_accumulator.md R72). -/
theorem isFinite_pulseT (nh : Bool) {inc pwc : F32} (hi : isFinite inc = true) (h0 : isZero inc = false)
    (hp : isFinite pwc = true) : isFinite (pulseT nh inc pwc) = true := by
  have hv : value inc ≠ value posZero := by
    rwa [ne_eq, ← feq_iff hi (by decide), feq_posZero, Bool.not_eq_true]
  rcases lt_or_gt_of_ne hv with hneg | hpos
  · rw [pulseT_of_neg ((flt_iff hi (by decide)).2 hneg)]
    cases nh with
    | true => exact hp
    | false => exact (by decide : isFinite one = true)
  · rw [pulseT_of_pos ((flt_iff (by decide) hi).2 hpos)]
    cases nh with
    | true => exact (by decide : isFinite posZero = true)
    | false => exact hp

theorem within_cross_pulseT (nh : Bool) {p inc pwc : F32} (hp : isFinite p = true) (hi : isFinite inc = true)
    (hw : isFinite pwc = true) : within posZero (cross p (pulseT nh inc pwc) inc) one = true := by
  cases h0 : isZero inc with
  | true => rw [cross_of_isZero _ _ h0]; decide
  | false => exact within_cross hp (isFinite_pulseT nh hi h0 hw) hi

/-- A fold threshold is one of five constants (R77). -/
theorem isFinite_triT (p inc : F32) : isFinite (triT p inc) = true := by
  unfold triT
  split_ifs <;> decide

section TickRecords

variable (P : Params) {op : TickOperands} {s : State}

theorem tick_pend_of_armed (h : s.resetArmed = true) : (tick P op s).pend = .inactive := by
  rw [tick_eq P op s _ (transition_resets (s := beginTick s) op h)]
  rfl

variable (hp : phaseContained s.phase = true) (hi : incConditioned op.inc = true) (hw : widthConditioned op.pwc = true)
  (h : s.resetArmed = false)
include hp hi h

theorem recordBounded_tick_saw : recordBounded (tick P op s).pend.saw = true := by
  obtain ⟨-, -, hup, hdn, -⟩ := atMostOneWrap s.phase op.inc hp hi
  have hif := ((incConditioned_iff _).1 hi).1
  rw [tick_pend_saw_of_unarmed P op h]
  split
  case isTrue hge =>
    exact recordBounded_of_cross (within_cross ((phaseContained_iff _).1 (hup hge)).1 (by decide) hif) (by decide)
  case isFalse =>
    split
    case isTrue hlt =>
      exact recordBounded_of_cross (within_cross ((phaseContained_iff _).1 (hdn hlt)).1 (by decide) hif) (by decide)
    case isFalse => exact recordBounded_inactive

theorem isFinite_tick_phase : isFinite (tick P op s).phase = true := by
  rw [tick_phase_of_unarmed P op h]
  exact ((phaseContained_iff _).1 (phaseContained_wrappedPhase hp hi)).1

include hw in
theorem recordBounded_tick_sq : recordBounded (tick P op s).pend.sq = true := by
  have hif := ((incConditioned_iff _).1 hi).1
  have hwf : isFinite op.pwc = true := ((within_iff (by decide) (by decide)).1 hw).1
  rw [tick_pend_sq_of_unarmed P op h]
  split
  · refine recordBounded_of_cross (within_cross_pulseT _ (isFinite_tick_phase P hp hi h) hif hwf) ?_
    cases (tick P op s).squareHigh <;> decide
  · exact recordBounded_inactive

theorem recordBounded_tick_tri : recordBounded (tick P op s).pend.tri = true := by
  have hif := ((incConditioned_iff _).1 hi).1
  rw [tick_pend_tri_of_unarmed P op h]
  split
  · exact recordBounded_of_cross (within_cross (isFinite_tick_phase P hp hi h) (isFinite_triT _ _) hif)
      (within_triMagnitude _ hi)
  · exact recordBounded_inactive

end TickRecords

/-- The records a TICK leaves have d in [0, 1] and |u| <= 2: none after RESET, else those of the wrap, the edge and the fold. -/
theorem recordsBounded_tick (P : Params) {op : TickOperands} {s : State} (hp : phaseContained s.phase = true)
    (hi : incConditioned op.inc = true) (hw : widthConditioned op.pwc = true) :
    recordsBounded (tick P op s).pend = true := by
  cases h : s.resetArmed with
  | true => rw [tick_pend_of_armed P h]; decide
  | false =>
    rw [recordsBounded_iff]
    rintro (_ | _ | _)
    · exact recordBounded_tick_saw P hp hi h
    · exact recordBounded_tick_sq P hp hi hw h
    · exact recordBounded_tick_tri P hp hi h

/-! ### What a completed TICK does to the numbers -/

/-- A completed TICK from s to t contains the phase, bounds the records and corrects each shifted buffer by bounded taps. -/
structure NumericTick (s t : State) : Prop where
  phase : phaseContained t.phase = true
  records : recordsBounded t.pend = true
  lines : ∀ w, Corrected (shiftLine (lineOf (waveBuf w) s) (rawOf w t)) (lineOf (waveBuf w) t)

section NumericTick

variable (P : Params) {inc pw rst : F32} {s : State} (h1 : isFinite inc = true) (h2 : isFinite pw = true)
  (hp : phaseContained s.phase = true) (hr : recordsBounded s.pend = true)
include h1 h2 hp hr

theorem numericTick_tick : NumericTick s (tick P (tickOperands inc pw rst) s) where
  phase := (phaseMove_tick P s h1).keeps_phaseContained hp
  records := recordsBounded_tick P hp (incConditioned_conditionInc h1) (widthConditioned_conditionPw h2)
  lines w := by
    rw [tick_line P _ s w]
    exact injectLine_corrected P w ((recordsBounded_iff _).1 hr w) _

theorem numericTick_runTick (h3 : isFinite rst = true) : NumericTick s (runTick P inc pw rst s) := by
  have hnone := (operandFault_none_iff inc pw rst).2 ⟨h1, h2, h3⟩
  rw [runTick, hnone]
  exact numericTick_tick P h1 h2 hp hr

end NumericTick

/-- Settles O59: on its way to slot 0 a sample is moved by at most 1/2, 5/4, 5/4 and 1/2. -/
theorem correctedValueStaysWithinFourOfRaw : Obligations.CorrectedValueStaysWithinFourOfRaw := by
  intro P i1 p1 r1 i2 p2 r2 i3 p3 r3 i4 p4 r4 s hi1 hp1 hr1 hi2 hp2 hr2 hi3 hp3 hr3 hi4 hp4 hr4 hphase hrec t u v x rawSq rawTri
  have ht : NumericTick s t := numericTick_runTick P hi1 hp1 hphase hrec hr1
  have hu : NumericTick t u := numericTick_runTick P hi2 hp2 ht.phase ht.records hr2
  have hv : NumericTick u v := numericTick_runTick P hi3 hp3 hu.phase hu.records hr3
  have hx : NumericTick v x := numericTick_runTick P hi4 hp4 hv.phase hv.records hr4
  have key : ∀ w, withinFour (rawOf w t) (lineOf (waveBuf w) t).s3 ∧ withinFour (rawOf w t) (lineOf (waveBuf w) u).s2 ∧
      withinFour (rawOf w t) (lineOf (waveBuf w) v).s1 ∧ withinFour (rawOf w t) (lineOf (waveBuf w) x).s0 := fun w => by
    have hraw := inEighths_rawOf w ht.phase
    have m3 := (ht.lines w).s3
    have m2 := m3.trans (hu.lines w).s2 (by decide)
    have m1 := m2.trans (hv.lines w).s1 (by decide)
    have m0 := m1.trans (hx.lines w).s0 (by decide)
    exact ⟨m3.withinFour (by decide) hraw, m2.withinFour (by decide) hraw, m1.withinFour (by decide) hraw,
      m0.withinFour (by decide) hraw⟩
  exact ⟨key .saw, key .sq, key .tri⟩

/-! ### The numerical invariant -/

/-- The bounds of R100 on the four buffers: the raw saw is in [0, 1], the square in [-1, 1], the triangle in [-3/2, 5/2]. -/
structure BuffersBounded (b : Lines) : Prop where
  saw : LineInEighths 0 8 b.saw
  sq : LineInEighths (-8) 8 b.sq
  tri : LineInEighths (-12) 20 b.tri
  pw : widthsBounded b.pw = true

theorem numbersBounded_iff (s : State) :
    numbersBounded s = true ↔ phaseInRange s = true ∧ recordsBounded s.pend = true ∧ BuffersBounded s.buf := by
  have hsaw := lineBounded_iff (show areAround sawBounds 0 8 = true by decide) s.buf.saw
  have hsq := lineBounded_iff (show areAround squareBounds (-8) 8 = true by decide) s.buf.sq
  have htri := lineBounded_iff (show areAround triangleBounds (-12) 20 = true by decide) s.buf.tri
  simp only [numbersBounded, Bool.and_eq_true, hsaw, hsq, htri]
  exact ⟨fun ⟨⟨⟨⟨⟨h1, h2⟩, h3⟩, h4⟩, h5⟩, h6⟩ => ⟨h1, h2, h3, h4, h5, h6⟩,
    fun ⟨h1, h2, h3, h4, h5, h6⟩ => ⟨⟨⟨⟨⟨h1, h2⟩, h3⟩, h4⟩, h5⟩, h6⟩⟩

theorem widthsBounded_shiftLine {l : Line} {w : F32} (hl : widthsBounded l = true)
    (hw : within (fneg one) w one = true) : widthsBounded (shiftLine l w) = true := by
  simp only [widthsBounded, Bool.and_eq_true] at hl
  obtain ⟨⟨⟨-, h1⟩, h2⟩, h3⟩ := hl
  simp only [widthsBounded, shiftLine, h1, h2, h3, hw, Bool.and_self]

/-- A completed TICK keeps the numerical invariant of R100. -/
theorem numbersBounded_tick (P : Params) {inc pw rst : F32} {s : State} (h1 : isFinite inc = true) (h2 : isFinite pw = true)
    (h : numbersBounded s = true) : numbersBounded (tick P (tickOperands inc pw rst) s) = true := by
  obtain ⟨hp, hr, hsaw, hsq, htri, hpw⟩ := (numbersBounded_iff s).1 h
  obtain ⟨hp', hr', hl⟩ := numericTick_tick P (rst := rst) h1 h2 hp hr
  refine (numbersBounded_iff _).2 ⟨hp', hr', ?_, ?_, ?_, ?_⟩
  · exact (hl .saw).keeps_lineInEighths (by decide) (by decide) hsaw (inEighths_of_phaseContained hp')
  · exact (hl .sq).keeps_lineInEighths (by decide) (by decide) hsq (inEighths_rawSquare _)
  · exact (hl .tri).keeps_lineInEighths (by decide) (by decide) htri (inEighths_rawTriangle hp' _ _)
  · rw [tick_buf_pw]
    exact widthsBounded_shiftLine hpw (within_bipolarWidth (widthConditioned_conditionPw h2))

/-- An instruction leaves the buffers and the installed records alone, or it is a TICK that completes. -/
theorem Effect.buffers_kept_or_ticked {i : Instr} {s t : State} (h : Effect s i t) :
    (t.buf = s.buf ∧ t.pend = s.pend) ∨
    ∃ inc pw rst, isFinite inc = true ∧ isFinite pw = true ∧ t = tick Config.params (tickOperands inc pw rst) s := by
  cases h with
  | idled | notTaken | refused2 | refused3 | faulted | wrappedUp | wrappedDn | wasReset => exact .inl ⟨rfl, rfl⟩
  | ticked conn ho =>
    obtain ⟨h1, h2, -⟩ := (operandFault_none_iff _ _ _).1 ho
    exact .inr ⟨_, _, _, h1, h2, rfl⟩
  | advanced => exact .inl ⟨advance_buf .., advance_pend ..⟩
  | edgeUp | edgeDn => rw [pulseClassify_eq]; exact .inl ⟨rfl, rfl⟩
  | foldUp | foldDn => rw [triClassify_eq]; exact .inl ⟨rfl, rfl⟩

/-- Settles O41: only a completed TICK writes a buffer or a record, and it keeps their bounds; whatever moves the phase keeps
it contained. -/
theorem bufferValuesStayBounded : Obligations.BufferValuesStayBounded := by
  intro s t h hstep
  have hphase := phaseContainment s t ((numbersBounded_iff s).1 h).1 hstep
  have hkept : t.buf = s.buf ∧ t.pend = s.pend → numbersBounded t = true := by
    rintro ⟨hbuf, hpend⟩
    rw [numbersBounded_iff, hbuf, hpend]
    exact ⟨hphase, ((numbersBounded_iff s).1 h).2⟩
  obtain rfl | ⟨f, rest, -, rfl | ⟨i, -, he⟩⟩ := step_next_cases hstep
  · exact h
  · exact h
  · obtain hsame | ⟨inc, pw, rst, h1, h2, rfl⟩ := he.buffers_kept_or_ticked
    · exact hkept hsame
    · exact numbersBounded_tick Config.params h1 h2 h

end Sys2Proof.Machine
end

section
/-! SUPPORT. The waveform generator (42_waveform_generator.md): the outputs of a completed TICK and their bounds, the exact
symmetry of the raw triangle, and what holding the sine parameter to R108's properties makes of it. -/

namespace Sys2Proof.Machine

/-! ### The outputs of a completed TICK -/

/-- A completed TICK reads its outputs from its new phase and its injected buffers (42_waveform_generator.md R105 to R108). -/
theorem tick_out (P : Params) (op : TickOperands) (s : State) :
    (tick P op s).out = tickOutputs P (tick P op s).phase (tick P op s).buf := by
  rw [tick_eq P op s _ rfl]

theorem fneg_silenceLimit : fneg silenceLimit = 0xBF7D70A4#32 := by decide

theorem squareOutput_eq (P : Params) (v w : F32) :
    squareOutput P v w = if fge w 0x3F7D70A4#32 || fle w 0xBF7D70A4#32 then 0x00000000#32 else P.squareOut v w := by
  rw [squareOutput, silentWidth, fneg_silenceLimit]
  rfl

/-- Settles O20: the outputs are those of slot 0, and the silence limits are the patterns of 0.99 and -0.99. -/
theorem tickEmitsSlotZero : Obligations.TickEmitsSlotZero := by
  intro conn inc pw rst s h1 h2 h3
  refine ⟨_, exec_tick_finite conn s h1 h2 h3, ?_⟩
  rw [tick_out]
  exact ⟨rfl, rfl, squareOutput_eq .., rfl⟩

/-! ### The raw triangle at the multiples of 2^-20 -/

/-- A value is finite and exactly j * 2^-20. -/
def IsGridValue (j : ℤ) (x : F32) : Prop := isFinite x = true ∧ value x = j * 2 ^ 129

section IsGridValue

variable {i j : ℤ} {x y : F32}

/-- A sum of multiples of 2^-20 below 16 in magnitude is exact. -/
theorem IsGridValue.add (hx : IsGridValue i x) (hy : IsGridValue j y) (h : (i + j).natAbs < 2 ^ 24) :
    IsGridValue (i + j) (fadd x y) := by
  obtain ⟨hxf, hxv⟩ := hx
  obtain ⟨hyf, hyv⟩ := hy
  obtain ⟨r, hr, hrv⟩ := representable_value (i + j) 129 h (by norm_num)
  obtain ⟨hf, hv⟩ := fadd_exact hxf hyf hr (by omega)
  exact ⟨hf, by omega⟩

theorem IsGridValue.sub (hx : IsGridValue i x) (hy : IsGridValue j y) (h : (i - j).natAbs < 2 ^ 24) :
    IsGridValue (i - j) (fsub x y) := by
  obtain ⟨hyf, hyv⟩ := hy
  have hneg : IsGridValue (-j) (fneg y) := ⟨(isFinite_fneg y).trans hyf, by rw [value_fneg, hyv, neg_mul]⟩
  exact hx.add hneg h

theorem IsGridValue.double (hx : IsGridValue j x) (h : (2 * j).natAbs < 2 ^ 24) : IsGridValue (2 * j) (fmul two x) := by
  obtain ⟨hxf, hxv⟩ := hx
  obtain ⟨r, hr, hrv⟩ := representable_value (2 * j) 129 h (by norm_num)
  obtain ⟨hf, hv⟩ := fmul_exact (x := two) (by decide) hxf hr (by rw [value_two]; omega)
  exact ⟨hf, hv.trans hrv⟩

end IsGridValue

theorem isGridValue_half : IsGridValue (2 ^ 19) half := ⟨by decide, by decide⟩
theorem isGridValue_oneAndHalf : IsGridValue (3 * 2 ^ 19) oneAndHalf := ⟨by decide, by decide⟩

theorem triRisingAt_of_grid {j : ℤ} {p : F32} (hp : IsGridValue j p) :
    triRisingAt p = decide (j < 2 ^ 18 ∨ 3 * 2 ^ 18 ≤ j) := by
  obtain ⟨hf, hv⟩ := hp
  rw [Bool.eq_iff_iff, decide_eq_true_eq, triRisingAt, fge, Bool.or_eq_true, flt_iff hf (by decide), fle_iff (by decide) hf, hv,
    show value quarter = 2 ^ 147 by decide, show value threeQuarters = 3 * 2 ^ 147 by decide]
  omega

theorem halfHighAt_of_grid {j : ℤ} {p : F32} (hp : IsGridValue j p) : halfHighAt p = decide (2 ^ 19 ≤ j) := by
  obtain ⟨hf, hv⟩ := hp
  rw [Bool.eq_iff_iff, decide_eq_true_eq, halfHighAt, fge, fle_iff (by decide) hf, hv, value_half]
  omega

/-- The raw triangle at the phase j * 2^-20, in units of 2^-20: it rises to 1 at 0.25, falls to 0 at 0.75 and rises again
(42_waveform_generator.md R104). -/
def rawTriangleGrid (j : ℤ) : ℤ :=
  if j < 2 ^ 18 then 2 * j + 2 ^ 19 else if j < 3 * 2 ^ 18 then 3 * 2 ^ 19 - 2 * j else 2 * j - 3 * 2 ^ 19

/-- At a multiple of 2^-20 in [0, 1), with flags that agree with the phase, no operation of RAW_TRI rounds. -/
theorem isGridValue_rawTriangle {j : ℤ} {p : F32} (hp : IsGridValue j p) (h0 : 0 ≤ j) (h1 : j < 2 ^ 20) :
    IsGridValue (rawTriangleGrid j) (rawTriangle p (triRisingAt p) (halfHighAt p)) := by
  have h2p : IsGridValue (2 * j) (fmul two p) := hp.double (by omega)
  rw [triRisingAt_of_grid hp, halfHighAt_of_grid hp, rawTriangleGrid]
  by_cases hlow : j < 2 ^ 18
  · rw [if_pos hlow, decide_eq_true (.inl hlow), decide_eq_false (by omega)]
    exact h2p.add isGridValue_half (by omega)
  rw [if_neg hlow]
  by_cases hfall : j < 3 * 2 ^ 18
  · rw [if_pos hfall, decide_eq_false (by omega)]
    exact isGridValue_oneAndHalf.sub h2p (by omega)
  · rw [if_neg hfall, decide_eq_true (.inr (by omega)), decide_eq_true (by omega)]
    exact h2p.sub isGridValue_oneAndHalf (by omega)

/-- Half a cycle later the triangle stands as far below 1/2 as it stood above. -/
theorem rawTriangleGrid_half_cycle {k : ℤ} (h0 : 0 ≤ k) (h1 : k < 2 ^ 19) :
    rawTriangleGrid k + rawTriangleGrid (k + 2 ^ 19) = 2 ^ 20 := by
  unfold rawTriangleGrid
  split_ifs <;> omega

/-- Settles O52: both phases are multiples of 2^-20, where the raw triangle is exact. -/
theorem triangleHalfCycleSymmetry : Obligations.TriangleHalfCycleSymmetry := by
  intro p p' k hk hp hp' hv hv'
  obtain ⟨-, hraw⟩ := isGridValue_rawTriangle (j := k) ⟨hp, hv⟩ (by omega) (by omega)
  obtain ⟨-, hraw'⟩ := isGridValue_rawTriangle (j := k + 2 ^ 19) (p := p') ⟨hp', by omega⟩ (by omega) (by omega)
  have hsum := rawTriangleGrid_half_cycle (k := k) (by omega) (by omega)
  rw [hraw, hraw', ← add_mul, hsum]
  norm_num

/-! ### What the exact value says of a pattern -/

theorem isZero_iff_value (x : F32) : isZero x = true ↔ value x = 0 := by
  rw [← value_posZero, value_inj_iff, isZero_iff, show orderKey posZero = 0 by decide, orderKey]
  split <;> omega

theorem isFinite_of_value_eq {x y : F32} (h : value x = value y) (hy : isFinite y = true) : isFinite x = true := by
  rw [isFinite_iff] at hy ⊢
  rw [value_inj_iff, orderKey, orderKey] at h
  split at h <;> split at h <;> omega

theorem within_of_value_eq {lo x y hi : F32} (hl : isFinite lo = true) (hh : isFinite hi = true) (h : value x = value y)
    (hy : within lo y hi = true) : within lo x hi = true := by
  rw [within_iff hl hh] at hy ⊢
  exact ⟨isFinite_of_value_eq h hy.1, by rw [h]; exact hy.2⟩

theorem signBit_of_value_ne_zero {x : F32} (h : value x ≠ 0) : signBit x = decide (value x < 0) := by
  rw [value] at h ⊢
  cases signBit x with
  | false => exact (decide_eq_false (by simp)).symm
  | true => exact (decide_eq_true (by simp at h ⊢; omega)).symm

/-- Only the two zeros share an exact value. -/
theorem eq_of_value_eq_of_ne_zero {x y : F32} (h : value x = value y) (h0 : value y ≠ 0) : x = y :=
  eq_of_value_eq h (by rw [signBit_of_value_ne_zero h0, signBit_of_value_ne_zero (h.trans_ne h0), h])

theorem value_eq_of_feq {x y : F32} (h : feq x y = true) : value x = value y := by
  simp only [feq, Bool.and_eq_true, decide_eq_true_eq] at h
  exact (value_inj_iff x y).2 h.2

theorem within_fneg_one {x : F32} (h : within (fneg one) x one = true) : within (fneg one) (fneg x) one = true := by
  rw [within_iff (by decide) (by decide), value_fneg] at h ⊢
  rw [isFinite_fneg, value_fneg]
  exact ⟨h.1, by omega, by omega⟩

/-! ### The phase half a cycle earlier -/

/-- A contained phase is in the first or in the second half of the cycle. -/
theorem phaseContained_halves {p : F32} (h : phaseContained p = true) :
    withinBelow posZero p half = true ∨ withinBelow half p one = true := by
  obtain ⟨hf, h0, h1⟩ := (phaseContained_iff p).1 h
  rw [withinBelow_iff (by decide) (by decide), withinBelow_iff (by decide) (by decide), value_posZero, value_half, value_one]
  rcases lt_or_ge (value p) (2 ^ 148) with hlt | hge
  · exact .inl ⟨hf, h0, hlt⟩
  · exact .inr ⟨hf, hge, h1⟩

theorem phaseContained_of_firstHalf {p : F32} (h : withinBelow posZero p half = true) : phaseContained p = true := by
  rw [withinBelow_iff (by decide) (by decide), value_posZero, value_half] at h
  exact (phaseContained_iff p).2 ⟨h.1, h.2.1, by omega⟩

theorem not_firstHalf_of_secondHalf {p : F32} (h : withinBelow half p one = true) : ¬ withinBelow posZero p half = true := by
  rw [withinBelow_iff (by decide) (by decide)] at h ⊢
  omega

/-- A phase in [0.5, 1) has its top significand bit at 0.5, so taking 0.5 from it is exact. -/
theorem value_fsub_half {p : F32} (h : withinBelow half p one = true) :
    isFinite (fsub p half) = true ∧ value (fsub p half) = value p - value half := by
  obtain ⟨hf, hlo, hhi⟩ := (withinBelow_iff (by decide) (by decide)).1 h
  have hs : signBit p = false := signBit_of_value_pos (by rw [value_half] at hlo; omega)
  have hkey : orderKey p = magBits p := by rw [orderKey, hs]; rfl
  have hval : value p = magOfBits (magBits p) := by rw [value_eq, hs]; rfl
  rw [value_le_iff, hkey, show orderKey half = 0x3F000000 by decide] at hlo
  rw [value_lt_iff, hkey, show orderKey one = 0x3F800000 by decide] at hhi
  obtain ⟨f, hbits, hf1, hf2⟩ : ∃ f, magBits p = 125 * 2 ^ 23 + f ∧ 2 ^ 23 ≤ f ∧ f < 2 ^ 24 :=
    ⟨magBits p - 125 * 2 ^ 23, by omega, by omega, by omega⟩
  rw [hbits, magOfBits_binade 125 f hf1 hf2] at hval
  obtain ⟨r, hr, hrv⟩ := representable_value (f - 2 ^ 23) 125 (by omega) (by norm_num)
  have hexact := fadd_exact (y := fneg half) hf (by decide) hr (by rw [value_fneg, value_half]; push_cast at hval; omega)
  rwa [value_fneg, ← sub_eq_add_neg] at hexact

theorem firstHalf_fsub_half {p : F32} (h : withinBelow half p one = true) : withinBelow posZero (fsub p half) half = true := by
  obtain ⟨hf, hv⟩ := value_fsub_half h
  rw [withinBelow_iff (by decide) (by decide), value_half, value_one] at h
  rw [withinBelow_iff (by decide) (by decide), hv, value_posZero, value_half]
  exact ⟨hf, by omega, by omega⟩

/-! ### The sine held to R108's properties -/

section Sine

variable {f : F32 → F32} {p q : F32}

theorem sineFirstHalf_of_isZero (h : isZero p = true) : sineFirstHalf f p = if isZero (f p) then f p else posZero := by
  rw [sineFirstHalf, feq_posZero, if_pos h]

theorem sineFirstHalf_quarter (f : F32 → F32) : sineFirstHalf f quarter = one := by
  rw [sineFirstHalf, if_neg (by decide), if_pos (by decide)]

theorem value_sineFirstHalf_of_isZero (h : isZero p = true) : value (sineFirstHalf f p) = 0 := by
  rw [sineFirstHalf_of_isZero h]
  split
  case isTrue h0 => exact value_of_isZero h0
  case isFalse => exact value_posZero

/-- Property 1 of R108 on the first half of the cycle. -/
theorem within_sineFirstHalf (f : F32 → F32) (p : F32) : within (fneg one) (sineFirstHalf f p) one = true := by
  have hzero : within (fneg one) posZero one = true := by decide
  unfold sineFirstHalf
  split
  · split
    case isTrue h0 => exact within_of_value_eq (by decide) (by decide) ((value_of_isZero h0).trans value_posZero.symm) hzero
    case isFalse => exact hzero
  · split
    · decide
    · split
      case isTrue hw => exact hw
      case isFalse => exact hzero

/-- The sine of the first half depends on the exact phase alone. -/
theorem value_sineFirstHalf_congr (h : value p = value q) : value (sineFirstHalf f p) = value (sineFirstHalf f q) := by
  by_cases h0 : value q = 0
  · rw [value_sineFirstHalf_of_isZero ((isZero_iff_value p).2 (h.trans h0)),
      value_sineFirstHalf_of_isZero ((isZero_iff_value q).2 h0)]
  · rw [eq_of_value_eq_of_ne_zero h h0]

theorem conformSine_firstHalf (h : withinBelow posZero p half = true) : conformSine f p = sineFirstHalf f p := by
  rw [conformSine, if_pos h]

theorem conformSine_secondHalf (h : withinBelow half p one = true) :
    conformSine f p =
      if feq (f p) (fneg (sineFirstHalf f (fsub p half))) then f p else fneg (sineFirstHalf f (fsub p half)) := by
  rw [conformSine, if_neg (not_firstHalf_of_secondHalf h), if_pos h]

theorem value_conformSine_secondHalf (h : withinBelow half p one = true) :
    value (conformSine f p) = value (fneg (sineFirstHalf f (fsub p half))) := by
  rw [conformSine_secondHalf h]
  split
  case isTrue heq => exact value_eq_of_feq heq
  case isFalse => rfl

/-- Property 1 of R108. -/
theorem within_conformSine (f : F32 → F32) (h : phaseContained p = true) : within (fneg one) (conformSine f p) one = true := by
  rcases phaseContained_halves h with h | h
  · rw [conformSine_firstHalf h]
    exact within_sineFirstHalf f p
  · exact within_of_value_eq (by decide) (by decide) (value_conformSine_secondHalf h) (within_fneg_one (within_sineFirstHalf f _))

/-- Property 2 of R108. -/
theorem value_conformSine_half_cycle (f : F32 → F32) (hp : withinBelow posZero p half = true) (hq : isFinite q = true)
    (h : value q = value p + value half) : value (conformSine f q) = -value (conformSine f p) := by
  have hq' : withinBelow half q one = true := by
    rw [withinBelow_iff (by decide) (by decide), value_posZero, value_half] at hp
    rw [withinBelow_iff (by decide) (by decide), h, value_half, value_one]
    exact ⟨hq, by omega, by omega⟩
  have hback : value (fsub q half) = value p := by rw [(value_fsub_half hq').2, h, add_sub_cancel_right]
  rw [value_conformSine_secondHalf hq', conformSine_firstHalf hp, value_fneg, value_sineFirstHalf_congr hback]

/-- Property 3 of R108, at the zeros. -/
theorem value_conformSine_of_isZero (f : F32 → F32) (h : isZero p = true) : value (conformSine f p) = 0 := by
  have hp : withinBelow posZero p half = true := by
    rw [withinBelow_iff (by decide) (by decide), value_of_isZero h]
    exact ⟨isFinite_of_isZero h, by decide, by decide⟩
  rw [conformSine_firstHalf hp, value_sineFirstHalf_of_isZero h]

theorem conformSine_quarter (f : F32 → F32) : conformSine f quarter = one := by
  rw [conformSine_firstHalf (by decide), sineFirstHalf_quarter]

theorem conformSine_threeQuarters (f : F32 → F32) : conformSine f threeQuarters = fneg one := by
  have h : value (conformSine f threeQuarters) = value (fneg one) := by
    rw [value_conformSine_half_cycle (p := quarter) f (by decide) (by decide) (by decide), conformSine_quarter, value_fneg]
  exact eq_of_value_eq_of_ne_zero h (by decide)

/-- A first half with the values of property 3 and within property 1 is left as it is. -/
theorem sineFirstHalf_eq_self (hw : within (fneg one) (f p) one = true) (h0 : isZero p = true → value (f p) = 0)
    (hq : value (f quarter) = value one) : sineFirstHalf f p = f p := by
  rw [sineFirstHalf, if_pos hw]
  split
  case isTrue hz =>
    rw [feq_posZero] at hz
    rw [if_pos ((isZero_iff_value _).2 (h0 hz))]
  case isFalse =>
    split
    case isTrue hp =>
      rw [eq_of_value_eq_of_ne_zero (value_eq_of_feq hp) (by decide)]
      exact (eq_of_value_eq_of_ne_zero hq (by decide)).symm
    case isFalse => rfl

end Sine

/-- Settles O53, property by property. -/
theorem sineHasItsThreeProperties : Obligations.SineHasItsThreeProperties := fun P =>
  ⟨fun _ => within_conformSine P.sine, fun _ _ => value_conformSine_half_cycle P.sine,
    fun _ => value_conformSine_of_isZero P.sine, conformSine_quarter P.sine, conformSine_threeQuarters P.sine⟩

/-- Settles O54: the first half needs no correction, and then the second half is minus it already. -/
theorem lawfulSineIsUnchanged : Obligations.LawfulSineIsUnchanged := by
  intro f hbound hmirror hzero hquarter p hp
  have hfirst : ∀ q, withinBelow posZero q half = true → sineFirstHalf f q = f q := fun q hq =>
    sineFirstHalf_eq_self (hbound q (phaseContained_of_firstHalf hq)) (hzero q) hquarter
  rcases phaseContained_halves hp with h | h
  · rw [conformSine_firstHalf h, hfirst p h]
  · have hback := firstHalf_fsub_half h
    have hv := (value_fsub_half h).2
    have hf := ((phaseContained_iff p).1 hp).1
    have hpf := ((within_iff (by decide) (by decide)).1 (hbound p hp)).1
    have hminus : value (f p) = value (fneg (f (fsub p half))) := by
      rw [value_fneg]; exact hmirror _ p hback hf (by omega)
    rw [conformSine_secondHalf h, hfirst _ hback, if_pos ((feq_iff hpf (isFinite_of_value_eq hminus.symm hpf)).2 hminus)]

/-! ### The range of the outputs -/

/-- The saw and triangle scaling clamps every bounded slot to 5 volts (42_waveform_generator.md R105, R107). -/
theorem within_scaleUnipolar {a b : ℤ} {v : F32} (h : InEighths a b v) (ha : -2 ^ 9 ≤ a) (hb : b ≤ 2 ^ 9) :
    within (fneg five) (scaleUnipolar v) five = true := by
  have hhalf : InEighths 4 4 half := ⟨by decide, by decide, by decide⟩
  have hcentred : isFinite (fsub v half) = true := (h.sub hhalf (by omega) (by omega)).1
  exact within_fclamp_of_not_isNaN (isNaN_fmul (by decide) hcentred) (by decide) (by decide) (by decide)

theorem within_sineOutput (P : Params) {p : F32} (h : phaseContained p = true) :
    within (fneg five) (sineOutput P p) five = true := by
  obtain ⟨hf, hlo, hhi⟩ := (within_iff (by decide) (by decide)).1 (within_conformSine P.sine h)
  rw [value_fneg, value_one] at hlo
  rw [value_one] at hhi
  have hfive : value five = 5 * 2 ^ 149 := by decide
  rw [sineOutput, sineApprox]
  refine within_fmul (by decide) hf (by decide) (by decide) ?_ ?_
  · rw [value_fneg, hfive]; omega
  · rw [hfive]; omega

/-- Settles O55: the TICK keeps slot 0 bounded and the phase contained, and the outputs are read from these. -/
theorem outputsStayWithinFiveVolts : Obligations.OutputsStayWithinFiveVolts := by
  intro conn inc pw rst s h1 h2 h3 h
  obtain ⟨hp, -, hb⟩ := (numbersBounded_iff _).1 (numbersBounded_tick Config.params (rst := rst) h1 h2 h)
  refine ⟨_, exec_tick_finite conn s h1 h2 h3, ?_⟩
  rw [tick_out]
  exact ⟨within_scaleUnipolar hb.saw.s0 (by decide) (by decide), within_scaleUnipolar hb.tri.s0 (by decide) (by decide),
    within_sineOutput _ hp⟩

end Sys2Proof.Machine
end

section
/-! SUPPORT. The delay line (43_delay_line.md): a sample shifted without correction, the order that binary32 rounding keeps, and
the pulse widths that silence the square output. -/

namespace Sys2Proof.Machine

/-! ### A shift without correction -/

theorem runTick_of_isFinite (P : Params) {inc pw rst : F32} (s : State) (h1 : isFinite inc = true) (h2 : isFinite pw = true)
    (h3 : isFinite rst = true) : runTick P inc pw rst s = tick P (tickOperands inc pw rst) s := by
  rw [runTick, (operandFault_none_iff inc pw rst).2 ⟨h1, h2, h3⟩]

theorem injectLine_of_inactive (P : Params) (w : Wave) {r : Pending} (h : r.active = false) (l : Line) :
    injectLine P w r l = l := by
  rw [injectLine, h, if_neg Bool.false_ne_true]

/-- A TICK on finite words with no correction pending moves slots 1 to 3 down bit for bit (R113, R117). -/
theorem runTick_slots_of_inactive (P : Params) {inc pw rst : F32} {s : State} {w : Wave} (h1 : isFinite inc = true)
    (h2 : isFinite pw = true) (h3 : isFinite rst = true) (hr : (recordOf w s.pend).active = false) :
    (lineOf (waveBuf w) (runTick P inc pw rst s)).s0 = (lineOf (waveBuf w) s).s1 ∧
    (lineOf (waveBuf w) (runTick P inc pw rst s)).s1 = (lineOf (waveBuf w) s).s2 ∧
    (lineOf (waveBuf w) (runTick P inc pw rst s)).s2 = (lineOf (waveBuf w) s).s3 := by
  rw [runTick_of_isFinite P s h1 h2 h3, tick_line, injectLine_of_inactive P w hr]
  exact ⟨rfl, rfl, rfl⟩

/-- Settles O27: each of the three TICKs moves the sample one slot down. -/
theorem slotThreeIsEmittedThreeTicksLater : Obligations.SlotThreeIsEmittedThreeTicksLater := by
  intro P i1 p1 r1 i2 p2 r2 i3 p3 r3 s w hi1 hp1 hr1 hi2 hp2 hr2 hi3 hp3 hr3 t u hs ht hu
  obtain ⟨-, -, htwo⟩ := runTick_slots_of_inactive P hi1 hp1 hr1 hs
  obtain ⟨-, hone, -⟩ := runTick_slots_of_inactive P hi2 hp2 hr2 ht
  obtain ⟨hzero, -, -⟩ := runTick_slots_of_inactive P hi3 hp3 hr3 hu
  exact hzero.trans (hone.trans htwo)

/-! ### Rounding keeps order

`within_fadd` and `within_fmul` compare a rounded result with representable values only; here two rounded results are
compared. -/

theorem roundQuot_mono {n n' d : Nat} (h : n ≤ n') : roundQuot n d ≤ roundQuot n' d := by
  obtain hlt | heq : n / d < n' / d ∨ n / d = n' / d := (Nat.div_le_div_right h).lt_or_eq
  · have := roundQuot_eq_or n d
    have := roundQuot_eq_or n' d
    omega
  · have hr : n % d ≤ n' % d := by
      have hn := Nat.div_add_mod n d
      have hn' := Nat.div_add_mod n' d
      rw [heq] at hn
      omega
    simp only [roundQuot, heq]
    split_ifs <;> omega

/-- In one binade both quotients are rounded at one place; between two binades lies a power of two, which is representable. -/
theorem roundFree_mono {n n' d : Nat} (hd : 0 < d) (h : n ≤ n') : roundFree n d ≤ roundFree n' d := by
  have hlog : Nat.log2 (n / d) - 23 ≤ Nat.log2 (n' / d) - 23 := by
    rw [Nat.log2_eq_log_two, Nat.log2_eq_log_two]
    exact Nat.sub_le_sub_right (Nat.log_mono_right (Nat.div_le_div_right h)) 23
  obtain heq | hlt := hlog.eq_or_lt
  · simp only [roundFree, heq]
    exact Nat.add_le_add_left (roundQuot_mono h) _
  · set k := Nat.log2 (n / d) - 23
    have hpow : magOfBits ((k + 1) * 2 ^ 23 + 2 ^ 23) = 2 ^ (24 + k) := by
      rw [magOfBits_binade (k + 1) (2 ^ 23) le_rfl (by norm_num), ← pow_add]
      congr 1; omega
    have hbelow : n / d < 2 ^ (24 + k) := by
      obtain ⟨-, hq⟩ | ⟨-, -, hq⟩ := round_shape (n / d)
      · exact hq.trans_le (Nat.pow_le_pow_right (by norm_num) (Nat.le_add_right ..))
      · exact hq
    have habove : 2 ^ (24 + k) ≤ n' / d := by
      obtain ⟨hk, -⟩ | ⟨-, hq, -⟩ := round_shape (n' / d)
      · omega
      · exact (Nat.pow_le_pow_right (by norm_num) (by omega)).trans hq
    rw [← hpow] at hbelow habove
    exact ((roundFree_bounds hd _).2 ((Nat.div_lt_iff_lt_mul hd).1 hbelow).le).trans
      ((roundFree_bounds hd _).1 ((Nat.le_div_iff_mul_le hd).1 habove))

theorem roundMag_mono {n n' d : Nat} (hd : 0 < d) (h : n ≤ n') : roundMag n d ≤ roundMag n' d := by
  rw [roundMag_eq, roundMag_eq]
  exact min_le_min_right _ (roundFree_mono hd h)

theorem roundMag_zero {d : Nat} (hd : 0 < d) : roundMag 0 d = 0 :=
  Nat.le_zero.1 (roundMag_le hd (Nat.zero_le _))

/-- Of two exact results over one denominator the smaller rounds to the smaller value. -/
theorem value_pack_roundMag_mono {s s' : Bool} {n n' d : Nat} (hd : 0 < d) (h : signedNat s n ≤ signedNat s' n') :
    value (pack s (roundMag n d)) ≤ value (pack s' (roundMag n' d)) := by
  rw [value_le_iff, orderKey_pack (roundMag_le_inf n d), orderKey_pack (roundMag_le_inf n' d)]
  cases s <;> cases s' <;> simp only [signedNat, if_true, Bool.false_eq_true, if_false] at h ⊢
  case false.false =>
    have := roundMag_mono (n := n) (n' := n') hd (by omega)
    omega
  case false.true =>
    obtain ⟨rfl, rfl⟩ : n = 0 ∧ n' = 0 := by omega
    rw [roundMag_zero hd]
    omega
  case true.false => omega
  case true.true =>
    have := roundMag_mono (n := n') (n' := n) hd (by omega)
    omega

section Operations

variable {x y x' y' : F32} (hx : isFinite x = true) (hy : isFinite y = true) (hx' : isFinite x' = true) (hy' : isFinite y' = true)
include hx hy hx' hy'

theorem value_fadd_mono (h : value x + value y ≤ value x' + value y') : value (fadd x y) ≤ value (fadd x' y') := by
  obtain ⟨s, n, he, hv⟩ := fadd_round hx hy
  obtain ⟨s', n', he', hv'⟩ := fadd_round hx' hy'
  rw [he, he']
  exact value_pack_roundMag_mono one_pos (by rwa [hv, hv'])

theorem value_fmul_mono (h : value x * value y ≤ value x' * value y') : value (fmul x y) ≤ value (fmul x' y') := by
  obtain ⟨s, n, he, hv⟩ := fmul_round hx hy
  obtain ⟨s', n', he', hv'⟩ := fmul_round hx' hy'
  rw [he, he']
  exact value_pack_roundMag_mono (by positivity) (by rwa [hv, hv'])

end Operations

/-! ### The silent widths -/

theorem isFinite_of_widthConditioned {pwc : F32} (h : widthConditioned pwc = true) : isFinite pwc = true :=
  ((within_iff (by decide) (by decide)).1 h).1

theorem isFinite_double_of_widthConditioned {pwc : F32} (h : widthConditioned pwc = true) : isFinite (fmul two pwc) = true := by
  have hp : InEighths 0 8 pwc := (within_iff_inEighths (by decide)).1 h
  exact (hp.double (by decide) (by decide)).1

/-- The width w grows with the conditioned pulse width. -/
theorem value_bipolarWidth_mono {p q : F32} (hp : widthConditioned p = true) (hq : widthConditioned q = true)
    (h : value p ≤ value q) : value (bipolarWidth p) ≤ value (bipolarWidth q) := by
  have hdouble : value (fmul two p) ≤ value (fmul two q) :=
    value_fmul_mono (by decide) (isFinite_of_widthConditioned hp) (by decide) (isFinite_of_widthConditioned hq)
      (by rw [value_two]; omega)
  exact value_fadd_mono (isFinite_double_of_widthConditioned hp) (by decide) (isFinite_double_of_widthConditioned hq) (by decide)
    (by omega)

/-- A width is at or below the lower of two neighbours, or at or above the upper one, and so is its w. -/
theorem bipolarWidth_beside_neighbours {a b pwc : F32} (ha : widthConditioned a = true) (hb : widthConditioned b = true)
    (hnext : orderKey b = orderKey a + 1) (h : widthConditioned pwc = true) :
    (value pwc ≤ value a ∧ value (bipolarWidth pwc) ≤ value (bipolarWidth a)) ∨
    (value b ≤ value pwc ∧ value (bipolarWidth b) ≤ value (bipolarWidth pwc)) := by
  by_cases hle : value pwc ≤ value a
  · exact .inl ⟨hle, value_bipolarWidth_mono h ha hle⟩
  · have hge : value b ≤ value pwc := by
      rw [value_le_iff] at hle ⊢
      omega
    exact .inr ⟨hge, value_bipolarWidth_mono hb h hge⟩

/-- w is exact at the upper silence limit, and one place below that limit it is below it. -/
theorem silenceLimit_le_bipolarWidth_iff {pwc : F32} (h : widthConditioned pwc = true) :
    value silenceLimit ≤ value (bipolarWidth pwc) ↔ value 0x3F7EB852#32 ≤ value pwc := by
  have hlimit : value (bipolarWidth 0x3F7EB852#32) = value silenceLimit := by decide
  have hbelow : value (bipolarWidth 0x3F7EB851#32) < value silenceLimit := by decide
  have hnext : value 0x3F7EB851#32 < value 0x3F7EB852#32 := by decide
  rcases bipolarWidth_beside_neighbours (a := 0x3F7EB851#32) (b := 0x3F7EB852#32) (by decide) (by decide) (by decide) h with
    hlow | hhigh <;> omega

/-- At the lower silence limit w is half-way between two values and rounds to the even one, minus the limit; one place above
it w is above minus the limit. -/
theorem bipolarWidth_le_neg_silenceLimit_iff {pwc : F32} (h : widthConditioned pwc = true) :
    value (bipolarWidth pwc) ≤ value (fneg silenceLimit) ↔ value pwc ≤ value 0x3BA3D720#32 := by
  have hlimit : value (bipolarWidth 0x3BA3D720#32) = value (fneg silenceLimit) := by decide
  have habove : value (fneg silenceLimit) < value (bipolarWidth 0x3BA3D721#32) := by decide
  have hnext : value 0x3BA3D720#32 < value 0x3BA3D721#32 := by decide
  rcases bipolarWidth_beside_neighbours (a := 0x3BA3D720#32) (b := 0x3BA3D721#32) (by decide) (by decide) (by decide) h with
    hlow | hhigh <;> omega

/-- Settles O51: w grows with pwc, so each limit on w is the limit on pwc where w first passes it. -/
theorem silentExactlyAtTheWidthLimits : Obligations.SilentExactlyAtTheWidthLimits := by
  intro pwc h
  have hw := within_bipolarWidth h
  have hf := isFinite_of_widthConditioned h
  have hwf : isFinite (bipolarWidth pwc) = true := ((within_iff (by decide) (by decide)).1 hw).1
  refine ⟨hw, ?_⟩
  rw [Bool.eq_iff_iff, silentWidth, fge, fge, Bool.or_eq_true, Bool.or_eq_true, fle_iff (by decide) hwf, fle_iff hwf (by decide),
    fle_iff (by decide) hf, fle_iff hf (by decide), silenceLimit_le_bipolarWidth_iff h, bipolarWidth_le_neg_silenceLimit_iff h]

end Sys2Proof.Machine
end

section
/-! SUPPORT. The sample step and the reset (44_sample_step_and_reset.md): what one frame does, the reserved commands and NOP, the
TICK that takes RESET, the reset trigger, and that the CONN bits change nothing. -/

namespace Sys2Proof.Machine

/-! ### What one frame does -/

/-- What a frame does to an unmarked state that has taken it: its instruction runs, or it is rejected. -/
def runFrame (f : Frame) (s : State) : Host.Outcome State Fault Refusal :=
  match decodeFrame f with
  | .ok i => exec i s
  | .error e => rejectFrame e s

theorem step_eq_runFrame {s : State} {f : Frame} {rest : List Frame} (h : halted s = none) (hin : s.input = f :: rest) :
    step s = runFrame f { s with input := rest } := by
  simp only [step, h, hin]
  rfl

/-- A command frame by CMD and the reserved field of its CTRL word alone: it is refused (R122), or a NOP (R121), or a TICK. -/
theorem runFrame_command (ctrl inc pw rst : Word) (s : State) :
    runFrame (.command ctrl inc pw rst) s =
      if ctrlCmd ctrl = 2#2 ∨ ctrlCmd ctrl = 3#2 ∨ ctrlReserved ctrl ≠ 0#26 then .next (refuse s)
      else if ctrlCmd ctrl = 0#2 then .next s
      else .next (runTick Config.params inc pw rst s) := by
  unfold runFrame decodeFrame decodeCommand
  by_cases h2 : ctrlCmd ctrl = 2#2
  · simp only [h2, true_or, if_true]; rfl
  by_cases h3 : ctrlCmd ctrl = 3#2
  · simp only [h3, true_or, or_true, if_true]; rfl
  by_cases hres : ctrlReserved ctrl = 0#26
  · by_cases h0 : ctrlCmd ctrl = 0#2
    · simp [hres, h0, exec, execNop]
    · simp [h2, h3, hres, h0, exec, execTick]
  · simp [h2, h3, hres, rejectFrame]

/-- Clearing the CONN bits keeps CMD (30_encoding.md R52). -/
theorem ctrlCmd_and_connMask (ctrl : Word) : ctrlCmd (ctrl &&& 0xFFFFFFC3#32) = ctrlCmd ctrl := by
  rw [ctrlCmd, BitVec.extractLsb'_and]
  exact BitVec.and_allOnes

/-- Clearing the CONN bits keeps the reserved field (R52). -/
theorem ctrlReserved_and_connMask (ctrl : Word) : ctrlReserved (ctrl &&& 0xFFFFFFC3#32) = ctrlReserved ctrl := by
  rw [ctrlReserved, BitVec.extractLsb'_and]
  exact BitVec.and_allOnes

/-! ### The reserved commands and NOP -/

/-- Settles O4: CMD 2, CMD 3 and a nonzero reserved field are the words `runFrame_command` refuses, and a refused state is
halted. -/
theorem reservedCtrlWordIsRefused : Obligations.ReservedCtrlWordIsRefused := by
  intro s ctrl inc pw rst rest hf hr hin hword
  have hreserved : ctrlCmd ctrl = 2#2 ∨ ctrlCmd ctrl = 3#2 ∨ ctrlReserved ctrl ≠ 0#26 := by
    rw [ctrlCmd_eq_iff, ctrlCmd_eq_iff, ne_eq, ctrlReserved_eq_zero_iff]
    exact hword
  constructor
  · rw [step_eq_runFrame (halted_of_unmarked hf hr) hin, runFrame_command, if_pos hreserved]
    rfl
  · simp only [step, halted, hf, if_true]

/-- Settles O5: either command is `refuse`. -/
theorem reservedCommandsSetTheRefusedMark : Obligations.ReservedCommandsSetTheRefusedMark := fun _ _ => ⟨rfl, rfl⟩

/-- Settles O11: a word that is 0 outside its CONN bits has CMD 0 and a reserved field 0, which `runFrame_command` reads as a
NOP. -/
theorem nopChangesNothing : Obligations.NopChangesNothing := by
  refine ⟨fun _ _ => rfl, fun s ctrl inc pw rst rest hf hr hin hmask => ?_⟩
  have hcmd : ctrlCmd ctrl = 0#2 := by rw [← ctrlCmd_and_connMask, hmask]; rfl
  have hres : ctrlReserved ctrl = 0#26 := by rw [← ctrlReserved_and_connMask, hmask]; rfl
  rw [step_eq_runFrame (halted_of_unmarked hf hr) hin, runFrame_command, hcmd, hres, if_neg (by decide), if_pos rfl]

/-! ### The TICK that takes RESET -/

/-- A TICK with a reset armed leaves the values of R123 and schedules no correction. -/
theorem tick_of_armed (P : Params) (op : TickOperands) {s : State} (h : s.resetArmed = true) :
    (tick P op s).prevPhase = s.phase ∧ (tick P op s).phase = posZero ∧ (tick P op s).squareHigh = true ∧
    (tick P op s).triRising = true ∧ (tick P op s).halfHigh = false ∧ (tick P op s).subParity = false ∧
    (tick P op s).ev = evReset ∧ (tick P op s).pend = .inactive := by
  rw [tick_eq P op s _ (transition_resets (s := beginTick s) op h)]
  exact ⟨rfl, rfl, rfl, rfl, rfl, rfl, BitVec.zero_or, rfl⟩

theorem recordOf_inactive (w : Wave) : recordOf w .inactive = .inactive := by cases w <;> rfl

/-- Settles O18, by what an armed TICK leaves. -/
theorem armedTickTakesReset : Obligations.ArmedTickTakesReset := by
  intro conn inc pw rst s h1 h2 h3 harmed
  obtain ⟨hprev, hphase, hsquare, hrising, hhalf, hparity, hev, hpend⟩ :=
    tick_of_armed Config.params (tickOperands inc pw rst) harmed
  refine ⟨_, exec_tick_finite conn s h1 h2 h3, hprev, hphase, hsquare, hrising, hhalf, hparity, hev, fun w => ?_⟩
  rw [hpend]
  exact recordOf_inactive w

/-- Settles O26: what an armed TICK leaves does not depend on the state before it, except prevPhase, which is the phase of the
first RESET. -/
theorem resetIsIdempotent : Obligations.ResetIsIdempotent := by
  intro c1 c2 inc1 pw1 rst1 inc2 pw2 rst2 s h1 h2 h3 h4 h5 h6 harmed
  let t := tick Config.params (tickOperands inc1 pw1 rst1) s
  obtain ⟨-, hphase, hsquare, hrising, hhalf, hparity, -, hpend⟩ :=
    tick_of_armed Config.params (tickOperands inc1 pw1 rst1) harmed
  obtain ⟨hprev', hphase', hsquare', hrising', hhalf', hparity', -, hpend'⟩ :=
    tick_of_armed Config.params (tickOperands inc2 pw2 rst2) (s := { t with resetArmed := true }) rfl
  exact ⟨t, _, exec_tick_finite c1 s h1 h2 h3, exec_tick_finite c2 _ h4 h5 h6, hphase'.trans hphase.symm,
    hsquare'.trans hsquare.symm, hrising'.trans hrising.symm, hhalf'.trans hhalf.symm, hparity'.trans hparity.symm,
    hpend'.trans hpend.symm, hprev'.trans hphase⟩

/-! ### The reset trigger -/

section Trigger

variable (P : Params) (op : TickOperands) (s : State)

@[simp] theorem tick_trigHigh : (tick P op s).trigHigh = fge op.rst P.resetThreshold := by rw [tick_eq P op s _ rfl]

/-- Only a rising edge of the comparator level arms a reset (R124): the transition has cleared an earlier arming. -/
@[simp] theorem tick_resetArmed : (tick P op s).resetArmed = (fge op.rst P.resetThreshold && !s.trigHigh) := by
  obtain ⟨-, -, htrig, -, -, -, -, -, -, harmed⟩ := transition_frame op (beginTick s)
  rw [tick_eq P op s _ rfl]
  simp only [htrig, harmed, beginTick_trigHigh, Bool.if_true_left, Bool.or_false, Bool.decide_eq_true]

/-- The RESET bit says that a reset was armed. -/
theorem tick_ev_resetBit : (tick P op s).ev.getLsbD 7 = s.resetArmed := by
  obtain ⟨⟨hexcl, -⟩, hadv⟩ := tick_ev_exclusive P op s
  exact Bool.not_inj (hexcl.symm.trans hadv)

theorem armedOnlyHigh_tick : armedOnlyHigh (tick P op s) = true := by
  rw [armedOnlyHigh, tick_resetArmed, tick_trigHigh]
  cases fge op.rst P.resetThreshold <;> simp

end Trigger

theorem armedOnlyHigh_iff (s : State) : armedOnlyHigh s = true ↔ (s.resetArmed = true → s.trigHigh = true) := by
  cases h : s.resetArmed <;> simp [armedOnlyHigh, h]

/-- Settles O21: the level is that of RST, and the edge is against the level the TICK found. -/
theorem tickSamplesTheTrigger : Obligations.TickSamplesTheTrigger := fun conn _ _ _ s h1 h2 h3 =>
  ⟨_, exec_tick_finite conn s h1 h2 h3, tick_trigHigh .., tick_resetArmed ..⟩

/-- A completed TICK establishes the invariant of R129, and no other effect writes the trigger state. -/
theorem Effect.keeps_armedOnlyHigh {i : Instr} {s t : State} (h : Effect s i t) (hs : armedOnlyHigh s = true) :
    armedOnlyHigh t = true := by
  cases h with
  | idled | notTaken | refused2 | refused3 | faulted | wrappedUp | wrappedDn | wasReset => exact hs
  | ticked => exact armedOnlyHigh_tick ..
  | advanced => rwa [armedOnlyHigh, advance_resetArmed, advance_trigHigh]
  | edgeUp | edgeDn => rwa [pulseClassify_eq]
  | foldUp | foldDn => rwa [triClassify_eq]

/-- Settles O42, by the effect of the frame taken. -/
theorem armedOnlyWhileHighKept : Obligations.ArmedOnlyWhileHighKept := by
  intro s t hs h
  obtain rfl | ⟨f, rest, -, rfl | ⟨i, -, he⟩⟩ := step_next_cases h
  · exact hs
  · exact hs
  · exact he.keeps_armedOnlyHigh hs

/-- Settles O43: a TICK that takes RESET found a reset armed, so the kept level was high, and the TICK sees no rising edge. -/
theorem noConsecutiveResets : Obligations.NoConsecutiveResets := by
  intro c1 c2 inc1 pw1 rst1 inc2 pw2 rst2 s t u h1 h2 h3 h4 h5 h6 hs ht hu hreset
  rw [exec_tick_finite c1 s h1 h2 h3] at ht
  cases ht
  rw [exec_tick_finite c2 _ h4 h5 h6] at hu
  cases hu
  rw [tick_ev_resetBit] at hreset
  have hhigh : s.trigHigh = true := (armedOnlyHigh_iff s).1 hs hreset
  rw [tick_ev_resetBit, tick_resetArmed, hhigh, Bool.not_true, Bool.and_false]

/-! ### The frames not yet taken: nothing but `step` reads them -/

/-- The state with other frames presented. -/
def State.withInput (s : State) (frames : List Frame) : State := { s with input := frames }

/-- An outcome with its next state changed. -/
def mapNext (g : State → State) : Host.Outcome State Fault Refusal → Host.Outcome State Fault Refusal
  | .next s => .next (g s)
  | .fault r => .fault r
  | .refused r => .refused r

section WithInput

variable (s : State) (frames : List Frame)

theorem pulseClassify_withInput (p inc pwc : F32) :
    pulseClassify p inc pwc (s.withInput frames) = (pulseClassify p inc pwc s).withInput frames := by
  rw [pulseClassify_eq, pulseClassify_eq]; rfl

theorem triClassify_withInput (p inc : F32) :
    triClassify p inc (s.withInput frames) = (triClassify p inc s).withInput frames := by
  rw [triClassify_eq, triClassify_eq]; rfl

theorem advance_withInput (inc pwc : F32) : advance inc pwc (s.withInput frames) = (advance inc pwc s).withInput frames := by
  simp only [advance, pulseClassify_eq, triClassify_eq, wrapPhase_eq, noteEvent, halfClassify, State.withInput]

theorem transition_withInput (op : TickOperands) :
    transition op (s.withInput frames) = (transition op s).withInput frames := by
  cases h : s.resetArmed with
  | false => rw [transition_advances op h, transition_advances (s := s.withInput frames) op h, advance_withInput]
  | true => rw [transition_resets op h, transition_resets (s := s.withInput frames) op h]; rfl

theorem tick_withInput (P : Params) (op : TickOperands) :
    tick P op (s.withInput frames) = (tick P op s).withInput frames := by
  rw [tick_eq P op s _ rfl, tick_eq P op (s.withInput frames) _ (transition_withInput (beginTick s) frames op)]
  rfl

theorem runTick_withInput (P : Params) (inc pw rst : F32) :
    runTick P inc pw rst (s.withInput frames) = (runTick P inc pw rst s).withInput frames := by
  unfold runTick
  cases operandFault inc pw rst with
  | none => exact tick_withInput s frames P _
  | some info => rfl

/-- A transition that is taken on a condition reads no presented frame when the transition itself reads none. -/
theorem next_ite_withInput (b : Bool) {g : State → State} (hg : g (s.withInput frames) = (g s).withInput frames) :
    (.next (if b then g (s.withInput frames) else s.withInput frames) : Host.Outcome State Fault Refusal) =
      mapNext (·.withInput frames) (.next (if b then g s else s)) := by
  cases b with
  | false => rfl
  | true => exact congrArg Host.Outcome.next hg

theorem exec_withInput (i : Instr) : exec i (s.withInput frames) = mapNext (·.withInput frames) (exec i s) := by
  cases i with
  | nop | rsvdCmd2 | rsvdCmd3 | reset => rfl
  | tick conn inc pw rst => exact congrArg Host.Outcome.next (runTick_withInput s frames Config.params inc pw rst)
  | advance inc pwc => exact next_ite_withInput s frames _ (advance_withInput s frames inc pwc)
  | wrapUp q inc => exact next_ite_withInput s frames (wrapUpTaken q inc) (g := wrapUp q inc) rfl
  | wrapDn q inc => exact next_ite_withInput s frames (wrapDnTaken q inc) (g := wrapDn q inc) rfl
  | pulseEdgeUp p inc pwc | pulseEdgeDn p inc pwc =>
    exact next_ite_withInput s frames _ (pulseClassify_withInput s frames p inc pwc)
  | triFoldUp p inc | triFoldDn p inc => exact next_ite_withInput s frames _ (triClassify_withInput s frames p inc)

theorem runFrame_withInput (f : Frame) :
    runFrame f (s.withInput frames) = mapNext (·.withInput frames) (runFrame f s) := by
  unfold runFrame
  cases decodeFrame f with
  | ok i => exact exec_withInput s frames i
  | error e => cases e <;> rfl

/-- In an unmarked state one step does what the oldest frame does, and leaves the later frames presented. -/
theorem step_withInput_cons {s : State} (h : halted s = none) (f : Frame) :
    step (s.withInput (f :: frames)) = mapNext (·.withInput frames) (runFrame f s) :=
  (step_eq_runFrame (s := s.withInput (f :: frames)) h rfl).trans (runFrame_withInput s frames f)

end WithInput

/-! ### The CONN bits -/

/-- A frame with the CONN bits of its CTRL word cleared; a transition frame has none. -/
def clearConn : Frame → Frame
  | .command ctrl inc pw rst => .command (ctrl &&& 0xFFFFFFC3#32) inc pw rst
  | .transition ev a b c => .transition ev a b c

/-- What a frame does depends on CMD and the reserved field, and clearing the CONN bits keeps both. -/
theorem runFrame_clearConn (f : Frame) (s : State) : runFrame (clearConn f) s = runFrame f s := by
  cases f with
  | transition ev a b c => rfl
  | command ctrl inc pw rst =>
    rw [clearConn, runFrame_command, runFrame_command, ctrlCmd_and_connMask, ctrlReserved_and_connMask]

/-- A halted state stops alike whatever is presented. -/
theorem step_withInput_of_halted {s : State} {stop : Host.Outcome State Fault Refusal} (h : halted s = some stop)
    (frames : List Frame) : step (s.withInput frames) = stop := by
  have h' : halted (s.withInput frames) = some stop := h
  simp only [step, h']

/-- States that step alike run alike from there on. -/
theorem run_succ_of_step_eq {s t : State} (h : step s = step t) (k : Nat) : core.run (k + 1) s = core.run (k + 1) t := by
  have hcore : core.step s = core.step t := h
  simp only [Host.Core.run, hcore]

theorem run_clearConn (frames : List Frame) (s : State) :
    core.run frames.length (s.withInput frames) = core.run frames.length (s.withInput (frames.map clearConn)) := by
  induction frames generalizing s with
  | nil => rfl
  | cons f fs ih =>
    rw [List.map_cons, List.length_cons]
    cases hs : halted s with
    | some stop =>
      exact run_succ_of_step_eq ((step_withInput_of_halted hs _).trans (step_withInput_of_halted hs _).symm) fs.length
    | none =>
      have hl := step_withInput_cons fs hs f
      have hr := step_withInput_cons (fs.map clearConn) hs (clearConn f)
      rw [runFrame_clearConn] at hr
      cases ho : runFrame f s with
      | next t =>
        rw [ho] at hl hr
        exact (Laws.run_next core _ _ _ hl).trans ((ih t).trans (Laws.run_next core _ _ _ hr).symm)
      | fault r =>
        rw [ho] at hl hr
        exact (Laws.run_fault core _ _ _ hl).trans (Laws.run_fault core _ _ _ hr).symm
      | refused r =>
        rw [ho] at hl hr
        exact (Laws.run_refused core _ _ _ hl).trans (Laws.run_refused core _ _ _ hr).symm

/-- Settles O45, by induction on the frames: each frame does the same with its CONN bits cleared, and the two runs go on from
states that differ only in the frames not yet taken. -/
theorem connBitsChangeNothing : Obligations.ConnBitsChangeNothing := fun s frames => run_clearConn frames s

end Sys2Proof.Machine
end

section
/-! SUPPORT. The exceptions (60_exceptions.md): that a marked model stops, and what a TICK on a non-finite word raises. -/

namespace Sys2Proof.Machine

/-! ### A marked model stops -/

theorem halted_of_faulted {s : State} {info : FaultInfo} (h : s.fault = some info) :
    halted s = some (.fault (.inputFault info)) := by
  simp only [halted, h]

theorem halted_of_refused {s : State} (hf : s.fault = none) (hr : s.refused = true) :
    halted s = some (.refused .reservedEncoding) := by
  simp only [halted, hf, hr, if_true]

/-- A halted state stops, with the frames it holds presented. -/
theorem step_of_halted {s : State} {stop : Host.Outcome State Fault Refusal} (h : halted s = some stop) : step s = stop :=
  step_withInput_of_halted h s.input

/-- Settles O3: either mark halts the state, and a halted state decodes no frame. -/
theorem markedModelRunsNoCommand : Obligations.MarkedModelRunsNoCommand :=
  ⟨fun _ _ hf => step_of_halted (halted_of_faulted hf), fun _ hf hr => step_of_halted (halted_of_refused hf hr)⟩

/-! ### The InputFault of a TICK -/

/-- The exponent field as bits 30:23 of the word. -/
theorem toNat_extractLsb'_exponent (x : F32) : (x.extractLsb' 23 8).toNat = expField x := by
  rw [BitVec.extractLsb'_toNat, Nat.shiftRight_eq_div_pow, expField]

/-- The condition of R134: a word is an infinity or a NaN exactly when its exponent field is 0xFF. -/
theorem isFinite_eq_false_iff (x : F32) : isFinite x = false ↔ x.extractLsb' 23 8 = 0xFF#8 := by
  rw [← BitVec.toNat_inj, toNat_extractLsb'_exponent, isFinite, bne_eq_false_iff_eq]
  rfl

section OperandFault

variable {inc pw rst : F32}

theorem operandFault_of_inc (h : isFinite inc = false) :
    operandFault inc pw rst = some { cause := 1, word := 1, bits := inc } := by
  simp [operandFault, h]

theorem operandFault_of_pw (h1 : isFinite inc = true) (h2 : isFinite pw = false) :
    operandFault inc pw rst = some { cause := 1, word := 2, bits := pw } := by
  simp [operandFault, h1, h2]

theorem operandFault_of_rst (h1 : isFinite inc = true) (h2 : isFinite pw = true) (h3 : isFinite rst = false) :
    operandFault inc pw rst = some { cause := 1, word := 3, bits := rst } := by
  simp [operandFault, h1, h2, h3]

/-- A TICK whose operand check finds a word sets the fault mark and writes nothing else. -/
theorem exec_tick_of_operandFault (conn : Conn) {info : FaultInfo} (s : State) (h : operandFault inc pw rst = some info) :
    exec (.tick conn inc pw rst) s = .next { s with fault := some info } := by
  simp only [exec, execTick, runTick, h, raiseInputFault]

end OperandFault

/-- Settles O12: the operand check names the first word of INC, PW, RST whose exponent field is 0xFF. -/
theorem nonFiniteWordRaisesInputFault : Obligations.NonFiniteWordRaisesInputFault := by
  intro conn inc pw rst s
  simp only [← isFinite_eq_false_iff, Bool.not_eq_false]
  exact ⟨fun h1 => exec_tick_of_operandFault conn s (operandFault_of_inc h1),
    fun h1 h2 => exec_tick_of_operandFault conn s (operandFault_of_pw h1 h2),
    fun h1 h2 h3 => exec_tick_of_operandFault conn s (operandFault_of_rst h1 h2 h3)⟩

end Sys2Proof.Machine
end

section
/-! SUPPORT. Reset and hazards (70_reset_and_hazards.md): the power-on state, the first TICK after it, the RESET that a trigger
edge brings about, and that every instruction completes in its step. -/

namespace Sys2Proof.Machine

/-! ### Every instruction completes -/

theorem exec_tick (conn : Conn) (inc pw rst : F32) (s : State) :
    exec (.tick conn inc pw rst) s = .next (runTick Config.params inc pw rst s) := rfl

/-- Settles O10: a TICK answers whether or not it faults, and a transition run alone whether or not it is taken. -/
theorem everyInstructionCompletesInOneStep : Obligations.EveryInstructionCompletesInOneStep := by
  intro i s
  cases i with
  | nop | rsvdCmd2 | rsvdCmd3 => exact ⟨_, rfl⟩
  | tick conn inc pw rst => exact ⟨_, exec_tick conn inc pw rst s⟩
  | advance | wrapUp | wrapDn | pulseEdgeUp | pulseEdgeDn | triFoldUp | triFoldDn | reset => exact ⟨_, rfl⟩

/-! ### The power-on state -/

/-- A pulse width agrees with the power-on state exactly when the phase is below it (R151): squareHigh is 1 there, and no
other condition of ConsistentLaunch reads the width. -/
theorem consistentLaunch_reset (pwc0 : F32) : consistentLaunch State.reset pwc0 = flt State.reset.phase pwc0 := by
  unfold consistentLaunch
  generalize flt State.reset.phase pwc0 = below
  revert below
  decide

/-- Settles O14: the invariants by evaluation, and ConsistentLaunch by the one condition that reads the pulse width. -/
theorem powerOnMeetsTheInvariants : Obligations.PowerOnMeetsTheInvariants :=
  ⟨by decide, by decide, by decide, by decide, by decide, fun pwc0 h => (consistentLaunch_reset pwc0).trans h⟩

/-! ### The first TICK after power-on -/

/-- No record is pending at power-on, so the slot a TICK emits is the +0.0 that stood behind it (43_delay_line.md R113). -/
theorem tick_reset_line_s0 (P : Params) (op : TickOperands) (w : Wave) :
    (lineOf (waveBuf w) (tick P op State.reset)).s0 = posZero := by
  rw [tick_line, recordOf_reset, injectLine_of_inactive P w rfl]
  exact bufRead_reset (waveBuf w) 1

theorem tick_reset_pw_s0 (P : Params) (op : TickOperands) : (tick P op State.reset).buf.pw.s0 = posZero := by
  rw [tick_buf_pw]
  exact bufRead_reset .pw 1

theorem scaleUnipolar_posZero : scaleUnipolar posZero = 0xC0A00000#32 := by decide

/-- The width +0.0 is not a silent one (42_waveform_generator.md R106). -/
theorem squareOutput_posZero (P : Params) (v : F32) : squareOutput P v posZero = P.squareOut v posZero := by
  rw [squareOutput, if_neg (by decide)]

/-- Settles O28: the outputs are read from slot 0 of each buffer, which holds +0.0 whatever the operands are. -/
theorem firstTickEmitsPowerOnSlots : Obligations.FirstTickEmitsPowerOnSlots := by
  intro conn inc pw rst h1 h2 h3
  have hslot := tick_reset_line_s0 Config.params (tickOperands inc pw rst)
  have hwidth := tick_reset_pw_s0 Config.params (tickOperands inc pw rst)
  refine ⟨_, exec_tick_finite conn State.reset h1 h2 h3, ?_⟩
  rw [tick_out]
  refine ⟨?_, ?_, ?_⟩
  · exact (congrArg scaleUnipolar (hslot .saw)).trans scaleUnipolar_posZero
  · exact (congrArg scaleUnipolar (hslot .tri)).trans scaleUnipolar_posZero
  · exact (congrArg₂ (squareOutput _) (hslot .sq) hwidth).trans (squareOutput_posZero _ posZero)

/-! ### A trigger edge -/

theorem tick_out_sin (P : Params) (op : TickOperands) (s : State) :
    (tick P op s).out.sin = sineOutput P (tick P op s).phase := by
  rw [tick_out, tickOutputs]

/-- Settles O25: the first TICK arms a reset, and the second, armed, leaves phase 0 and reads the sine from it. -/
theorem triggerEdgeResetsNextTick : Obligations.TriggerEdgeResetsNextTick := by
  refine ⟨exec_tick, fun P inc1 pw1 rst1 inc2 pw2 rst2 s h1 h2 h3 h4 h5 h6 hlow hhigh => ?_⟩
  rw [runTick_of_isFinite P s h1 h2 h3, runTick_of_isFinite P _ h4 h5 h6]
  have hedge : fge (tickOperands inc1 pw1 rst1).rst P.resetThreshold = true := hhigh
  have harmed : (tick P (tickOperands inc1 pw1 rst1) s).resetArmed = true := by
    rw [tick_resetArmed, hedge, hlow]; rfl
  obtain ⟨-, hphase, -, -, -, -, hev, -⟩ := tick_of_armed P (tickOperands inc2 pw2 rst2) harmed
  refine ⟨hev, hphase, ?_⟩
  rw [tick_out_sin, hphase, sineOutput]

end Sys2Proof.Machine
end

section
/-! SUPPORT. The remaining laws: the idle block, the exactness and the rounding of the two wraps, and the transitions run alone,
each with its whole result. -/

namespace Sys2Proof.Machine

/-! ### The idle block -/

theorem step_of_idle {s : State} (h : halted s = none) (hin : s.input = []) : step s = .next s := by
  simp only [step, h, hin]

/-- Settles O2, by induction on the number of steps: each answers the state it started in. -/
theorem idleBlockHoldsItsState : Obligations.IdleBlockHoldsItsState := by
  intro s k hf hr hin
  induction k with
  | zero => rfl
  | succ k ih => exact (Laws.run_next core k s s (step_of_idle (halted_of_unmarked hf hr) hin)).trans ih

/-! ### The phase after a wrap, exactly -/

/-- A value whose 24-bit significand stands at the place 2^k or above it is a multiple of 2^k. -/
theorem pow_dvd_value {x : F32} {k : ℕ} (h : 2 ^ (k + 23) ≤ value x) : (2 ^ k : ℤ) ∣ value x := by
  have hs : signBit x = false := signBit_of_value_pos (lt_of_lt_of_le (by positivity) h)
  obtain ⟨f, j, hf, -, he⟩ := magOfBits_significand (magBits x)
  have hv : value x = ((f * 2 ^ j : ℕ) : ℤ) := by rw [value_eq, hs, he]; rfl
  rw [hv] at h ⊢
  have hlt : 2 ^ (k + 23) < 2 ^ (24 + j) :=
    calc 2 ^ (k + 23) ≤ f * 2 ^ j := by exact_mod_cast h
      _ < 2 ^ 24 * 2 ^ j := Nat.mul_lt_mul_of_pos_right hf (by positivity)
      _ = 2 ^ (24 + j) := (pow_add ..).symm
  have hkj : k + 23 < 24 + j := (Nat.pow_lt_pow_iff_right Nat.one_lt_two).1 hlt
  exact_mod_cast (pow_dvd_pow 2 (by omega : k ≤ j)).mul_left f

/-- Settles O47: q and 1 are multiples of 2^-23, and their difference, at most 1/2, is a representable one. -/
theorem wrapUpSubtractionIsExact : Obligations.WrapUpSubtractionIsExact := by
  intro q h
  obtain ⟨hf, hlo, hhi⟩ := (within_iff (by decide) (by decide)).1 h
  rw [value_one] at hlo ⊢
  rw [value_oneAndHalf] at hhi
  obtain ⟨f, hv⟩ : (2 ^ 126 : ℤ) ∣ value q := pow_dvd_value (k := 126) hlo
  obtain ⟨r, hr, hrv⟩ := representable_value (f - 2 ^ 23) 126 (by omega) (by norm_num)
  have hexact := fadd_exact (y := fneg one) hf (by decide) hr (by rw [value_fneg, value_one]; omega)
  rw [value_fneg, value_one, ← sub_eq_add_neg] at hexact
  exact hexact.2

/-- Settles O48: rounding is monotone, and q + 1 lies between -2^-25 + 1, a tie that rounds to 1, and 0 + 1. -/
theorem tinyNegativeWrapsJustBelowOne : Obligations.TinyNegativeWrapsJustBelowOne := by
  intro q hlo hhi
  obtain ⟨hf, h1, h2⟩ := (withinBelow_iff (lo := 0xB3000000#32) (by decide) (by decide)).1
    (Bool.and_eq_true_iff.2 ⟨hlo, hhi⟩)
  have hone : isFinite one = true := by decide
  have hge : value (fadd 0xB3000000#32 one) ≤ value (fadd q one) := value_fadd_mono (by decide) hone hf hone (by omega)
  have hle : value (fadd q one) ≤ value (fadd posZero one) := value_fadd_mono hf hone (by decide) hone (by omega)
  rw [show fadd 0xB3000000#32 one = one by decide] at hge
  rw [show fadd posZero one = one by decide] at hle
  have hsum : fadd q one = one := eq_of_value_eq_of_ne_zero (le_antisymm hle hge) (by decide)
  exact ⟨hsum, by rw [wrapDnPhase, hsum, if_pos (by decide)]⟩

/-! ### When a transition run alone is taken -/

/-- An instruction that is not well formed has no effect but `notTaken`. -/
theorem Effect.eq_of_not_wellFormed {i : Instr} {s t : State} (h : Effect s i t) (hi : i.wellFormed = false) : t = s := by
  cases h with
  | notTaken => rfl
  | idled | refused2 | refused3 | faulted | ticked | wasReset => cases hi
  | advanced h | wrappedUp h | wrappedDn h | edgeUp h | edgeDn h | foldUp h | foldDn h => cases h.symm.trans hi

/-- Settles O36, by the effects an instruction can have. -/
theorem illFormedTransitionIsNotTaken : Obligations.IllFormedTransitionIsNotTaken := by
  intro i s hi
  obtain ⟨t, ht⟩ := everyInstructionCompletesInOneStep i s
  rw [ht, (exec_effect ht).eq_of_not_wellFormed hi]

/-- Settles O35: RESET has no operands and is always taken. -/
theorem resetResult : Obligations.ResetResult := fun _ => rfl

section Taken

variable {q p inc pwc : F32} (s : State)

theorem exec_advance_of_taken (h : advanceTaken inc pwc = true) : exec (.advance inc pwc) s = .next (advance inc pwc s) :=
  congrArg Host.Outcome.next (if_pos h)

theorem exec_wrapUp_of_taken (h : wrapUpTaken q inc = true) : exec (.wrapUp q inc) s = .next (wrapUp q inc s) :=
  congrArg Host.Outcome.next (if_pos h)

theorem exec_wrapDn_of_taken (h : wrapDnTaken q inc = true) : exec (.wrapDn q inc) s = .next (wrapDn q inc s) :=
  congrArg Host.Outcome.next (if_pos h)

theorem exec_pulseEdgeUp_of_taken (h : pulseEdgeUpTaken p inc pwc = true) :
    exec (.pulseEdgeUp p inc pwc) s = .next (pulseClassify p inc pwc s) :=
  congrArg Host.Outcome.next (if_pos h)

theorem exec_pulseEdgeDn_of_taken (h : pulseEdgeDnTaken p inc pwc = true) :
    exec (.pulseEdgeDn p inc pwc) s = .next (pulseClassify p inc pwc s) :=
  congrArg Host.Outcome.next (if_pos h)

theorem exec_triFoldUp_of_taken (h : triFoldUpTaken p inc = true) : exec (.triFoldUp p inc) s = .next (triClassify p inc s) :=
  congrArg Host.Outcome.next (if_pos h)

theorem exec_triFoldDn_of_taken (h : triFoldDnTaken p inc = true) : exec (.triFoldDn p inc) s = .next (triClassify p inc s) :=
  congrArg Host.Outcome.next (if_pos h)

end Taken

theorem fle_of_flt {x y : F32} (h : flt x y = true) : fle x y = true := by
  simp only [flt, fle, Bool.and_eq_true, decide_eq_true_eq] at h ⊢
  exact ⟨h.1, h.2.le⟩

theorem not_flt_of_flt {x y : F32} (h : flt x y = true) : flt y x = false := by
  simp only [flt, Bool.and_eq_true, decide_eq_true_eq] at h
  simp only [flt, Bool.and_eq_false_iff, decide_eq_false_iff_not]
  omega

section Increment

variable {inc : F32}

theorem incConditioned_of_pos (h0 : fgt inc posZero = true) (h1 : fle inc half = true) : incConditioned inc = true := by
  have hw : within posZero inc half = true := Bool.and_eq_true_iff.2 ⟨fle_of_flt h0, h1⟩
  rw [within_iff (by decide) (by decide), value_posZero, value_half] at hw
  exact (incConditioned_iff inc).2 ⟨hw.1, by omega, hw.2.2⟩

theorem incConditioned_of_neg (h0 : flt inc posZero = true) (h1 : fle (fneg half) inc = true) : incConditioned inc = true := by
  have hw : within (fneg half) inc posZero = true := Bool.and_eq_true_iff.2 ⟨h1, fle_of_flt h0⟩
  rw [within_iff (by decide) (by decide), value_fneg, value_posZero, value_half] at hw
  exact (incConditioned_iff inc).2 ⟨hw.1, hw.2.1, by omega⟩

theorem incConditioned_of_isZero (h : isZero inc = true) : incConditioned inc = true := by
  rw [incConditioned_iff, value_of_isZero h]
  exact ⟨isFinite_of_isZero h, by omega, by omega⟩

theorem fge_posZero_of_isZero (h : isZero inc = true) : fge inc posZero = true := by
  rw [fge, fle_iff (by decide) (isFinite_of_isZero h), value_of_isZero h, value_posZero]

end Increment

/-! ### The wraps run alone -/

/-- Settles O30: the operands are ones WRAP_UP takes. -/
theorem wrapUpResult : Obligations.WrapUpResult := by
  intro q inc s hq h0 h1
  have htaken : wrapUpTaken q inc = true := by
    rw [wrapUpTaken, hq, incConditioned_of_pos h0 h1, h0]; rfl
  exact exec_wrapUp_of_taken s htaken

/-- Settles O31: the operands are ones WRAP_DN takes. -/
theorem wrapDnResult : Obligations.WrapDnResult := by
  intro q inc s hlo hhi h0 h1
  have htaken : wrapDnTaken q inc = true := by
    rw [wrapDnTaken, withinBelow, hlo, hhi, incConditioned_of_neg h0 h1, h0]; rfl
  exact exec_wrapDn_of_taken s htaken

/-! ### The pulse edges run alone -/

/-- The pulse classification by whether squareHigh changes, with the direction bit and with any threshold of the same crossing
fraction (R73 to R75). -/
theorem pulseClassify_eq_ite {p inc pwc t : F32} {bit : EvWord} (s : State)
    (hbit : (if flt inc posZero then evPeDn else evPeUp) = bit)
    (ht : cross p (pulseT (squareHighAt p pwc) inc pwc) inc = cross p t inc) :
    pulseClassify p inc pwc s =
      if squareHighAt p pwc = s.squareHigh then s
      else
        { s with
          squareHigh := squareHighAt p pwc
          work :=
            { np := { s.work.np with
                        sq := { active := true, d := cross p t inc, u := squareMagnitude (squareHighAt p pwc) } }
              ev := s.work.ev ||| bit } } := by
  rw [pulseClassify_eq, hbit, ht]
  by_cases h : squareHighAt p pwc = s.squareHigh
  · rw [if_pos h, bne_eq_false_iff_eq.2 h, h]; rfl
  · rw [if_neg h, bne_iff_ne.2 h]; rfl

/-- Settles O32: each clause names the direction bit and the threshold of its increment; at a zero increment CROSS reads no
threshold. -/
theorem pulseEdgeResults : Obligations.PulseEdgeResults := by
  intro p inc pwc s hlo hhi hw nh edge
  have hp : phaseContained p = true := Bool.and_eq_true_iff.2 ⟨hlo, hhi⟩
  refine ⟨fun h0 h1 => ?_, fun hz t => ?_, fun h0 h1 => ?_⟩
  · have htaken : pulseEdgeUpTaken p inc pwc = true := by
      rw [pulseEdgeUpTaken, hp, incConditioned_of_pos h0 h1, fge, fle_of_flt h0, widthConditioned, hw]; rfl
    rw [exec_pulseEdgeUp_of_taken s htaken]
    exact congrArg Host.Outcome.next
      (pulseClassify_eq_ite s (if_neg (Bool.eq_false_iff.1 (not_flt_of_flt h0)))
        (congrArg (cross p · inc) (pulseT_of_pos h0 nh pwc)))
  · have htaken : pulseEdgeUpTaken p inc pwc = true := by
      rw [pulseEdgeUpTaken, hp, incConditioned_of_isZero hz, fge_posZero_of_isZero hz, widthConditioned, hw]; rfl
    rw [exec_pulseEdgeUp_of_taken s htaken]
    exact congrArg Host.Outcome.next
      (pulseClassify_eq_ite s (if_neg (Bool.eq_false_iff.1 (not_flt_posZero_of_isZero hz)))
        ((cross_of_isZero _ _ hz).trans (cross_of_isZero _ _ hz).symm))
  · have htaken : pulseEdgeDnTaken p inc pwc = true := by
      rw [pulseEdgeDnTaken, hp, incConditioned_of_neg h0 h1, h0, widthConditioned, hw]; rfl
    rw [exec_pulseEdgeDn_of_taken s htaken]
    exact congrArg Host.Outcome.next
      (pulseClassify_eq_ite s (if_pos h0) (congrArg (cross p · inc) (pulseT_of_neg h0 nh pwc)))

/-! ### The folds run alone -/

/-- The fold classification by whether triRising changes, with the direction bit and with any fold point of the same crossing
fraction (R76 to R79). -/
theorem triClassify_eq_ite {p inc t : F32} {bit : EvWord} (s : State)
    (hbit : (if flt inc posZero then evTfDn else evTfUp) = bit) (ht : cross p (triT p inc) inc = cross p t inc) :
    triClassify p inc s =
      if triRisingAt p = s.triRising then s
      else
        { s with
          triRising := triRisingAt p
          work :=
            { np := { s.work.np with
                        tri := { active := true, d := cross p t inc, u := triMagnitude (triRisingAt p) inc } }
              ev := s.work.ev ||| bit } } := by
  rw [triClassify_eq, hbit, ht]
  by_cases h : triRisingAt p = s.triRising
  · rw [if_pos h, bne_eq_false_iff_eq.2 h, h]; rfl
  · rw [if_neg h, bne_iff_ne.2 h]; rfl

/-- Settles O33: each clause names the direction bit and the fold point of its increment; at a zero increment CROSS reads no
fold point. -/
theorem triFoldResults : Obligations.TriFoldResults := by
  intro p inc s hlo hhi nr fold
  have hp : phaseContained p = true := Bool.and_eq_true_iff.2 ⟨hlo, hhi⟩
  refine ⟨fun h0 h1 => ?_, fun hz t => ?_, fun h0 h1 => ?_⟩
  · have htaken : triFoldUpTaken p inc = true := by
      rw [triFoldUpTaken, hp, incConditioned_of_pos h0 h1, fge, fle_of_flt h0]; rfl
    rw [exec_triFoldUp_of_taken s htaken]
    exact congrArg Host.Outcome.next
      (triClassify_eq_ite s (if_neg (Bool.eq_false_iff.1 (not_flt_of_flt h0))) (congrArg (cross p · inc) (if_pos h0)))
  · have htaken : triFoldUpTaken p inc = true := by
      rw [triFoldUpTaken, hp, incConditioned_of_isZero hz, fge_posZero_of_isZero hz]; rfl
    rw [exec_triFoldUp_of_taken s htaken]
    exact congrArg Host.Outcome.next
      (triClassify_eq_ite s (if_neg (Bool.eq_false_iff.1 (not_flt_posZero_of_isZero hz)))
        ((cross_of_isZero _ _ hz).trans (cross_of_isZero _ _ hz).symm))
  · have htaken : triFoldDnTaken p inc = true := by
      rw [triFoldDnTaken, hp, incConditioned_of_neg h0 h1, h0]; rfl
    rw [exec_triFoldDn_of_taken s htaken]
    exact congrArg Host.Outcome.next
      (triClassify_eq_ite s (if_pos h0)
        (congrArg (cross p · inc) (if_neg (Bool.eq_false_iff.1 (not_flt_of_flt h0)))))

/-! ### ADVANCE run alone -/

/-- The frame of an advance: it writes the phases, the flags and the working variables. -/
theorem advance_eq (inc pwc : F32) (s : State) :
    advance inc pwc s =
      { s with
        phase := advancedPhase inc s
        prevPhase := s.phase
        squareHigh := squareHighAt (advancedPhase inc s) pwc
        triRising := triRisingAt (advancedPhase inc s)
        halfHigh := halfHighAt (advancedPhase inc s)
        subParity := if fge (fadd s.phase inc) one || flt (fadd s.phase inc) posZero then !s.subParity else s.subParity
        work := (advance inc pwc s).work } := by
  simp only [advance, pulseClassify_eq, triClassify_eq, wrapPhase_eq, noteEvent, halfClassify, advancedPhase, wrappedPhase]

theorem sign_cases {x : F32} (h : isFinite x = true) : fgt x posZero = true ∨ flt x posZero = true ∨ isZero x = true := by
  rw [fgt, flt_iff (by decide) h, flt_iff h (by decide), isZero_iff_value, value_posZero]
  omega

/-- The crossing fraction of a pulse edge by the direction of motion alone: PULSE_T is free at a zero increment, but not read
there (R72, R81). -/
theorem cross_pulseT (p : F32) (nh : Bool) {inc : F32} (pwc : F32) (h : isFinite inc = true) :
    cross p (pulseT nh inc pwc) inc =
      cross p (if flt inc posZero then (if nh then pwc else one) else (if nh then posZero else pwc)) inc := by
  obtain hpos | hneg | hzero := sign_cases h
  · rw [pulseT_of_pos hpos, not_flt_of_flt hpos, if_neg Bool.false_ne_true]
  · rw [pulseT_of_neg hneg, if_pos hneg]
  · rw [cross_of_isZero _ _ hzero, cross_of_isZero _ _ hzero]

/-- The second of two conditions may be read as excluding the first. -/
theorem ite_else_ite_not_and {α : Type} (u d : Bool) (a b c : α) :
    (if u then a else if d then b else c) = if u then a else if !u && d then b else c := by
  cases u <;> rfl

/-- The saw record of an advance by the phase it leaves (R67, R68). -/
theorem advance_np_saw_eq (inc pwc : F32) (s : State) :
    (advance inc pwc s).work.np.saw =
      if fge (fadd s.phase inc) one then { active := true, d := cross (advancedPhase inc s) posZero inc, u := one }
      else if flt (fadd s.phase inc) posZero then { active := true, d := cross (advancedPhase inc s) one inc, u := fneg one }
      else s.work.np.saw := by
  rw [advance_np_saw, advancedPhase, wrappedPhase]
  by_cases hup : fge (fadd s.phase inc) one = true
  · simp only [if_pos hup]
  · by_cases hdn : flt (fadd s.phase inc) posZero = true
    · simp only [if_neg hup, if_pos hdn]
    · simp only [if_neg hup, if_neg hdn]

/-- The event bits of an advance in the order ADV, wrap, pulse edge, fold (30_encoding.md R58). -/
theorem advanceEvents_eq (up down edge fold backward : Bool) :
    advanceEvents up down edge fold backward =
      0x01#8 ||| (if up then 0x02#8 else if !up && down then 0x04#8 else 0x00#8) |||
        (if edge then (if backward then 0x10#8 else 0x08#8) else 0x00#8) |||
        (if fold then (if backward then 0x40#8 else 0x20#8) else 0x00#8) := by
  rw [advanceEvents, BitVec.or_comm _ evAdv, ite_else_ite_not_and, BitVec.or_assoc, BitVec.or_assoc, BitVec.or_assoc]
  rfl

/-- Settles O34: the fields by the frame of an advance, the working variables one by one. -/
theorem advanceResult : Obligations.AdvanceResult := by
  intro inc pwc s hi hw q up down p nh nr pulseThreshold foldPoint
  have htaken : advanceTaken inc pwc = true := Bool.and_eq_true_iff.2 ⟨hi, hw⟩
  have hfinite : isFinite inc = true := ((incConditioned_iff inc).1 hi).1
  have hphase : advancedPhase inc s = p := ite_else_ite_not_and ..
  have hwraps : (fge q one || flt q posZero) = (up || down) := by
    rw [Bool.or_and_distrib_left, Bool.or_not_self, Bool.true_and]
  have hsaw : (advance inc pwc s).work.np.saw =
      if up then { active := true, d := cross p posZero inc, u := one }
      else if down then { active := true, d := cross p one inc, u := fneg one } else s.work.np.saw := by
    rw [advance_np_saw_eq, hphase]
    exact ite_else_ite_not_and ..
  have hsq : (advance inc pwc s).work.np.sq =
      if nh = s.squareHigh then s.work.np.sq
      else { active := true, d := cross p pulseThreshold inc, u := if nh then fneg two else two } := by
    rw [advance_np_sq, hphase, cross_pulseT _ _ _ hfinite]
    simp only [bne_iff_ne, ne_eq, ite_not]
    rfl
  have htri : (advance inc pwc s).work.np.tri =
      if nr = s.triRising then s.work.np.tri
      else { active := true, d := cross p foldPoint inc, u := fmul (if nr then four else fneg four) inc } := by
    rw [advance_np_tri, hphase]
    simp only [bne_iff_ne, ne_eq, ite_not]
    rfl
  have hev : (advance inc pwc s).work.ev =
      s.work.ev ||| 0x01#8 ||| (if up then 0x02#8 else if down then 0x04#8 else 0x00#8) |||
        (if nh = s.squareHigh then 0x00#8 else if flt inc posZero then 0x10#8 else 0x08#8) |||
        (if nr = s.triRising then 0x00#8 else if flt inc posZero then 0x40#8 else 0x20#8) := by
    rw [advance_work_ev_eq, hphase, advanceEvents_eq]
    simp only [bne_iff_ne, ne_eq, ite_not, BitVec.or_assoc]
    rfl
  rw [exec_advance_of_taken s htaken, advance_eq, hphase, hwraps, ← hsaw, ← hsq, ← htri, ← hev]
  rfl

end Sys2Proof.Machine
end
